-- ==== Sys2Proof/Word.lean ====
section
/-! DEFINITION. The words of the machine: their widths (spec/00_scope.md R8) and nothing else. -/

namespace Sys2Proof

/-- A 32-bit word: register contents, addresses, instruction words (R8 `XLEN`, address width,
instruction width). -/
abbrev Word := BitVec 32

/-- A byte of memory, of a preimage or of a hint. -/
abbrev Byte := BitVec 8

/-- A general register's number, 0 to 31 (R8 `NREGS`; the 5-bit fields of R81). -/
abbrev RegNum := BitVec 5

/-- A preimage key, 32 bytes (R8 `preimageKey` width; 10_state.md R36). -/
abbrev Key := Vector Byte 32

end Sys2Proof
end

