-- ==== Sys2Proof/Syntax.lean ====
section
/-! DEFINITION. The instructions: one constructor per row of spec/opcode_table.json
(spec/30_encoding.md R88), in the table's order, with the row's fields in the table's order. -/

namespace Sys2Proof

/-- The 65 admitted instructions (R88).  Register fields are register numbers; immediates, offsets,
indexes and the ignored `code` and `stype` are the bits of their field (R81, R85). -/
inductive Instr where
  -- Arithmetic, logic, compare, shift, move, count (40_arith_logic.md).
  | add (rs rt rd : RegNum)
  | addu (rs rt rd : RegNum)
  | sub (rs rt rd : RegNum)
  | subu (rs rt rd : RegNum)
  | and (rs rt rd : RegNum)
  | or (rs rt rd : RegNum)
  | xor (rs rt rd : RegNum)
  | nor (rs rt rd : RegNum)
  | slt (rs rt rd : RegNum)
  | sltu (rs rt rd : RegNum)
  | addi (rs rt : RegNum) (imm : BitVec 16)
  | addiu (rs rt : RegNum) (imm : BitVec 16)
  | slti (rs rt : RegNum) (imm : BitVec 16)
  | sltiu (rs rt : RegNum) (imm : BitVec 16)
  | andi (rs rt : RegNum) (imm : BitVec 16)
  | ori (rs rt : RegNum) (imm : BitVec 16)
  | xori (rs rt : RegNum) (imm : BitVec 16)
  | lui (rt : RegNum) (imm : BitVec 16)
  | sll (rt rd : RegNum) (sa : BitVec 5)
  | srl (rt rd : RegNum) (sa : BitVec 5)
  | sra (rt rd : RegNum) (sa : BitVec 5)
  | sllv (rs rt rd : RegNum)
  | srlv (rs rt rd : RegNum)
  | srav (rs rt rd : RegNum)
  | movz (rs rt rd : RegNum)
  | movn (rs rt rd : RegNum)
  | clz (rs rt rd : RegNum)
  | clo (rs rt rd : RegNum)
  -- Loads and stores (41_load_store.md).
  | lb (base rt : RegNum) (offset : BitVec 16)
  | lbu (base rt : RegNum) (offset : BitVec 16)
  | lh (base rt : RegNum) (offset : BitVec 16)
  | lhu (base rt : RegNum) (offset : BitVec 16)
  | lw (base rt : RegNum) (offset : BitVec 16)
  | lwl (base rt : RegNum) (offset : BitVec 16)
  | lwr (base rt : RegNum) (offset : BitVec 16)
  | sb (base rt : RegNum) (offset : BitVec 16)
  | sh (base rt : RegNum) (offset : BitVec 16)
  | sw (base rt : RegNum) (offset : BitVec 16)
  | swl (base rt : RegNum) (offset : BitVec 16)
  | swr (base rt : RegNum) (offset : BitVec 16)
  | ll (base rt : RegNum) (offset : BitVec 16)
  | sc (base rt : RegNum) (offset : BitVec 16)
  -- Jumps and branches (42_branch_jump.md).
  | j (index : BitVec 26)
  | jal (index : BitVec 26)
  | jr (rs : RegNum)
  | jalr (rs rd : RegNum)
  | beq (rs rt : RegNum) (offset : BitVec 16)
  | bne (rs rt : RegNum) (offset : BitVec 16)
  | blez (rs : RegNum) (offset : BitVec 16)
  | bgtz (rs : RegNum) (offset : BitVec 16)
  | bltz (rs : RegNum) (offset : BitVec 16)
  | bgez (rs : RegNum) (offset : BitVec 16)
  | bltzal (rs : RegNum) (offset : BitVec 16)
  | bgezal (rs : RegNum) (offset : BitVec 16)
  -- Multiply and divide (43_muldiv.md).
  | mult (rs rt : RegNum)
  | multu (rs rt : RegNum)
  | div (rs rt : RegNum)
  | divu (rs rt : RegNum)
  | mfhi (rd : RegNum)
  | mflo (rd : RegNum)
  | mthi (rs : RegNum)
  | mtlo (rs : RegNum)
  | mul (rs rt rd : RegNum)
  -- System (44_system.md).
  | syscall (code : BitVec 20)
  | sync (stype : BitVec 5)
deriving DecidableEq, Repr

end Sys2Proof
end

