-- ==== Sys2Proof/Decode.lean ====
section
/-! DEFINITION. The decoder and the encoder (spec/30_encoding.md R80 to R93).  The decoder is R86's: a
word is the instruction of the row whose mask and match it meets; the encoder puts the fields of
R82 to R84's formats side by side. -/

namespace Sys2Proof

/-! ### Fields (R81) -/

/-- `op`, bits 31:26. -/
def opField (w : Word) : BitVec 6 := w.extractLsb' 26 6
/-- `rs` or `base`, bits 25:21. -/
def rsField (w : Word) : RegNum := w.extractLsb' 21 5
/-- `rt`, bits 20:16. -/
def rtField (w : Word) : RegNum := w.extractLsb' 16 5
/-- `rd`, bits 15:11. -/
def rdField (w : Word) : RegNum := w.extractLsb' 11 5
/-- `sa`, bits 10:6; `stype` for SYNC. -/
def saField (w : Word) : BitVec 5 := w.extractLsb' 6 5
/-- `funct`, bits 5:0. -/
def functField (w : Word) : BitVec 6 := w.extractLsb' 0 6
/-- `imm` or `offset`, bits 15:0. -/
def immField (w : Word) : BitVec 16 := w.extractLsb' 0 16
/-- `index`, bits 25:0. -/
def indexField (w : Word) : BitVec 26 := w.extractLsb' 0 26
/-- `code`, bits 25:6. -/
def codeField (w : Word) : BitVec 20 := w.extractLsb' 6 20

/-! ### Formats (R82, R83, R84) -/

/-- The R format, bit 31 on the left. -/
def rType (op : BitVec 6) (rs rt rd : RegNum) (sa : BitVec 5) (funct : BitVec 6) : Word :=
  op ++ rs ++ rt ++ rd ++ sa ++ funct

/-- The I format. -/
def iType (op : BitVec 6) (rs rt : RegNum) (imm : BitVec 16) : Word :=
  op ++ rs ++ rt ++ imm

/-- The J format. -/
def jType (op : BitVec 6) (index : BitVec 26) : Word :=
  op ++ index

/-- The SYSCALL word: the R format with bits 25:6 one software field (R81 `code`). -/
def codeType (op : BitVec 6) (code : BitVec 20) (funct : BitVec 6) : Word :=
  op ++ code ++ funct

/-! ### The opcode table (R88) -/

/-- A row of R88: its mnemonic, mask and match, whether it carries the constraint `rt = rd` (R93), and
the instruction its fields make. -/
structure Row where
  mnemonic : String
  mask : Word
  value : Word
  needsRtEqRd : Bool
  build : Word → Instr

/-- The word is the row's: `insn & mask = match`, and the extra constraint holds (R86). -/
def Row.admits (r : Row) (w : Word) : Bool :=
  w &&& r.mask == r.value && (!r.needsRtEqRd || rtField w == rdField w)

/-- The arithmetic, logic, compare, shift, move and count rows of R88. -/
def arithRows : List Row := [
  ⟨"ADD", 0xFC0007FF, 0x00000020, false, fun w => .add (rsField w) (rtField w) (rdField w)⟩,
  ⟨"ADDU", 0xFC0007FF, 0x00000021, false, fun w => .addu (rsField w) (rtField w) (rdField w)⟩,
  ⟨"SUB", 0xFC0007FF, 0x00000022, false, fun w => .sub (rsField w) (rtField w) (rdField w)⟩,
  ⟨"SUBU", 0xFC0007FF, 0x00000023, false, fun w => .subu (rsField w) (rtField w) (rdField w)⟩,
  ⟨"AND", 0xFC0007FF, 0x00000024, false, fun w => .and (rsField w) (rtField w) (rdField w)⟩,
  ⟨"OR", 0xFC0007FF, 0x00000025, false, fun w => .or (rsField w) (rtField w) (rdField w)⟩,
  ⟨"XOR", 0xFC0007FF, 0x00000026, false, fun w => .xor (rsField w) (rtField w) (rdField w)⟩,
  ⟨"NOR", 0xFC0007FF, 0x00000027, false, fun w => .nor (rsField w) (rtField w) (rdField w)⟩,
  ⟨"SLT", 0xFC0007FF, 0x0000002A, false, fun w => .slt (rsField w) (rtField w) (rdField w)⟩,
  ⟨"SLTU", 0xFC0007FF, 0x0000002B, false, fun w => .sltu (rsField w) (rtField w) (rdField w)⟩,
  ⟨"ADDI", 0xFC000000, 0x20000000, false, fun w => .addi (rsField w) (rtField w) (immField w)⟩,
  ⟨"ADDIU", 0xFC000000, 0x24000000, false, fun w => .addiu (rsField w) (rtField w) (immField w)⟩,
  ⟨"SLTI", 0xFC000000, 0x28000000, false, fun w => .slti (rsField w) (rtField w) (immField w)⟩,
  ⟨"SLTIU", 0xFC000000, 0x2C000000, false, fun w => .sltiu (rsField w) (rtField w) (immField w)⟩,
  ⟨"ANDI", 0xFC000000, 0x30000000, false, fun w => .andi (rsField w) (rtField w) (immField w)⟩,
  ⟨"ORI", 0xFC000000, 0x34000000, false, fun w => .ori (rsField w) (rtField w) (immField w)⟩,
  ⟨"XORI", 0xFC000000, 0x38000000, false, fun w => .xori (rsField w) (rtField w) (immField w)⟩,
  ⟨"LUI", 0xFFE00000, 0x3C000000, false, fun w => .lui (rtField w) (immField w)⟩,
  ⟨"SLL", 0xFFE0003F, 0x00000000, false, fun w => .sll (rtField w) (rdField w) (saField w)⟩,
  ⟨"SRL", 0xFFE0003F, 0x00000002, false, fun w => .srl (rtField w) (rdField w) (saField w)⟩,
  ⟨"SRA", 0xFFE0003F, 0x00000003, false, fun w => .sra (rtField w) (rdField w) (saField w)⟩,
  ⟨"SLLV", 0xFC0007FF, 0x00000004, false, fun w => .sllv (rsField w) (rtField w) (rdField w)⟩,
  ⟨"SRLV", 0xFC0007FF, 0x00000006, false, fun w => .srlv (rsField w) (rtField w) (rdField w)⟩,
  ⟨"SRAV", 0xFC0007FF, 0x00000007, false, fun w => .srav (rsField w) (rtField w) (rdField w)⟩,
  ⟨"MOVZ", 0xFC0007FF, 0x0000000A, false, fun w => .movz (rsField w) (rtField w) (rdField w)⟩,
  ⟨"MOVN", 0xFC0007FF, 0x0000000B, false, fun w => .movn (rsField w) (rtField w) (rdField w)⟩,
  ⟨"CLZ", 0xFC0007FF, 0x70000020, true, fun w => .clz (rsField w) (rtField w) (rdField w)⟩,
  ⟨"CLO", 0xFC0007FF, 0x70000021, true, fun w => .clo (rsField w) (rtField w) (rdField w)⟩]

/-- The load and store rows of R88. -/
def loadStoreRows : List Row := [
  ⟨"LB", 0xFC000000, 0x80000000, false, fun w => .lb (rsField w) (rtField w) (immField w)⟩,
  ⟨"LBU", 0xFC000000, 0x90000000, false, fun w => .lbu (rsField w) (rtField w) (immField w)⟩,
  ⟨"LH", 0xFC000000, 0x84000000, false, fun w => .lh (rsField w) (rtField w) (immField w)⟩,
  ⟨"LHU", 0xFC000000, 0x94000000, false, fun w => .lhu (rsField w) (rtField w) (immField w)⟩,
  ⟨"LW", 0xFC000000, 0x8C000000, false, fun w => .lw (rsField w) (rtField w) (immField w)⟩,
  ⟨"LWL", 0xFC000000, 0x88000000, false, fun w => .lwl (rsField w) (rtField w) (immField w)⟩,
  ⟨"LWR", 0xFC000000, 0x98000000, false, fun w => .lwr (rsField w) (rtField w) (immField w)⟩,
  ⟨"SB", 0xFC000000, 0xA0000000, false, fun w => .sb (rsField w) (rtField w) (immField w)⟩,
  ⟨"SH", 0xFC000000, 0xA4000000, false, fun w => .sh (rsField w) (rtField w) (immField w)⟩,
  ⟨"SW", 0xFC000000, 0xAC000000, false, fun w => .sw (rsField w) (rtField w) (immField w)⟩,
  ⟨"SWL", 0xFC000000, 0xA8000000, false, fun w => .swl (rsField w) (rtField w) (immField w)⟩,
  ⟨"SWR", 0xFC000000, 0xB8000000, false, fun w => .swr (rsField w) (rtField w) (immField w)⟩,
  ⟨"LL", 0xFC000000, 0xC0000000, false, fun w => .ll (rsField w) (rtField w) (immField w)⟩,
  ⟨"SC", 0xFC000000, 0xE0000000, false, fun w => .sc (rsField w) (rtField w) (immField w)⟩]

/-- The jump and branch rows of R88. -/
def branchRows : List Row := [
  ⟨"J", 0xFC000000, 0x08000000, false, fun w => .j (indexField w)⟩,
  ⟨"JAL", 0xFC000000, 0x0C000000, false, fun w => .jal (indexField w)⟩,
  ⟨"JR", 0xFC1FFFFF, 0x00000008, false, fun w => .jr (rsField w)⟩,
  ⟨"JALR", 0xFC1F07FF, 0x00000009, false, fun w => .jalr (rsField w) (rdField w)⟩,
  ⟨"BEQ", 0xFC000000, 0x10000000, false, fun w => .beq (rsField w) (rtField w) (immField w)⟩,
  ⟨"BNE", 0xFC000000, 0x14000000, false, fun w => .bne (rsField w) (rtField w) (immField w)⟩,
  ⟨"BLEZ", 0xFC1F0000, 0x18000000, false, fun w => .blez (rsField w) (immField w)⟩,
  ⟨"BGTZ", 0xFC1F0000, 0x1C000000, false, fun w => .bgtz (rsField w) (immField w)⟩,
  ⟨"BLTZ", 0xFC1F0000, 0x04000000, false, fun w => .bltz (rsField w) (immField w)⟩,
  ⟨"BGEZ", 0xFC1F0000, 0x04010000, false, fun w => .bgez (rsField w) (immField w)⟩,
  ⟨"BLTZAL", 0xFC1F0000, 0x04100000, false, fun w => .bltzal (rsField w) (immField w)⟩,
  ⟨"BGEZAL", 0xFC1F0000, 0x04110000, false, fun w => .bgezal (rsField w) (immField w)⟩]

/-- The multiply and divide rows of R88. -/
def mulDivRows : List Row := [
  ⟨"MULT", 0xFC00FFFF, 0x00000018, false, fun w => .mult (rsField w) (rtField w)⟩,
  ⟨"MULTU", 0xFC00FFFF, 0x00000019, false, fun w => .multu (rsField w) (rtField w)⟩,
  ⟨"DIV", 0xFC00FFFF, 0x0000001A, false, fun w => .div (rsField w) (rtField w)⟩,
  ⟨"DIVU", 0xFC00FFFF, 0x0000001B, false, fun w => .divu (rsField w) (rtField w)⟩,
  ⟨"MFHI", 0xFFFF07FF, 0x00000010, false, fun w => .mfhi (rdField w)⟩,
  ⟨"MFLO", 0xFFFF07FF, 0x00000012, false, fun w => .mflo (rdField w)⟩,
  ⟨"MTHI", 0xFC1FFFFF, 0x00000011, false, fun w => .mthi (rsField w)⟩,
  ⟨"MTLO", 0xFC1FFFFF, 0x00000013, false, fun w => .mtlo (rsField w)⟩,
  ⟨"MUL", 0xFC0007FF, 0x70000002, false, fun w => .mul (rsField w) (rtField w) (rdField w)⟩]

/-- The system rows of R88. -/
def systemRows : List Row := [
  ⟨"SYSCALL", 0xFC00003F, 0x0000000C, false, fun w => .syscall (codeField w)⟩,
  ⟨"SYNC", 0xFFFFF83F, 0x0000000F, false, fun w => .sync (saField w)⟩]

/-- The 65 rows of R88, in the table's order. -/
def opcodeTable : List Row :=
  arithRows ++ loadStoreRows ++ branchRows ++ mulDivRows ++ systemRows

/-! ### The decoder -/

/-- The instruction a word is, or none where it matches no row (R86); it reads no state. -/
def decodeWord (w : Word) : Option Instr :=
  (opcodeTable.find? (·.admits w)).map (·.build w)

/-- Why bytes are no instruction. -/
inductive DecodeError where
  /-- Fewer than the four bytes of an instruction (R80); who reads fetches a whole word, so no step
  meets this. -/
  | truncated (length : Nat)
  /-- The word matches no row of R88: UnsupportedInstruction (R90, 60_exceptions.md R245). -/
  | unsupported (insn : Word)
deriving DecidableEq, Repr

/-- The word whose bytes lie in memory in this order, the most significant first (20_memory.md R54,
R80). -/
def wordOfBytes (b0 b1 b2 b3 : Byte) : Word :=
  b0 ++ b1 ++ b2 ++ b3

/-- The bytes of a word in memory order (R54). -/
def bytesOfWord (w : Word) : List Byte :=
  [w.extractLsb' 24 8, w.extractLsb' 16 8, w.extractLsb' 8 8, w.extractLsb' 0 8]

/-- One instruction and the bytes after it, from any bytes: every instruction is four bytes (R80). -/
def decodeBytes : List Byte → Except DecodeError (Instr × List Byte)
  | b0 :: b1 :: b2 :: b3 :: rest =>
    match decodeWord (wordOfBytes b0 b1 b2 b3) with
    | some i => .ok (i, rest)
    | none => .error (.unsupported (wordOfBytes b0 b1 b2 b3))
  | short => .error (.truncated short.length)

/-- The instruction this decoder reads from an instruction word numbered as spec/opcode_table.json
numbers it (bit 0 least significant): the word is laid out as memory holds it and its bytes are
decoded. -/
def decodeTableWord (nbits w : Nat) : Option Instr :=
  match decodeBytes (bytesOfWord (BitVec.ofNat 32 (w % 2 ^ nbits))) with
  | .ok (i, _) => some i
  | .error _ => none

/-! ### The encoder -/

/-- The word of an instruction, from the patterns of R88. -/
def encode : Instr → Word
  | .add rs rt rd => rType 0x00 rs rt rd 0 0x20
  | .addu rs rt rd => rType 0x00 rs rt rd 0 0x21
  | .sub rs rt rd => rType 0x00 rs rt rd 0 0x22
  | .subu rs rt rd => rType 0x00 rs rt rd 0 0x23
  | .and rs rt rd => rType 0x00 rs rt rd 0 0x24
  | .or rs rt rd => rType 0x00 rs rt rd 0 0x25
  | .xor rs rt rd => rType 0x00 rs rt rd 0 0x26
  | .nor rs rt rd => rType 0x00 rs rt rd 0 0x27
  | .slt rs rt rd => rType 0x00 rs rt rd 0 0x2A
  | .sltu rs rt rd => rType 0x00 rs rt rd 0 0x2B
  | .addi rs rt imm => iType 0x08 rs rt imm
  | .addiu rs rt imm => iType 0x09 rs rt imm
  | .slti rs rt imm => iType 0x0A rs rt imm
  | .sltiu rs rt imm => iType 0x0B rs rt imm
  | .andi rs rt imm => iType 0x0C rs rt imm
  | .ori rs rt imm => iType 0x0D rs rt imm
  | .xori rs rt imm => iType 0x0E rs rt imm
  | .lui rt imm => iType 0x0F 0 rt imm
  | .sll rt rd sa => rType 0x00 0 rt rd sa 0x00
  | .srl rt rd sa => rType 0x00 0 rt rd sa 0x02
  | .sra rt rd sa => rType 0x00 0 rt rd sa 0x03
  | .sllv rs rt rd => rType 0x00 rs rt rd 0 0x04
  | .srlv rs rt rd => rType 0x00 rs rt rd 0 0x06
  | .srav rs rt rd => rType 0x00 rs rt rd 0 0x07
  | .movz rs rt rd => rType 0x00 rs rt rd 0 0x0A
  | .movn rs rt rd => rType 0x00 rs rt rd 0 0x0B
  | .clz rs rt rd => rType 0x1C rs rt rd 0 0x20
  | .clo rs rt rd => rType 0x1C rs rt rd 0 0x21
  | .lb base rt offset => iType 0x20 base rt offset
  | .lbu base rt offset => iType 0x24 base rt offset
  | .lh base rt offset => iType 0x21 base rt offset
  | .lhu base rt offset => iType 0x25 base rt offset
  | .lw base rt offset => iType 0x23 base rt offset
  | .lwl base rt offset => iType 0x22 base rt offset
  | .lwr base rt offset => iType 0x26 base rt offset
  | .sb base rt offset => iType 0x28 base rt offset
  | .sh base rt offset => iType 0x29 base rt offset
  | .sw base rt offset => iType 0x2B base rt offset
  | .swl base rt offset => iType 0x2A base rt offset
  | .swr base rt offset => iType 0x2E base rt offset
  | .ll base rt offset => iType 0x30 base rt offset
  | .sc base rt offset => iType 0x38 base rt offset
  | .j index => jType 0x02 index
  | .jal index => jType 0x03 index
  | .jr rs => rType 0x00 rs 0 0 0 0x08
  | .jalr rs rd => rType 0x00 rs 0 rd 0 0x09
  | .beq rs rt offset => iType 0x04 rs rt offset
  | .bne rs rt offset => iType 0x05 rs rt offset
  | .blez rs offset => iType 0x06 rs 0x00 offset
  | .bgtz rs offset => iType 0x07 rs 0x00 offset
  | .bltz rs offset => iType 0x01 rs 0x00 offset
  | .bgez rs offset => iType 0x01 rs 0x01 offset
  | .bltzal rs offset => iType 0x01 rs 0x10 offset
  | .bgezal rs offset => iType 0x01 rs 0x11 offset
  | .mult rs rt => rType 0x00 rs rt 0 0 0x18
  | .multu rs rt => rType 0x00 rs rt 0 0 0x19
  | .div rs rt => rType 0x00 rs rt 0 0 0x1A
  | .divu rs rt => rType 0x00 rs rt 0 0 0x1B
  | .mfhi rd => rType 0x00 0 0 rd 0 0x10
  | .mflo rd => rType 0x00 0 0 rd 0 0x12
  | .mthi rs => rType 0x00 rs 0 0 0 0x11
  | .mtlo rs => rType 0x00 rs 0 0 0 0x13
  | .mul rs rt rd => rType 0x1C rs rt rd 0 0x02
  | .syscall code => codeType 0x00 code 0x0C
  | .sync stype => rType 0x00 0 0 0 stype 0x0F

/-- The four bytes of an instruction, as memory holds them. -/
def encodeBytes (i : Instr) : List Byte :=
  bytesOfWord (encode i)

/-- The 12 instructions that transfer control (10_state.md R28). -/
def Instr.isBranch : Instr → Bool
  | .add _ _ _ => false
  | .addu _ _ _ => false
  | .sub _ _ _ => false
  | .subu _ _ _ => false
  | .and _ _ _ => false
  | .or _ _ _ => false
  | .xor _ _ _ => false
  | .nor _ _ _ => false
  | .slt _ _ _ => false
  | .sltu _ _ _ => false
  | .addi _ _ _ => false
  | .addiu _ _ _ => false
  | .slti _ _ _ => false
  | .sltiu _ _ _ => false
  | .andi _ _ _ => false
  | .ori _ _ _ => false
  | .xori _ _ _ => false
  | .lui _ _ => false
  | .sll _ _ _ => false
  | .srl _ _ _ => false
  | .sra _ _ _ => false
  | .sllv _ _ _ => false
  | .srlv _ _ _ => false
  | .srav _ _ _ => false
  | .movz _ _ _ => false
  | .movn _ _ _ => false
  | .clz _ _ _ => false
  | .clo _ _ _ => false
  | .lb _ _ _ => false
  | .lbu _ _ _ => false
  | .lh _ _ _ => false
  | .lhu _ _ _ => false
  | .lw _ _ _ => false
  | .lwl _ _ _ => false
  | .lwr _ _ _ => false
  | .sb _ _ _ => false
  | .sh _ _ _ => false
  | .sw _ _ _ => false
  | .swl _ _ _ => false
  | .swr _ _ _ => false
  | .ll _ _ _ => false
  | .sc _ _ _ => false
  | .j _ => true
  | .jal _ => true
  | .jr _ => true
  | .jalr _ _ => true
  | .beq _ _ _ => true
  | .bne _ _ _ => true
  | .blez _ _ => true
  | .bgtz _ _ => true
  | .bltz _ _ => true
  | .bgez _ _ => true
  | .bltzal _ _ => true
  | .bgezal _ _ => true
  | .mult _ _ => false
  | .multu _ _ => false
  | .div _ _ => false
  | .divu _ _ => false
  | .mfhi _ => false
  | .mflo _ => false
  | .mthi _ => false
  | .mtlo _ => false
  | .mul _ _ _ => false
  | .syscall _ => false
  | .sync _ => false

end Sys2Proof
end

