-- ==== Sys2Proof/Config.lean ====
section
/-! DEFINITION. What the spec leaves to the platform: the parameters of spec/00_scope.md R9, as plain
data, and the uninterpreted constants that stand for the values the spec withholds. -/

namespace Sys2Proof

/-- A stretch of `size` bytes from `base` that the memory port does not accept (R9 `MAPPED`). -/
structure Region where
  base : Nat
  size : Nat
deriving DecidableEq, Repr, Inhabited

/-- The parameters of R9, each under its own name.  They do not change during a run
(70_reset_and_hazards.md R298).  Log 1. -/
structure Params where
  /-- `PAGE_SIZE` -/
  pageSize : Nat
  /-- `BRK_VALUE` -/
  brkValue : Word
  /-- `HEAP_START` -/
  heapStart : Word
  /-- `HEAP_LIMIT` -/
  heapLimit : Word
  sysBrk : Word
  sysMmap : Word
  sysExit : Word
  sysFcntl : Word
  sysRead : Word
  sysWrite : Word
  fdStdin : Word
  fdStdout : Word
  fdStderr : Word
  fdHintRead : Word
  fdHintWrite : Word
  fdPreimageRead : Word
  fdPreimageWrite : Word
  /-- `F_GETFL` -/
  fGetfl : Word
  ebadf : Word
  einval : Word
  /-- `E_NOSYS` -/
  enosys : Word
  /-- `MAPPED`, by the stretches where it is false; none of them is the default (log 3). -/
  unmapped : List Region
  /-- `ORACLE` at the keys the platform lists; elsewhere it is `Config.oracle` (log 4). -/
  preimages : List (Key × List Byte)
  /-- `KEY_UPDATE` at the arguments the platform lists; elsewhere it is `Config.keyUpdate` (log 4). -/
  keyUpdates : List ((Key × List Byte) × Key)
deriving DecidableEq, Repr, Inhabited

namespace Params

/-- The six syscall numbers. -/
def syscallNumbers (p : Params) : List Word :=
  [p.sysBrk, p.sysMmap, p.sysExit, p.sysFcntl, p.sysRead, p.sysWrite]

/-- The seven descriptor numbers. -/
def descriptors (p : Params) : List Word :=
  [p.fdStdin, p.fdStdout, p.fdStderr, p.fdHintRead, p.fdHintWrite, p.fdPreimageRead,
   p.fdPreimageWrite]

/-- The constraints R9 puts on the parameters (the last column of its table).  That
`KEY_UPDATE(k, empty) = k` is built into `Params.keyUpdate`. -/
abbrev Valid (p : Params) : Prop :=
  (4 ≤ p.pageSize ∧ p.pageSize = 2 ^ p.pageSize.log2) ∧
  (p.heapStart.toNat % p.pageSize = 0 ∧ p.heapStart.toNat ≤ p.heapLimit.toNat) ∧
  p.syscallNumbers.Nodup ∧ p.descriptors.Nodup ∧
  (p.ebadf ≠ 0 ∧ p.einval ≠ 0 ∧ p.enosys ≠ 0)

/-- Some record that meets R9's constraints: it is here only because `Config.params` must be a valid
record whatever the unknown `Config.freeParams` is.  No statement can rest on its numbers. -/
def someValid : Params where
  pageSize := 4
  brkValue := 0
  heapStart := 0
  heapLimit := 0
  sysBrk := 0
  sysMmap := 1
  sysExit := 2
  sysFcntl := 3
  sysRead := 4
  sysWrite := 5
  fdStdin := 0
  fdStdout := 1
  fdStderr := 2
  fdHintRead := 3
  fdHintWrite := 4
  fdPreimageRead := 5
  fdPreimageWrite := 6
  fGetfl := 0
  ebadf := 1
  einval := 1
  enosys := 1
  unmapped := []
  preimages := []
  keyUpdates := []

end Params

namespace Config

/-- The numbers the source withholds ("must be taken from the authoritative protocol definition, not
invented"): unknown.  Log 2. -/
opaque freeParams : Params

/-- `ORACLE` (R9): a function from keys to byte strings of which nothing is known.  Log 4. -/
opaque oracle : Key → List Byte

/-- `KEY_UPDATE` (R9, 60_exceptions.md R277) for a non-empty chunk: nothing is known of it.  Log 4. -/
opaque keyUpdate : Key → List Byte → Key

/-- The 8-byte length prefix of a preimage of 2^64 bytes or more, which the spec does not state.
Log 5. -/
opaque overlongLengthBytes : Nat → Vector Byte 8

/-- The parameters of the machine after reset: unknown numbers that meet R9's constraints, the default
`MAPPED` (true everywhere), and `ORACLE` and `KEY_UPDATE` left wholly to the unknown functions. -/
def params : Params :=
  { if freeParams.Valid then freeParams else Params.someValid with
    unmapped := [], preimages := [], keyUpdates := [] }

end Config

/-- `ORACLE(k)`: total, and a function of the key (R9, 60_exceptions.md R244). -/
def Params.oracle (p : Params) (k : Key) : List Byte :=
  match p.preimages.lookup k with
  | some content => content
  | none => Config.oracle k

/-- `KEY_UPDATE(k, bytes)`, with the constraint `KEY_UPDATE(k, empty) = k` (R9, D33). -/
def Params.keyUpdate (p : Params) (k : Key) (bytes : List Byte) : Key :=
  if bytes = [] then k
  else match p.keyUpdates.lookup (k, bytes) with
    | some key => key
    | none => Config.keyUpdate k bytes

end Sys2Proof
end

