-- ==== Sys2Proof/Machine/State.lean ====
section
/-! DEFINITION. The Machine State (spec/10_state.md R20), the fatal errors (60_exceptions.md R245 to R253)
and the state after reset (R42, 70_reset_and_hazards.md R290). -/

namespace Sys2Proof.Machine

/-- Memory: the bytes that differ from 0, by address, addresses rising; an address not listed reads 0
(20_memory.md R50).  The form is `Memory.wf` (Machine/Ops.lean).  Log 6. -/
abbrev Memory := List Host.Cell

/-- The Machine State: the fields of R20 under their own names (`step` is `stepCount`, `memory` is
`mem`), and the parameters of 00_scope.md R9, which no step writes (log 1). -/
structure State where
  /-- `registers[0..31]`, R21 -/
  regs : Vector Word 32
  /-- R25 -/
  pc : Word
  /-- R26 -/
  nextPc : Word
  /-- R31 -/
  hi : Word
  /-- R31 -/
  lo : Word
  /-- R35 -/
  heap : Word
  /-- R34 -/
  exited : Bool
  /-- R34 -/
  exitCode : BitVec 8
  /-- `step`, R33 -/
  stepCount : BitVec 64
  /-- R36 -/
  preimageKey : Key
  /-- R36 -/
  preimageOffset : Word
  /-- R37 -/
  lastHint : List Byte
  /-- `memory`, R39 and 20_memory.md R50 -/
  mem : Memory
  /-- The parameters (00_scope.md R9): the model's field, not the spec's. -/
  params : Params
deriving DecidableEq, Repr

/-- The six fatal errors of a step (R253).  Each is the spec's own outcome: the state after the step is
the state before it (R243), and the host gets the cause and its `info`.  Safe: nothing runs on. -/
inductive Fault where
  /-- Raised by the decoder for a word that matches no row of 30_encoding.md R88, and by CLZ and CLO
  with `rt ≠ rd` (R245).  Safe. -/
  | unsupportedInstruction (insn : Word)
  /-- Raised at fetch when `pc` is not a multiple of 4 (R246), and by LH, LHU, SH, LW, SW, LL, SC when
  the address is not aligned to the access's width (R248).  Safe. -/
  | addressMisaligned (addr : Word)
  /-- Raised at fetch (R247), by every load and store (R248) and by the Syscall Layer's memory accesses
  (R282) where `MAPPED` is false for the word.  Safe. -/
  | addressUnmapped (addr : Word)
  /-- Raised by the 12 branches and jumps when `nextPc ≠ pc + 4` (R249).  Safe. -/
  | branchInDelaySlot (pc : Word)
  /-- Raised by ADD, ADDI and SUB when the exact result does not fit (R251).  Safe. -/
  | integerOverflow (insn : Word)
  /-- Raised by DIV and DIVU with a zero divisor (R252).  Safe. -/
  | divideByZero (insn : Word)
deriving DecidableEq, Repr

/-- Reasons the model has no answer.  No instruction of this model is refused. -/
inductive Refusal where
  /-- An instruction without a meaning yet; no arm of `exec` raises it.  Safe. -/
  | notModelled (mnemonic : String)
deriving DecidableEq, Repr

/-- What a step or an instruction answers. -/
abbrev Result := Host.Outcome State Fault Refusal

/-- The state right after reset (R42, R290): every register 0, `nextPc` 4, `heap` `HEAP_START`, memory
with nothing listed. -/
def State.reset : State where
  regs := Vector.replicate 32 0
  pc := 0x00000000
  nextPc := 0x00000004
  hi := 0
  lo := 0
  heap := Config.params.heapStart
  exited := false
  exitCode := 0
  stepCount := 0
  preimageKey := Vector.replicate 32 0
  preimageOffset := 0
  lastHint := []
  mem := []
  params := Config.params

end Sys2Proof.Machine
end

