-- ==== Sys2Proof/Machine/Flags.lean ====
section
/-! DEFINITION. The machine has no flags (spec/10_state.md R32): comparisons give register values and
signed overflow is a fatal error.  Here are the conditions those rules test. -/

namespace Sys2Proof.Machine

/-- `-2^31 ≤ t ≤ 2^31 - 1`: the exact result fits a signed word (40_arith_logic.md R111). -/
def fitsSigned (t : Int) : Bool := -2 ^ 31 ≤ t ∧ t ≤ 2 ^ 31 - 1

/-- The exact signed sum (R112, R122). -/
def signedSum (a b : Word) : Int := a.toInt + b.toInt

/-- The exact signed difference (R114). -/
def signedDiff (a b : Word) : Int := a.toInt - b.toInt

/-- `signed(a) < signed(b)` (00_scope.md R12 `<s`). -/
def lessSigned (a b : Word) : Bool := a.toInt < b.toInt

/-- `a <u b` (R12). -/
def lessUnsigned (a b : Word) : Bool := a.toNat < b.toNat

/-- The register value of a condition, 1 or 0 (40_arith_logic.md R120). -/
def truthWord (c : Bool) : Word := if c then 1#32 else 0#32

end Sys2Proof.Machine
end

