-- ==== Sys2Proof/Machine/Operands.lean ====
section
/-! DEFINITION. How operands are formed (spec/30_encoding.md R85; 41_load_store.md R150; 42_branch_jump.md
R182) and how the bytes of a word are taken and merged (20_memory.md R55; 41_load_store.md R157, R158,
R162, R163). -/

namespace Sys2Proof.Machine

/-! ### Immediates and amounts (R85) -/

/-- `sext_16`: the sign-extended immediate of ADDI, ADDIU, SLTI, SLTIU, and the offset of loads, stores
and branches (00_scope.md R13). -/
def sext16 (v : BitVec 16) : Word := v.signExtend 32

/-- `zext_16`: the zero-extended immediate of ANDI, ORI, XORI. -/
def zext16 (v : BitVec 16) : Word := v.setWidth 32

/-- `sext_8`. -/
def sext8 (v : Byte) : Word := v.signExtend 32

/-- `zext_8`. -/
def zext8 (v : Byte) : Word := v.setWidth 32

/-- The upper immediate of LUI, `imm ++ 0x0000`. -/
def upperImm (imm : BitVec 16) : Word := imm ++ 0#16

/-- The amount of SLLV, SRLV, SRAV: the low five bits, 0 to 31. -/
def shiftAmount (v : Word) : Nat := (v.extractLsb' 0 5).toNat

/-! ### Targets and the link value (R182) -/

/-- `branch_target`, from the branch's own address. -/
def branchTarget (pc : Word) (offset : BitVec 16) : Word := pc + 4#32 + (sext16 offset <<< 2)

/-- `jump_target`: the top four bits of the delay slot's address, then the index times 4. -/
def jumpTarget (pc : Word) (index : BitVec 26) : Word :=
  ((pc + 4#32) &&& 0xF0000000#32) ||| (index.setWidth 32 <<< 2)

/-- `link`: the address after the delay slot. -/
def linkAddr (pc : Word) : Word := pc + 8#32

/-! ### Addresses (R150) -/

/-- The aligned word `A` that holds the byte at `addr`. -/
def wordBase (addr : Word) : Word := addr &&& 0xFFFFFFFC#32

/-- `addr[1:0]`, the byte's position in its word, 0 the most significant. -/
def byteIndex (addr : Word) : Nat := (addr.extractLsb' 0 2).toNat

/-- `addr[1:0] = 0`. -/
def wordAligned (addr : Word) : Bool := addr.extractLsb' 0 2 == 0#2

/-- `addr[0] = 0`. -/
def halfAligned (addr : Word) : Bool := addr.extractLsb' 0 1 == 0#1

/-! ### Lanes of a word (R55, R58, R59) -/

/-- The byte lane at `addr` of its word `w`: `(w >> (24 - 8*addr[1:0]))[7:0]`. -/
def byteLane (w addr : Word) : Byte := (w >>> (24 - 8 * byteIndex addr)).setWidth 8

/-- The halfword lane at `addr` (even) of its word: `(w >> (16 - 8*addr[1:0]))[15:0]`. -/
def halfLane (w addr : Word) : BitVec 16 := (w >>> (16 - 8 * byteIndex addr)).setWidth 16

/-- `w` with the byte lane at `addr` replaced (R59). -/
def setByteLane (w addr : Word) (v : Byte) : Word :=
  let s := 24 - 8 * byteIndex addr
  (w &&& ~~~(0x000000FF#32 <<< s)) ||| (zext8 v <<< s)

/-- `w` with the halfword lane at `addr` (even) replaced (R59). -/
def setHalfLane (w addr : Word) (v : BitVec 16) : Word :=
  let s := 16 - 8 * byteIndex addr
  (w &&& ~~~(0x0000FFFF#32 <<< s)) ||| (zext16 v <<< s)

/-! ### Partial words (R157, R158, R162, R163)

`w` is the word in memory, `r` the register, `b` the byte index of the address. -/

/-- LWL: bytes `b..3` of `w` into the top of `r`. -/
def loadLeft (w r : Word) (b : Nat) : Word :=
  (w <<< (8 * b)) ||| (r &&& BitVec.ofNat 32 (2 ^ (8 * b) - 1))

/-- LWR: bytes `0..b` of `w` into the bottom of `r`. -/
def loadRight (w r : Word) (b : Nat) : Word :=
  let s := 8 * (3 - b)
  (r &&& ~~~(0xFFFFFFFF#32 >>> s)) ||| (w >>> s)

/-- SWL: the top bytes of `r` into bytes `b..3` of `w`. -/
def storeLeft (w r : Word) (b : Nat) : Word :=
  (w &&& ~~~(0xFFFFFFFF#32 >>> (8 * b))) ||| (r >>> (8 * b))

/-- SWR: the bottom bytes of `r` into bytes `0..b` of `w`. -/
def storeRight (w r : Word) (b : Nat) : Word :=
  let s := 8 * (3 - b)
  (w &&& ~~~(0xFFFFFFFF#32 <<< s)) ||| (r <<< s)

/-! ### Counting (40_arith_logic.md R138, R139) -/

/-- The loop of R138 and R139 over bits `i - 1` down to 0: the number of bits above the first bit equal
to `stop`, 32 when there is none. -/
def leadingFrom (v : Word) (stop : Bool) : Nat → Nat
  | 0 => 32
  | i + 1 => if v.getLsbD i = stop then 31 - i else leadingFrom v stop i

/-- Leading zeros, 0 to 32 (R138). -/
def leadingZeros (v : Word) : Word := BitVec.ofNat 32 (leadingFrom v true 32)

/-- Leading ones, 0 to 32 (R139). -/
def leadingOnes (v : Word) : Word := BitVec.ofNat 32 (leadingFrom v false 32)

end Sys2Proof.Machine
end

