-- ==== Sys2Proof/Machine/Ops.lean ====
section
/-! DEFINITION. The shared operations: registers, memory, the program counters, how a step ends in a fatal
error, and the fetch (spec/10_state.md, 20_memory.md, 60_exceptions.md). -/

namespace Sys2Proof.Machine

/-! ### Registers (10_state.md R14, R22, R23) -/

/-- `x[r]`: register 0 reads 0 whatever `registers[0]` holds (R22; log 7). -/
def State.reg (s : State) (r : RegNum) : Word :=
  if r = 0#5 then 0#32 else s.regs[r.toNat]'r.isLt

/-- `x[r] <- v`: a write to register 0 is discarded (R23). -/
def State.setReg (s : State) (r : RegNum) (v : Word) : State :=
  if r = 0#5 then s else { s with regs := s.regs.set r.toNat v r.isLt }

/-! ### The program counters (10_state.md R27, R28) -/

/-- `advance`: the sequential step of both counters. -/
def State.advance (s : State) : State :=
  { s with pc := s.nextPc, nextPc := s.nextPc + 4#32 }

/-- `transfer(target)`: the delay slot runs next, the target after it. -/
def State.transfer (s : State) (target : Word) : State :=
  { s with pc := s.nextPc, nextPc := target }

/-- `step <- step + 1`, part of every successful step (R17, R33; log 10). -/
def State.tick (s : State) : State :=
  { s with stepCount := s.stepCount + 1#64 }

/-! ### Memory as bytes (20_memory.md R50) -/

/-- The byte an address holds; 0 where nothing is listed. -/
def Memory.read : Memory → Nat → Byte
  | [], _ => 0#8
  | (k, v) :: rest, a => if k = a then v else Memory.read rest a

/-- `m` without any entry for `a`. -/
def Memory.erase (m : Memory) (a : Nat) : Memory := m.filter (fun c => c.1 != a)

/-- Put a cell in its place among rising addresses. -/
def Memory.insert (a : Nat) (b : Byte) : Memory → Memory
  | [] => [(a, b)]
  | (k, v) :: rest => if k < a then (k, v) :: Memory.insert a b rest else (a, b) :: (k, v) :: rest

/-- Store a byte, keeping the canonical form: storing 0 removes the entry. -/
def Memory.write (m : Memory) (a : Nat) (b : Byte) : Memory :=
  if b = 0#8 then m.erase a else (m.erase a).insert a b

/-- The canonical form: addresses strictly rising and inside the space, no entry 0.  Equal memories are
then equal lists. -/
def Memory.wf (m : Memory) : Bool :=
  decide (m.Pairwise (fun c d => c.1 < d.1)) && m.all (fun c => c.1 < 2 ^ 32 && c.2 != 0#8)

/-- `mem[a]` for a 32-bit address. -/
def Memory.byteAt (m : Memory) (a : Word) : Byte := m.read a.toNat

/-- The bytes `mem[u32(a + i)]` for `i` in `0 .. n - 1` (60_exceptions.md R278, R282: addresses wrap). -/
def Memory.readBytes (m : Memory) (a : Word) (n : Nat) : List Byte :=
  (List.range n).map (fun i => m.byteAt (a + BitVec.ofNat 32 i))

/-- `mem[u32(a + i)] <- bytes[i]` for each `i` in rising order (R70, R282). -/
def Memory.writeBytes (m : Memory) (a : Word) : List Byte → Memory
  | [] => m
  | b :: rest => Memory.writeBytes (m.write a.toNat b) (a + 1#32) rest

/-- `setRange(addr, bytes)`, the loader's placement (R70).  Past the top of the space the source says
nothing (91_not_in_source.md N9), and there is no answer.  Log 15. -/
def Memory.setRange (m : Memory) (a : Word) (bytes : List Byte) : Option Memory :=
  if a.toNat + bytes.length ≤ 2 ^ 32 then some (m.writeBytes a bytes) else none

/-! ### The word port (20_memory.md R51 to R54) -/

/-- `readWord(A)`, big-endian. -/
def Memory.readWord (m : Memory) (a : Word) : Word :=
  m.byteAt a ++ m.byteAt (a + 1#32) ++ m.byteAt (a + 2#32) ++ m.byteAt (a + 3#32)

/-- `writeWord(A, value)`, big-endian. -/
def Memory.writeWord (m : Memory) (a v : Word) : Memory :=
  m.writeBytes a [v.extractLsb' 24 8, v.extractLsb' 16 8, v.extractLsb' 8 8, v.extractLsb' 0 8]

/-! ### Mapped words (20_memory.md R60) -/

/-- `MAPPED(A)` for the word at `A`: no listed stretch holds it (log 3). -/
def State.mapped (s : State) (a : Word) : Bool :=
  !s.params.unmapped.any (fun r => r.base ≤ a.toNat && a.toNat < r.base + r.size)

/-- The first byte address, in list order, whose word is not mapped (60_exceptions.md R282). -/
def State.firstUnmapped (s : State) (addrs : List Word) : Option Word :=
  if s.params.unmapped.isEmpty then none else addrs.find? (fun a => !s.mapped (wordBase a))

/-! ### MemRead and MemWrite (20_memory.md R57, R58, R59): alignment first, then mapping -/

/-- `MemRead(addr, 4)`. -/
def State.memRead4 (s : State) (addr : Word) : Except Fault Word :=
  if !wordAligned addr then .error (.addressMisaligned addr)
  else if !s.mapped addr then .error (.addressUnmapped addr)
  else .ok (s.mem.readWord addr)

/-- `MemRead(addr, 2)`. -/
def State.memRead2 (s : State) (addr : Word) : Except Fault (BitVec 16) :=
  if !halfAligned addr then .error (.addressMisaligned addr)
  else if !s.mapped (wordBase addr) then .error (.addressUnmapped addr)
  else .ok (halfLane (s.mem.readWord (wordBase addr)) addr)

/-- `MemRead(addr, 1)`. -/
def State.memRead1 (s : State) (addr : Word) : Except Fault Byte :=
  if !s.mapped (wordBase addr) then .error (.addressUnmapped addr)
  else .ok (byteLane (s.mem.readWord (wordBase addr)) addr)

/-- The aligned word that holds `addr`, for LWL, LWR, SWL, SWR: never misaligned (R56). -/
def State.memReadPart (s : State) (addr : Word) : Except Fault Word :=
  if !s.mapped (wordBase addr) then .error (.addressUnmapped addr)
  else .ok (s.mem.readWord (wordBase addr))

/-- The state with the word at `A` replaced. -/
def State.storeWord (s : State) (a v : Word) : State :=
  { s with mem := s.mem.writeWord a v }

/-- `MemWrite(addr, 4, v)`. -/
def State.memWrite4 (s : State) (addr v : Word) : Except Fault State :=
  if !wordAligned addr then .error (.addressMisaligned addr)
  else if !s.mapped addr then .error (.addressUnmapped addr)
  else .ok (s.storeWord addr v)

/-- `MemWrite(addr, 2, v)`: read the word, replace the lane, write the word. -/
def State.memWrite2 (s : State) (addr : Word) (v : BitVec 16) : Except Fault State :=
  if !halfAligned addr then .error (.addressMisaligned addr)
  else if !s.mapped (wordBase addr) then .error (.addressUnmapped addr)
  else .ok (s.storeWord (wordBase addr) (setHalfLane (s.mem.readWord (wordBase addr)) addr v))

/-- `MemWrite(addr, 1, v)`. -/
def State.memWrite1 (s : State) (addr : Word) (v : Byte) : Except Fault State :=
  if !s.mapped (wordBase addr) then .error (.addressUnmapped addr)
  else .ok (s.storeWord (wordBase addr) (setByteLane (s.mem.readWord (wordBase addr)) addr v))

/-! ### Addressing (41_load_store.md R150) -/

/-- The one addressing mode: base register plus sign-extended offset, modulo 2^32. -/
def State.effAddr (s : State) (base : RegNum) (offset : BitVec 16) : Word :=
  s.reg base + sext16 offset

/-! ### Fatal errors (00_scope.md R16; 60_exceptions.md R243, R256)

This machine's one way of taking an exception: the step ends with the cause, nothing is saved and nothing
changes, so the state before the step is the state after it (log 8).  There is no return from it
(R258), and no vectored entry (R250). -/

/-- `raise <Cause>(info)`. -/
def raise (cause : Fault) : Result := .fault cause

/-- Go on with what a checked access gives, or raise what it found. -/
def orRaise {α : Type} (access : Except Fault α) (go : α → Result) : Result :=
  match access with
  | .error cause => raise cause
  | .ok v => go v

/-- The check every branch and jump begins with (42_branch_jump.md R181, R249). -/
def outsideDelaySlot (s : State) (go : Result) : Result :=
  if s.nextPc ≠ s.pc + 4#32 then raise (.branchInDelaySlot s.pc) else go

/-! ### The parts of a step (60_exceptions.md R241) -/

/-- Fetch: `readWord(pc)` after the checks of R246 and R247, which are those of `MemRead(pc, 4)`. -/
def State.fetch (s : State) : Except Fault Word := s.memRead4 s.pc

/-- Commit: a successful instruction also counts one step (R241 (5)). -/
def commit (r : Result) : Result :=
  match r with
  | .next t => .next t.tick
  | .fault cause => .fault cause
  | .refused why => .refused why

end Sys2Proof.Machine
end

