-- ==== Sys2Proof/Machine/Arith.lean ====
section
/-! DEFINITION. The arithmetic, logic, compare, shift, move and count instructions
(spec/40_arith_logic.md R110 to R139).  Every register read sees the state before the step, and each
instruction ends with `advance` (R110). -/

namespace Sys2Proof.Machine

/-- Write a register and go on: the common end of these instructions (R110 (b), (c)). -/
def writeAndAdvance (s : State) (d : RegNum) (v : Word) : Result :=
  .next (s.setReg d v).advance

/-- Write the exact result if it fits a signed word, else raise IntegerOverflow (R111).  The check does not
depend on the destination. -/
def writeUnlessOverflow (s : State) (i : Instr) (d : RegNum) (t : Int) : Result :=
  if fitsSigned t then writeAndAdvance s d (BitVec.ofInt 32 t)
  else raise (.integerOverflow (encode i))

/-! ### Three registers -/

/-- ADD: signed sum, fatal on overflow (R112). -/
def execAdd (rs rt rd : RegNum) (s : State) : Result :=
  writeUnlessOverflow s (.add rs rt rd) rd (signedSum (s.reg rs) (s.reg rt))

/-- ADDU: sum modulo 2^32 (R113). -/
def execAddu (rs rt rd : RegNum) (s : State) : Result :=
  writeAndAdvance s rd (s.reg rs + s.reg rt)

/-- SUB: signed difference, fatal on overflow (R114). -/
def execSub (rs rt rd : RegNum) (s : State) : Result :=
  writeUnlessOverflow s (.sub rs rt rd) rd (signedDiff (s.reg rs) (s.reg rt))

/-- SUBU: difference modulo 2^32 (R115). -/
def execSubu (rs rt rd : RegNum) (s : State) : Result :=
  writeAndAdvance s rd (s.reg rs - s.reg rt)

/-- AND (R116). -/
def execAnd (rs rt rd : RegNum) (s : State) : Result :=
  writeAndAdvance s rd (s.reg rs &&& s.reg rt)

/-- OR (R117). -/
def execOr (rs rt rd : RegNum) (s : State) : Result :=
  writeAndAdvance s rd (s.reg rs ||| s.reg rt)

/-- XOR (R118). -/
def execXor (rs rt rd : RegNum) (s : State) : Result :=
  writeAndAdvance s rd (s.reg rs ^^^ s.reg rt)

/-- NOR (R119). -/
def execNor (rs rt rd : RegNum) (s : State) : Result :=
  writeAndAdvance s rd (~~~(s.reg rs ||| s.reg rt))

/-- SLT: 1 if less, signed (R120). -/
def execSlt (rs rt rd : RegNum) (s : State) : Result :=
  writeAndAdvance s rd (truthWord (lessSigned (s.reg rs) (s.reg rt)))

/-- SLTU: 1 if less, unsigned (R121). -/
def execSltu (rs rt rd : RegNum) (s : State) : Result :=
  writeAndAdvance s rd (truthWord (lessUnsigned (s.reg rs) (s.reg rt)))

/-! ### Immediates -/

/-- ADDI: signed sum with the sign-extended immediate, fatal on overflow (R122). -/
def execAddi (rs rt : RegNum) (imm : BitVec 16) (s : State) : Result :=
  writeUnlessOverflow s (.addi rs rt imm) rt (signedSum (s.reg rs) (sext16 imm))

/-- ADDIU: sum with the sign-extended immediate, modulo 2^32 (R123). -/
def execAddiu (rs rt : RegNum) (imm : BitVec 16) (s : State) : Result :=
  writeAndAdvance s rt (s.reg rs + sext16 imm)

/-- SLTI: signed comparison with the sign-extended immediate (R124). -/
def execSlti (rs rt : RegNum) (imm : BitVec 16) (s : State) : Result :=
  writeAndAdvance s rt (truthWord (lessSigned (s.reg rs) (sext16 imm)))

/-- SLTIU: unsigned comparison with the sign-extended immediate (R125). -/
def execSltiu (rs rt : RegNum) (imm : BitVec 16) (s : State) : Result :=
  writeAndAdvance s rt (truthWord (lessUnsigned (s.reg rs) (sext16 imm)))

/-- ANDI (R126). -/
def execAndi (rs rt : RegNum) (imm : BitVec 16) (s : State) : Result :=
  writeAndAdvance s rt (s.reg rs &&& zext16 imm)

/-- ORI (R127). -/
def execOri (rs rt : RegNum) (imm : BitVec 16) (s : State) : Result :=
  writeAndAdvance s rt (s.reg rs ||| zext16 imm)

/-- XORI (R128). -/
def execXori (rs rt : RegNum) (imm : BitVec 16) (s : State) : Result :=
  writeAndAdvance s rt (s.reg rs ^^^ zext16 imm)

/-- LUI: the immediate in the upper half, zeros below (R129). -/
def execLui (rt : RegNum) (imm : BitVec 16) (s : State) : Result :=
  writeAndAdvance s rt (upperImm imm)

/-! ### Shifts -/

/-- SLL: left, zeros enter (R130). -/
def execSll (rt rd : RegNum) (sa : BitVec 5) (s : State) : Result :=
  writeAndAdvance s rd (s.reg rt <<< sa.toNat)

/-- SRL: right, zeros enter (R131). -/
def execSrl (rt rd : RegNum) (sa : BitVec 5) (s : State) : Result :=
  writeAndAdvance s rd (s.reg rt >>> sa.toNat)

/-- SRA: right, copies of bit 31 enter (R132). -/
def execSra (rt rd : RegNum) (sa : BitVec 5) (s : State) : Result :=
  writeAndAdvance s rd ((s.reg rt).sshiftRight sa.toNat)

/-- SLLV: the amount is the low five bits of `rs` (R133). -/
def execSllv (rs rt rd : RegNum) (s : State) : Result :=
  writeAndAdvance s rd (s.reg rt <<< shiftAmount (s.reg rs))

/-- SRLV: the amount is the low five bits of `rs` (R134). -/
def execSrlv (rs rt rd : RegNum) (s : State) : Result :=
  writeAndAdvance s rd (s.reg rt >>> shiftAmount (s.reg rs))

/-- SRAV: the amount is the low five bits of `rs` (R135). -/
def execSrav (rs rt rd : RegNum) (s : State) : Result :=
  writeAndAdvance s rd ((s.reg rt).sshiftRight (shiftAmount (s.reg rs)))

/-! ### Conditional moves -/

/-- MOVZ: move if `rt` is zero, else only advance (R136). -/
def execMovz (rs rt rd : RegNum) (s : State) : Result :=
  if s.reg rt = 0#32 then writeAndAdvance s rd (s.reg rs) else .next s.advance

/-- MOVN: move if `rt` is not zero, else only advance (R137). -/
def execMovn (rs rt rd : RegNum) (s : State) : Result :=
  if s.reg rt ≠ 0#32 then writeAndAdvance s rd (s.reg rs) else .next s.advance

/-! ### Counting

The decoder admits CLZ and CLO only with `rt = rd` (30_encoding.md R93); a term that breaks this is the
unsupported word R138 and R139 name (log 11). -/

/-- CLZ: leading zeros, 0 to 32 (R138). -/
def execClz (rs rt rd : RegNum) (s : State) : Result :=
  if rt = rd then writeAndAdvance s rd (leadingZeros (s.reg rs))
  else raise (.unsupportedInstruction (encode (.clz rs rt rd)))

/-- CLO: leading ones, 0 to 32 (R139). -/
def execClo (rs rt rd : RegNum) (s : State) : Result :=
  if rt = rd then writeAndAdvance s rd (leadingOnes (s.reg rs))
  else raise (.unsupportedInstruction (encode (.clo rs rt rd)))

end Sys2Proof.Machine
end

