-- ==== Sys2Proof/Machine/Branch.lean ====
section
/-! DEFINITION. The jumps and branches (spec/42_branch_jump.md R180 to R195).  Each begins with the
delay-slot check (R181), for a branch whether or not its condition holds, and has one delay slot (R180). -/

namespace Sys2Proof.Machine

/-- Take the branch or fall through (R187 to R194). -/
def State.branchIf (s : State) (taken : Bool) (target : Word) : State :=
  if taken then s.transfer target else s.advance

/-! ### Jumps -/

/-- J (R183). -/
def execJ (index : BitVec 26) (s : State) : Result :=
  outsideDelaySlot s (.next (s.transfer (jumpTarget s.pc index)))

/-- JAL: register 31 gets the link value (R184). -/
def execJal (index : BitVec 26) (s : State) : Result :=
  outsideDelaySlot s (.next ((s.setReg 31#5 (linkAddr s.pc)).transfer (jumpTarget s.pc index)))

/-- JR: the register as it is, no bit cleared (R185). -/
def execJr (rs : RegNum) (s : State) : Result :=
  outsideDelaySlot s (.next (s.transfer (s.reg rs)))

/-- JALR: `rs` is read before `rd` is written (R186). -/
def execJalr (rs rd : RegNum) (s : State) : Result :=
  outsideDelaySlot s (.next ((s.setReg rd (linkAddr s.pc)).transfer (s.reg rs)))

/-! ### Conditional branches -/

/-- BEQ: equal (R187). -/
def execBeq (rs rt : RegNum) (offset : BitVec 16) (s : State) : Result :=
  outsideDelaySlot s (.next (s.branchIf (s.reg rs == s.reg rt) (branchTarget s.pc offset)))

/-- BNE: not equal (R188). -/
def execBne (rs rt : RegNum) (offset : BitVec 16) (s : State) : Result :=
  outsideDelaySlot s (.next (s.branchIf (s.reg rs != s.reg rt) (branchTarget s.pc offset)))

/-- BLEZ: at most zero, signed (R189). -/
def execBlez (rs : RegNum) (offset : BitVec 16) (s : State) : Result :=
  outsideDelaySlot s (.next (s.branchIf ((s.reg rs).toInt ≤ 0) (branchTarget s.pc offset)))

/-- BGTZ: above zero, signed (R190). -/
def execBgtz (rs : RegNum) (offset : BitVec 16) (s : State) : Result :=
  outsideDelaySlot s (.next (s.branchIf ((s.reg rs).toInt > 0) (branchTarget s.pc offset)))

/-- BLTZ: below zero, signed (R191). -/
def execBltz (rs : RegNum) (offset : BitVec 16) (s : State) : Result :=
  outsideDelaySlot s (.next (s.branchIf ((s.reg rs).toInt < 0) (branchTarget s.pc offset)))

/-- BGEZ: at least zero, signed (R192). -/
def execBgez (rs : RegNum) (offset : BitVec 16) (s : State) : Result :=
  outsideDelaySlot s (.next (s.branchIf ((s.reg rs).toInt ≥ 0) (branchTarget s.pc offset)))

/-! ### Branch and link: the link is written whether or not the branch is taken, and `rs` is read first -/

/-- BLTZAL (R193). -/
def execBltzal (rs : RegNum) (offset : BitVec 16) (s : State) : Result :=
  outsideDelaySlot s (.next ((s.setReg 31#5 (linkAddr s.pc)).branchIf ((s.reg rs).toInt < 0)
    (branchTarget s.pc offset)))

/-- BGEZAL (R194). -/
def execBgezal (rs : RegNum) (offset : BitVec 16) (s : State) : Result :=
  outsideDelaySlot s (.next ((s.setReg 31#5 (linkAddr s.pc)).branchIf ((s.reg rs).toInt ≥ 0)
    (branchTarget s.pc offset)))

end Sys2Proof.Machine
end

