-- ==== Sys2Proof/Machine/LoadStore.lean ====
section
/-! DEFINITION. The load and store instructions (spec/41_load_store.md R150 to R165).  A failed check raises
and nothing changes; a load into register 0 still makes its checks (R151). -/

namespace Sys2Proof.Machine

/-! ### Loads -/

/-- LB: a byte, sign-extended (R152). -/
def execLb (base rt : RegNum) (offset : BitVec 16) (s : State) : Result :=
  orRaise (s.memRead1 (s.effAddr base offset)) fun v =>
    .next (s.setReg rt (sext8 v)).advance

/-- LBU: a byte, zero-extended (R153). -/
def execLbu (base rt : RegNum) (offset : BitVec 16) (s : State) : Result :=
  orRaise (s.memRead1 (s.effAddr base offset)) fun v =>
    .next (s.setReg rt (zext8 v)).advance

/-- LH: a halfword, sign-extended (R154). -/
def execLh (base rt : RegNum) (offset : BitVec 16) (s : State) : Result :=
  orRaise (s.memRead2 (s.effAddr base offset)) fun v =>
    .next (s.setReg rt (sext16 v)).advance

/-- LHU: a halfword, zero-extended (R155). -/
def execLhu (base rt : RegNum) (offset : BitVec 16) (s : State) : Result :=
  orRaise (s.memRead2 (s.effAddr base offset)) fun v =>
    .next (s.setReg rt (zext16 v)).advance

/-- LW: a word (R156). -/
def execLw (base rt : RegNum) (offset : BitVec 16) (s : State) : Result :=
  orRaise (s.memRead4 (s.effAddr base offset)) fun v =>
    .next (s.setReg rt v).advance

/-- LWL: the bytes from the addressed one to the end of its word into the top of `rt` (R157). -/
def execLwl (base rt : RegNum) (offset : BitVec 16) (s : State) : Result :=
  orRaise (s.memReadPart (s.effAddr base offset)) fun w =>
    .next (s.setReg rt (loadLeft w (s.reg rt) (byteIndex (s.effAddr base offset)))).advance

/-- LWR: the bytes from the start of the word to the addressed one into the bottom of `rt` (R158). -/
def execLwr (base rt : RegNum) (offset : BitVec 16) (s : State) : Result :=
  orRaise (s.memReadPart (s.effAddr base offset)) fun w =>
    .next (s.setReg rt (loadRight w (s.reg rt) (byteIndex (s.effAddr base offset)))).advance

/-! ### Stores -/

/-- SB: the low byte of `rt` (R159). -/
def execSb (base rt : RegNum) (offset : BitVec 16) (s : State) : Result :=
  orRaise (s.memWrite1 (s.effAddr base offset) ((s.reg rt).setWidth 8)) fun t => .next t.advance

/-- SH: the low halfword of `rt` (R160). -/
def execSh (base rt : RegNum) (offset : BitVec 16) (s : State) : Result :=
  orRaise (s.memWrite2 (s.effAddr base offset) ((s.reg rt).setWidth 16)) fun t => .next t.advance

/-- SW: `rt` (R161). -/
def execSw (base rt : RegNum) (offset : BitVec 16) (s : State) : Result :=
  orRaise (s.memWrite4 (s.effAddr base offset) (s.reg rt)) fun t => .next t.advance

/-- SWL: the top bytes of `rt` from the addressed byte to the end of its word (R162). -/
def execSwl (base rt : RegNum) (offset : BitVec 16) (s : State) : Result :=
  orRaise (s.memReadPart (s.effAddr base offset)) fun w =>
    .next (s.storeWord (wordBase (s.effAddr base offset))
      (storeLeft w (s.reg rt) (byteIndex (s.effAddr base offset)))).advance

/-- SWR: the bottom bytes of `rt` from the start of the word to the addressed byte (R163). -/
def execSwr (base rt : RegNum) (offset : BitVec 16) (s : State) : Result :=
  orRaise (s.memReadPart (s.effAddr base offset)) fun w =>
    .next (s.storeWord (wordBase (s.effAddr base offset))
      (storeRight w (s.reg rt) (byteIndex (s.effAddr base offset)))).advance

/-! ### Load linked and store conditional: no reservation exists (20_memory.md R68) -/

/-- LL: exactly as LW; it records nothing (R164). -/
def execLl (base rt : RegNum) (offset : BitVec 16) (s : State) : Result :=
  orRaise (s.memRead4 (s.effAddr base offset)) fun v =>
    .next (s.setReg rt v).advance

/-- SC: stores the old `rt` and reports success, always (R165). -/
def execSc (base rt : RegNum) (offset : BitVec 16) (s : State) : Result :=
  orRaise (s.memWrite4 (s.effAddr base offset) (s.reg rt)) fun t =>
    .next (t.setReg rt 1#32).advance

end Sys2Proof.Machine
end

