-- ==== Sys2Proof/Machine/MulDiv.lean ====
section
/-! DEFINITION. The multiply and divide instructions (spec/43_muldiv.md R210 to R219).  HI and LO hold the
result when the step ends; nothing runs on (R210). -/

namespace Sys2Proof.Machine

/-- Write HI and LO and go on. -/
def State.writeHiLo (s : State) (hi lo : Word) : State :=
  { s with hi := hi, lo := lo }

/-- MULT: the exact signed product, upper word in HI, lower in LO (R211). -/
def execMult (rs rt : RegNum) (s : State) : Result :=
  let p : Int := (s.reg rs).toInt * (s.reg rt).toInt
  .next (s.writeHiLo (BitVec.ofInt 32 (p.fdiv (2 ^ 32))) (BitVec.ofInt 32 p)).advance

/-- MULTU: the exact unsigned product (R212). -/
def execMultu (rs rt : RegNum) (s : State) : Result :=
  let p : Nat := (s.reg rs).toNat * (s.reg rt).toNat
  .next (s.writeHiLo (BitVec.ofNat 32 (p / 2 ^ 32)) (BitVec.ofNat 32 p)).advance

/-- DIV: quotient rounded toward zero in LO, remainder with the dividend's sign in HI; a zero divisor is
fatal (R213). -/
def execDiv (rs rt : RegNum) (s : State) : Result :=
  if s.reg rt = 0#32 then raise (.divideByZero (encode (.div rs rt)))
  else
    let a : Int := (s.reg rs).toInt
    let b : Int := (s.reg rt).toInt
    let q : Int := a.tdiv b
    .next (s.writeHiLo (BitVec.ofInt 32 (a - q * b)) (BitVec.ofInt 32 q)).advance

/-- DIVU: unsigned quotient in LO, remainder in HI; a zero divisor is fatal (R214). -/
def execDivu (rs rt : RegNum) (s : State) : Result :=
  if s.reg rt = 0#32 then raise (.divideByZero (encode (.divu rs rt)))
  else
    let a : Nat := (s.reg rs).toNat
    let b : Nat := (s.reg rt).toNat
    .next (s.writeHiLo (BitVec.ofNat 32 (a % b)) (BitVec.ofNat 32 (a / b))).advance

/-- MFHI (R215). -/
def execMfhi (rd : RegNum) (s : State) : Result :=
  .next (s.setReg rd s.hi).advance

/-- MFLO (R216). -/
def execMflo (rd : RegNum) (s : State) : Result :=
  .next (s.setReg rd s.lo).advance

/-- MTHI: LO keeps its value (R217, R210 (b)). -/
def execMthi (rs : RegNum) (s : State) : Result :=
  .next (s.writeHiLo (s.reg rs) s.lo).advance

/-- MTLO: HI keeps its value (R218, R210 (b)). -/
def execMtlo (rs : RegNum) (s : State) : Result :=
  .next (s.writeHiLo s.hi (s.reg rs)).advance

/-- MUL: the low word of the product in a general register; HI and LO keep their values (R219). -/
def execMul (rs rt rd : RegNum) (s : State) : Result :=
  .next (s.setReg rd (s.reg rs * s.reg rt)).advance

end Sys2Proof.Machine
end

