-- ==== Sys2Proof/Machine/SyscallLayer.lean ====
section
/-! DEFINITION. The Syscall Layer and the Preimage Oracle Protocol (spec/60_exceptions.md R270 to R283): what
each service answers and which bytes of memory it needs. -/

namespace Sys2Proof.Machine

/-- The fields besides registers 2 and 7 that a service may change (R230, R283). -/
structure LayerEffect where
  mem : Memory
  heap : Word
  preimageKey : Key
  preimageOffset : Word
  lastHint : List Byte
deriving DecidableEq, Repr

/-- The layer's answer (R270). -/
inductive SyscallResponse where
  /-- `Exit(code)` -/
  | exit (code : Word)
  /-- `Return(v0, a3, memory writes, field updates)` -/
  | ret (v0 a3 : Word) (effect : LayerEffect)
deriving DecidableEq, Repr

/-- The services: the rows of R283, the mapping rows as one. -/
inductive Service where
  | brk
  | mmap
  | exit
  | fcntl
  | readHint
  | readPreimage
  | readStdin
  | readOther
  | writeHint
  | writePreimage
  | writeStd
  | writeOther
  | unrecognized
deriving DecidableEq, Repr

/-- The fields as they are. -/
def State.noEffect (s : State) : LayerEffect where
  mem := s.mem
  heap := s.heap
  preimageKey := s.preimageKey
  preimageOffset := s.preimageOffset
  lastHint := s.lastHint

/-- `FAIL(e)`: all ones in register 2, the code in register 7, nothing else (section 8, R260). -/
def failWith (s : State) (e : Word) : SyscallResponse := .ret 0xFFFFFFFF#32 e s.noEffect

/-- A result with no error and no further effect. -/
def succeedWith (s : State) (v0 : Word) : SyscallResponse := .ret v0 0#32 s.noEffect

/-! ### Dispatch (R270, R275, R276).  R9 has the numbers of a table distinct, so the order does not matter
(log 12). -/

/-- Which read a descriptor gets (R275). -/
def readService (p : Params) (fd : Word) : Service :=
  if fd = p.fdHintRead then .readHint
  else if fd = p.fdPreimageRead then .readPreimage
  else if fd = p.fdStdin then .readStdin
  else .readOther

/-- Which write a descriptor gets (R276). -/
def writeService (p : Params) (fd : Word) : Service :=
  if fd = p.fdHintWrite then .writeHint
  else if fd = p.fdPreimageWrite then .writePreimage
  else if fd = p.fdStdout ∨ fd = p.fdStderr then .writeStd
  else .writeOther

/-- The service of a syscall number and first argument (R270). -/
def serviceOf (p : Params) (n a0 : Word) : Service :=
  if n = p.sysBrk then .brk
  else if n = p.sysMmap then .mmap
  else if n = p.sysExit then .exit
  else if n = p.sysFcntl then .fcntl
  else if n = p.sysRead then readService p a0
  else if n = p.sysWrite then writeService p a0
  else .unrecognized

/-! ### Anonymous mapping (R271) -/

/-- `align(S)`: the least multiple of the page size that is at least `S`, exact. -/
def alignUp (pageSize size : Nat) : Nat := (size + (pageSize - 1)) / pageSize * pageSize

/-- The mapping service. -/
def mmapService (s : State) (a0 a1 : Word) : SyscallResponse :=
  if a0 ≠ 0#32 then succeedWith s a0
  else
    let sz := alignUp s.params.pageSize a1.toNat
    let newHeap := s.heap.toNat + sz
    if sz ≥ 2 ^ 32 ∨ newHeap ≥ 2 ^ 32 ∨ newHeap > s.params.heapLimit.toNat then
      failWith s s.params.einval
    else .ret s.heap 0#32 { s.noEffect with heap := BitVec.ofNat 32 newHeap }

/-! ### File-descriptor control (R274): the command is tested first -/

/-- The descriptor-control service. -/
def fcntlService (s : State) (a0 a1 : Word) : SyscallResponse :=
  let p := s.params
  if a1 ≠ p.fGetfl then failWith s p.einval
  else if a0 = p.fdStdin ∨ a0 = p.fdPreimageRead ∨ a0 = p.fdHintRead then succeedWith s 0#32
  else if a0 = p.fdStdout ∨ a0 = p.fdStderr ∨ a0 = p.fdPreimageWrite ∨ a0 = p.fdHintWrite then
    succeedWith s 1#32
  else failWith s p.ebadf

/-! ### The preimage channel (R277, R279) -/

/-- Bytes up to the next word boundary: `4 - (a mod 4)`. -/
def toWordEnd (a : Word) : Nat := 4 - a.toNat % 4

/-- `be64(L)`, most significant byte first; a length of 2^64 or more has no 8-byte form and its prefix is
free (log 5). -/
def lengthBytes (n : Nat) : List Byte :=
  if n < 2 ^ 64 then
    let v := BitVec.ofNat 64 n
    [v.extractLsb' 56 8, v.extractLsb' 48 8, v.extractLsb' 40 8, v.extractLsb' 32 8,
     v.extractLsb' 24 8, v.extractLsb' 16 8, v.extractLsb' 8 8, v.extractLsb' 0 8]
  else (Config.overlongLengthBytes n).toList

/-- The active preimage's byte representation: length prefix, then content. -/
def State.preimageData (s : State) : List Byte :=
  let content := s.params.oracle s.preimageKey
  lengthBytes content.length ++ content

/-- How many bytes a preimage read of `a2` bytes at `a1` transfers. -/
def State.preimageReadCount (s : State) (a1 a2 : Word) : Nat :=
  min a2.toNat (min (toWordEnd a1) (s.preimageData.length - s.preimageOffset.toNat))

/-- The preimage-read service: the bytes go to `a1 ..`, the cursor moves by their number (log 18, log 20). -/
def preimageReadService (s : State) (a1 a2 : Word) : SyscallResponse :=
  let c := s.preimageReadCount a1 a2
  let bytes := (s.preimageData.drop s.preimageOffset.toNat).take c
  .ret (BitVec.ofNat 32 c) 0#32
    { s.noEffect with
      mem := s.mem.writeBytes a1 bytes
      preimageOffset := s.preimageOffset + BitVec.ofNat 32 c }

/-- How many bytes a preimage write of `a2` bytes at `a1` consumes. -/
def preimageWriteCount (a1 a2 : Word) : Nat := min a2.toNat (toWordEnd a1)

/-- The preimage-write service: a new key from the old one and the bytes, and the cursor back to 0, also when no
byte is consumed. -/
def preimageWriteService (s : State) (a1 a2 : Word) : SyscallResponse :=
  let c := preimageWriteCount a1 a2
  .ret (BitVec.ofNat 32 c) 0#32
    { s.noEffect with
      preimageKey := s.params.keyUpdate s.preimageKey (s.mem.readBytes a1 c)
      preimageOffset := 0#32 }

/-! ### The hint channel (R278) -/

/-- The hint-write service: the bytes become `lastHint`. -/
def hintWriteService (s : State) (a1 a2 : Word) : SyscallResponse :=
  .ret a2 0#32 { s.noEffect with lastHint := s.mem.readBytes a1 a2.toNat }

/-! ### The layer -/

/-- What a service answers (R271 to R281). -/
def respond (s : State) (a0 a1 a2 : Word) : Service → SyscallResponse
  | .brk => succeedWith s s.params.brkValue
  | .mmap => mmapService s a0 a1
  | .exit => .exit a0
  | .fcntl => fcntlService s a0 a1
  | .readHint => succeedWith s a2
  | .readPreimage => preimageReadService s a1 a2
  | .readStdin => succeedWith s 0#32
  | .readOther => failWith s s.params.ebadf
  | .writeHint => hintWriteService s a1 a2
  | .writePreimage => preimageWriteService s a1 a2
  | .writeStd => succeedWith s a2
  | .writeOther => failWith s s.params.ebadf
  | .unrecognized => failWith s s.params.enosys

/-- How many bytes from `a1` on a service reads or writes in memory (R277 to R280, R283). -/
def bufferLength (s : State) (a1 a2 : Word) : Service → Nat
  | .readPreimage => s.preimageReadCount a1 a2
  | .writePreimage => preimageWriteCount a1 a2
  | .writeHint => a2.toNat
  | .brk => 0
  | .mmap => 0
  | .exit => 0
  | .fcntl => 0
  | .readHint => 0
  | .readStdin => 0
  | .readOther => 0
  | .writeStd => 0
  | .writeOther => 0
  | .unrecognized => 0

/-- The byte addresses `u32(a + i)`, in index order (R282). -/
def byteAddrs (a : Word) (n : Nat) : List Word :=
  (List.range n).map (fun i => a + BitVec.ofNat 32 i)

/-- The service the state's registers ask for. -/
def State.service (s : State) : Service := serviceOf s.params (s.reg 2#5) (s.reg 4#5)

/-- The layer's answer to the state's registers (R270). -/
def State.syscallResponse (s : State) : SyscallResponse :=
  respond s (s.reg 4#5) (s.reg 5#5) (s.reg 6#5) s.service

/-- The byte addresses the call needs, in index order (R282). -/
def State.syscallBytes (s : State) : List Word :=
  byteAddrs (s.reg 5#5) (bufferLength s (s.reg 5#5) (s.reg 6#5) s.service)

/-- Commit the layer's answer (44_system.md R230): exit writes neither register 2 nor 7. -/
def State.apply (s : State) : SyscallResponse → State
  | .exit code => { s with exited := true, exitCode := code.setWidth 8 }
  | .ret v0 a3 e =>
    { (s.setReg 2#5 v0).setReg 7#5 a3 with
      mem := e.mem, heap := e.heap, preimageKey := e.preimageKey,
      preimageOffset := e.preimageOffset, lastHint := e.lastHint }

end Sys2Proof.Machine
end

