-- ==== Sys2Proof/Machine/System.lean ====
section
/-! DEFINITION. The system instructions (spec/44_system.md R230, R231). -/

namespace Sys2Proof.Machine

/-- SYSCALL: the layer's whole call happens inside the step (R230, 60_exceptions.md R257).  A word it needs that
is not mapped makes the step fatal (R282); `code` is ignored. -/
def execSyscall (_code : BitVec 20) (s : State) : Result :=
  match s.firstUnmapped s.syscallBytes with
  | some addr => raise (.addressUnmapped addr)
  | none => .next (s.apply s.syscallResponse).advance

/-- SYNC: nothing to order; `stype` is ignored (R231, 20_memory.md R67). -/
def execSync (_stype : BitVec 5) (s : State) : Result :=
  .next s.advance

end Sys2Proof.Machine
end

