-- ==== Sys2Proof/Machine/Step.lean ====
section
/-! DEFINITION. The step (spec/60_exceptions.md R240 to R243, R254). -/

namespace Sys2Proof.Machine

/-- One call of the step port, its parts in R241's order: an exited machine answers itself unchanged (R242);
then fetch, decode, execute and commit. -/
def step (s : State) : Host.Outcome State Fault Refusal :=
  if s.exited then .next s
  else match s.fetch with
    | .error cause => raise cause
    | .ok insn => match decodeWord insn with
      | none => raise (.unsupportedInstruction insn)
      | some i => commit (exec i s)

/-- `s` with the instruction word `w` at `pc`, where the next step fetches: the loader's placement of one
word (70_reset_and_hazards.md R294; log 14). -/
def State.withFetchWord (s : State) (nbits w : Nat) : State :=
  { s with mem := s.mem.writeWord s.pc (BitVec.ofNat 32 (w % 2 ^ nbits)) }

end Sys2Proof.Machine
end

