-- ==== Sys2Proof/Machine/Accesses.lean ====
section
/-! DEFINITION. The memory words one step touches, and their order (spec/20_memory.md R62): what the core exposes
to the Step Witness beside the state (93_implementation_defined.md U15).  It is read off the state and
changes nothing. -/

namespace Sys2Proof.Machine

/-- One transaction at the word port (R51). -/
inductive Access where
  | read (word : Word)
  | write (word : Word)
deriving DecidableEq, Repr

/-- The words that hold these bytes, in the order they are first met. -/
def wordsOf (addrs : List Word) : List Word := (addrs.map wordBase).eraseDups

/-- The accesses of a SYSCALL's service (R62; 60_exceptions.md R277 to R280): a preimage read is one
read-modify-write of one word, none if no byte moves; a preimage write reads one word; a hint write
reads the words of its buffer. -/
def State.layerAccesses (s : State) : List Access :=
  let words := wordsOf s.syscallBytes
  match s.service with
  | .readPreimage => words.flatMap (fun a => [.read a, .write a])
  | .writePreimage | .writeHint => words.map .read
  | .brk | .mmap | .exit | .fcntl | .readHint | .readStdin | .readOther | .writeStd | .writeOther
  | .unrecognized => []

/-- The data accesses of an instruction that succeeds: a load reads its word, a narrow or partial store reads and
writes it, SW and SC only write it (R59, D26). -/
def State.dataAccesses (s : State) : Instr → List Access
  | .lb base _ offset | .lbu base _ offset | .lh base _ offset | .lhu base _ offset
  | .lw base _ offset | .lwl base _ offset | .lwr base _ offset | .ll base _ offset =>
    [.read (wordBase (s.effAddr base offset))]
  | .sb base _ offset | .sh base _ offset | .swl base _ offset | .swr base _ offset =>
    [.read (wordBase (s.effAddr base offset)), .write (wordBase (s.effAddr base offset))]
  | .sw base _ offset | .sc base _ offset =>
    [.write (wordBase (s.effAddr base offset))]
  | .syscall _ => s.layerAccesses
  | .add _ _ _ | .addu _ _ _ | .sub _ _ _ | .subu _ _ _ | .and _ _ _ | .or _ _ _ | .xor _ _ _
  | .nor _ _ _ | .slt _ _ _ | .sltu _ _ _ | .addi _ _ _ | .addiu _ _ _ | .slti _ _ _
  | .sltiu _ _ _ | .andi _ _ _ | .ori _ _ _ | .xori _ _ _ | .lui _ _ | .sll _ _ _ | .srl _ _ _
  | .sra _ _ _ | .sllv _ _ _ | .srlv _ _ _ | .srav _ _ _ | .movz _ _ _ | .movn _ _ _ | .clz _ _ _
  | .clo _ _ _ | .j _ | .jal _ | .jr _ | .jalr _ _ | .beq _ _ _ | .bne _ _ _ | .blez _ _
  | .bgtz _ _ | .bltz _ _ | .bgez _ _ | .bltzal _ _ | .bgezal _ _ | .mult _ _ | .multu _ _
  | .div _ _ | .divu _ _ | .mfhi _ | .mflo _ | .mthi _ | .mtlo _ | .mul _ _ _ | .sync _ => []

/-- The accesses of a successful step that runs `i`: the fetch, then the data (R62). -/
def State.accesses (s : State) (i : Instr) : List Access := .read s.pc :: s.dataAccesses i

end Sys2Proof.Machine
end

