-- ==== Sys2Proof/Machine/Loader.lean ====
section
/-! DEFINITION. What the loader does between steps (spec/70_reset_and_hazards.md R292 to R294; 20_memory.md R70).
The loader is outside the core: no step calls these. -/

namespace Sys2Proof.Machine

/-- The program's entry: `pc <- E`, `nextPc <- E + 4` (R293). -/
def State.launch (s : State) (entry : Word) : State :=
  { s with pc := entry, nextPc := entry + 4#32 }

/-- Place the program image or its data with `setRange` (R294, R70). -/
def State.place (s : State) (addr : Word) (bytes : List Byte) : Option State :=
  (s.mem.setRange addr bytes).map (fun m => { s with mem := m })

end Sys2Proof.Machine
end

