-- ==== Sys2Proof/Safety.lean ====
section
/-! DEFINITION. The terms statements are made in: what a step runs, what the host sees after it, the launch
premises and the invariant (spec/60_exceptions.md, 70_reset_and_hazards.md). -/

namespace Sys2Proof.Machine

/-- The spec's label of a fatal error (60_exceptions.md R253). -/
def Fault.code : Fault → Nat
  | .unsupportedInstruction _ => 1
  | .addressMisaligned _ => 2
  | .addressUnmapped _ => 3
  | .branchInDelaySlot _ => 4
  | .integerOverflow _ => 5
  | .divideByZero _ => 6

/-- The state after a call of the step port, as the host sees it: the new state, or after a fatal error the
state from before (60_exceptions.md R240, R243, R256; log 8). -/
def State.after (s : State) : State :=
  match step s with
  | .next t => t
  | .fault _ => s
  | .refused _ => s

/-- The step of `s` executes `i`: the machine has not exited, and the word at `pc` is fetched and is `i`. -/
def State.Executes (s : State) (i : Instr) : Prop :=
  s.exited = false ∧ ∃ insn, s.fetch = .ok insn ∧ decodeWord insn = some i

/-- The instruction at `pc` stands in the delay slot of a transfer that was taken elsewhere
(42_branch_jump.md R181). -/
def State.inDelaySlot (s : State) : Bool := s.nextPc != s.pc + 4#32

/-- The invariant: memory is in its canonical form, and `registers[0]` holds 0 (70_reset_and_hazards.md
R297 (a)). -/
abbrev State.Inv (s : State) : Prop := s.mem.wf = true ∧ s.regs[0] = 0#32

/-- The word at `pc` is a branch or jump. -/
def State.branchAtPc (s : State) : Bool := (decodeWord (s.mem.readWord s.pc)).any (·.isBranch)

/-- The launch premises (70_reset_and_hazards.md R296): `nextPc` may be any word where the instruction at `pc` is
no branch or jump. -/
abbrev State.LaunchPremises (s : State) : Prop :=
  s.regs[0] = 0#32 ∧ wordAligned s.pc = true ∧ (s.nextPc = s.pc + 4#32 ∨ s.branchAtPc = false) ∧
  s.exited = false ∧ s.params.Valid

/-- A safe step: the step answers a state and raises none of the six fatal errors. -/
def State.StepsSafely (s : State) : Prop := ∃ t, step s = .next t

/-! ### What statements say of a next state

Each says what one part of the state is after an instruction, through what a program or the host can read.
The counter is among what an instruction keeps: the step's commit adds to it (60_exceptions.md R241). -/

/-- Register `d` holds `v`, unless it is register 0; every other register and `registers[0]` are kept
(10_state.md R22, R23). -/
def State.RegWritten (s t : State) (d : RegNum) (v : Word) : Prop :=
  (∀ r : RegNum, t.reg r = if r = d ∧ d ≠ 0#5 then v else s.reg r) ∧ t.regs[0] = s.regs[0]

/-- Every register is kept. -/
def State.RegsKept (s t : State) : Prop :=
  (∀ r : RegNum, t.reg r = s.reg r) ∧ t.regs[0] = s.regs[0]

/-- HI and LO are kept. -/
def State.HiLoKept (s t : State) : Prop := t.hi = s.hi ∧ t.lo = s.lo

/-- Every byte of memory is kept. -/
def State.MemKept (s t : State) : Prop := ∀ x : Word, t.mem.byteAt x = s.mem.byteAt x

/-- From `a` on memory holds `bytes` (addresses wrap), and every byte outside them is kept. -/
def State.BytesStored (s t : State) (a : Word) (bytes : List Byte) : Prop :=
  (∀ k (h : k < bytes.length), t.mem.byteAt (a + BitVec.ofNat 32 k) = bytes[k]) ∧
  ∀ x : Word, bytes.length ≤ (x - a).toNat → t.mem.byteAt x = s.mem.byteAt x

/-- The preimage key and cursor are kept. -/
def State.CursorKept (s t : State) : Prop :=
  t.preimageKey = s.preimageKey ∧ t.preimageOffset = s.preimageOffset

/-- The fields no Syscall Layer service but termination writes, and those no service writes. -/
def State.RunKept (s t : State) : Prop :=
  t.exited = s.exited ∧ t.exitCode = s.exitCode ∧ t.stepCount = s.stepCount ∧ t.params = s.params

/-- Every field besides registers, HI, LO, memory and the program counters is kept. -/
def State.SystemKept (s t : State) : Prop :=
  t.heap = s.heap ∧ t.lastHint = s.lastHint ∧ s.CursorKept t ∧ s.RunKept t

/-- Both program counters moved on sequentially (10_state.md R27). -/
def State.Advanced (s t : State) : Prop := t.pc = s.nextPc ∧ t.nextPc = s.nextPc + 4#32

/-- Only register `d` is written, with `v`. -/
def State.OnlyRegister (s t : State) (d : RegNum) (v : Word) : Prop :=
  s.RegWritten t d v ∧ s.HiLoKept t ∧ s.MemKept t ∧ s.SystemKept t ∧ s.Advanced t

/-- Only HI and LO are written. -/
def State.OnlyHiLo (s t : State) (hi lo : Word) : Prop :=
  t.hi = hi ∧ t.lo = lo ∧ s.RegsKept t ∧ s.MemKept t ∧ s.SystemKept t ∧ s.Advanced t

/-- Only the bytes from `a` on are written. -/
def State.OnlyStore (s t : State) (a : Word) (bytes : List Byte) : Prop :=
  s.BytesStored t a bytes ∧ s.RegsKept t ∧ s.HiLoKept t ∧ s.SystemKept t ∧ s.Advanced t

/-- Only the program counters move: the delay slot is next and `target` after it (10_state.md R28). -/
def State.OnlyTransfer (s t : State) (target : Word) : Prop :=
  t.pc = s.nextPc ∧ t.nextPc = target ∧ s.RegsKept t ∧ s.HiLoKept t ∧ s.MemKept t ∧ s.SystemKept t

/-- As `OnlyTransfer`, and register `d` holds the link value, the address after the delay slot. -/
def State.OnlyLink (s t : State) (d : RegNum) (target : Word) : Prop :=
  t.pc = s.nextPc ∧ t.nextPc = target ∧ s.RegWritten t d (s.pc + 8#32) ∧ s.HiLoKept t ∧
  s.MemKept t ∧ s.SystemKept t

/-- A SYSCALL returned `v0` and `a3` in registers 2 and 7; whatever else its service changes, these are
kept (44_system.md R230). -/
def State.Returned (s t : State) (v0 a3 : Word) : Prop :=
  t.reg 2#5 = v0 ∧ t.reg 7#5 = a3 ∧ (∀ r : RegNum, r ≠ 2#5 → r ≠ 7#5 → t.reg r = s.reg r) ∧
  t.regs[0] = s.regs[0] ∧ s.HiLoKept t ∧ s.RunKept t ∧ s.Advanced t

/-- A SYSCALL returned and its service changed nothing else. -/
def State.OnlyReturned (s t : State) (v0 a3 : Word) : Prop :=
  s.Returned t v0 a3 ∧ s.MemKept t ∧ t.heap = s.heap ∧ s.CursorKept t ∧ t.lastHint = s.lastHint

/-- How an instruction that makes one data access at `addr` ends: alignment is checked, then mapping
(41_load_store.md R151, 60_exceptions.md R248); past both it answers a state as `done` says. -/
def State.AccessEnds (s : State) (i : Instr) (addr : Word) (aligned : Prop) (done : State → Prop) :
    Prop :=
  (¬aligned → exec i s = .fault (.addressMisaligned addr)) ∧
  (aligned → s.mapped (wordBase addr) = false → exec i s = .fault (.addressUnmapped addr)) ∧
  (aligned → s.mapped (wordBase addr) = true → ∃ t, exec i s = .next t ∧ done t)

/-- How a branch or jump ends: the delay-slot check (42_branch_jump.md R181), and past it a state as `done`
says. -/
def State.TransferEnds (s : State) (i : Instr) (done : State → Prop) : Prop :=
  (s.nextPc ≠ s.pc + 4#32 → exec i s = .fault (.branchInDelaySlot s.pc)) ∧
  (s.nextPc = s.pc + 4#32 → ∃ t, exec i s = .next t ∧ done t)

/-- Byte `k` of a word in memory order, 0 the most significant (20_memory.md R54). -/
def byteOf (v : Word) (k : Nat) : Byte := v.extractLsb' (24 - 8 * k) 8

/-- The target of a branch at `pc`: its offset counts words from the delay slot (42_branch_jump.md R182). -/
def branchAddress (pc : Word) (offset : BitVec 16) : Word :=
  BitVec.ofInt 32 (pc.toNat + 4 + 4 * offset.toInt)

/-- The target of a jump at `pc`: the delay slot's 256 MB region, and the index in words (R182). -/
def jumpAddress (pc : Word) (index : BitVec 26) : Word :=
  BitVec.ofNat 32 ((pc + 4#32).toNat / 2 ^ 28 * 2 ^ 28 + 4 * index.toNat)

/-- `w` is the word of `i`, for the decoder and for the encoder. -/
def IsWordOf (w : Word) (i : Instr) : Prop := decodeWord w = some i ∧ encode i = w

/-- The execute-stage raise of each instruction, `insn` its word (60_exceptions.md R254 (5)). -/
def State.Raises (s : State) (insn : Word) (f : Fault) : Instr → Prop
  | .add rs rt _ =>
    ¬(-2 ^ 31 ≤ (s.reg rs).toInt + (s.reg rt).toInt ∧ (s.reg rs).toInt + (s.reg rt).toInt < 2 ^ 31) ∧
      f = .integerOverflow insn
  | .sub rs rt _ =>
    ¬(-2 ^ 31 ≤ (s.reg rs).toInt - (s.reg rt).toInt ∧ (s.reg rs).toInt - (s.reg rt).toInt < 2 ^ 31) ∧
      f = .integerOverflow insn
  | .addi rs _ imm =>
    ¬(-2 ^ 31 ≤ (s.reg rs).toInt + imm.toInt ∧ (s.reg rs).toInt + imm.toInt < 2 ^ 31) ∧
      f = .integerOverflow insn
  | .div _ rt | .divu _ rt => s.reg rt = 0#32 ∧ f = .divideByZero insn
  | .lw base _ offset | .ll base _ offset | .sw base _ offset | .sc base _ offset =>
    let addr := s.effAddr base offset
    (addr.toNat % 4 ≠ 0 ∧ f = .addressMisaligned addr) ∨
      (addr.toNat % 4 = 0 ∧ s.mapped (wordBase addr) = false ∧ f = .addressUnmapped addr)
  | .lh base _ offset | .lhu base _ offset | .sh base _ offset =>
    let addr := s.effAddr base offset
    (addr.toNat % 2 ≠ 0 ∧ f = .addressMisaligned addr) ∨
      (addr.toNat % 2 = 0 ∧ s.mapped (wordBase addr) = false ∧ f = .addressUnmapped addr)
  | .lb base _ offset | .lbu base _ offset | .sb base _ offset | .lwl base _ offset
  | .lwr base _ offset | .swl base _ offset | .swr base _ offset =>
    s.mapped (wordBase (s.effAddr base offset)) = false ∧ f = .addressUnmapped (s.effAddr base offset)
  | .j _ | .jal _ | .jr _ | .jalr _ _ | .beq _ _ _ | .bne _ _ _ | .blez _ _ | .bgtz _ _ | .bltz _ _
  | .bgez _ _ | .bltzal _ _ | .bgezal _ _ => s.nextPc ≠ s.pc + 4#32 ∧ f = .branchInDelaySlot s.pc
  | .syscall _ =>
    ∃ k, k < bufferLength s (s.reg 5#5) (s.reg 6#5) s.service ∧
      (∀ j < k, s.mapped (wordBase (s.reg 5#5 + BitVec.ofNat 32 j)) = true) ∧
      s.mapped (wordBase (s.reg 5#5 + BitVec.ofNat 32 k)) = false ∧
      f = .addressUnmapped (s.reg 5#5 + BitVec.ofNat 32 k)
  | .addu _ _ _ | .subu _ _ _ | .and _ _ _ | .or _ _ _ | .xor _ _ _ | .nor _ _ _ | .slt _ _ _
  | .sltu _ _ _ | .addiu _ _ _ | .slti _ _ _ | .sltiu _ _ _ | .andi _ _ _ | .ori _ _ _ | .xori _ _ _
  | .lui _ _ | .sll _ _ _ | .srl _ _ _ | .sra _ _ _ | .sllv _ _ _ | .srlv _ _ _ | .srav _ _ _
  | .movz _ _ _ | .movn _ _ _ | .clz _ _ _ | .clo _ _ _ | .mult _ _ | .multu _ _ | .mfhi _ | .mflo _
  | .mthi _ | .mtlo _ | .mul _ _ _ | .sync _ => False

/-- The fatal error of a step (60_exceptions.md R253, R254): the first condition met, in the order the step
does its work. -/
def State.StepRaises (s : State) (f : Fault) : Prop :=
  let insn := s.mem.readWord s.pc
  s.exited = false ∧
  ((s.pc.toNat % 4 ≠ 0 ∧ f = .addressMisaligned s.pc) ∨
   (s.pc.toNat % 4 = 0 ∧ s.mapped s.pc = false ∧ f = .addressUnmapped s.pc) ∨
   (s.pc.toNat % 4 = 0 ∧ s.mapped s.pc = true ∧
     ((decodeWord insn = none ∧ f = .unsupportedInstruction insn) ∨
      ∃ i, decodeWord insn = some i ∧ s.Raises insn f i)))

end Sys2Proof.Machine
end

