-- ==== Sys2Proof/Certificates/Slice0/Obligations.lean ====
section
/-! DEFINITION. The statements about this model, for the provers.  Each docstring names the rules of spec/ it
comes from, and the spec's decisions (92_eei_decisions.md D<n>) or the log entries it rests on. -/

section
open Sys2Proof Sys2Proof.Machine

/-! ### State, reset and the whole machine -/

/-- What reset leaves (10_state.md R42, 70_reset_and_hazards.md R290: the spec's decision D22).  `heap` is
the parameter `HEAP_START`.  That the parameters meet R9's constraints is the model's choice (log 2), and
that every word is mapped at reset is the model's choice too (log 3), the default of the spec's decision
D14. -/
def Obligations.ResetLeavesEveryFieldDefined : Prop :=
  (∀ r : RegNum, State.reset.reg r = 0#32) ∧ State.reset.regs[0] = 0#32 ∧
  State.reset.pc = 0x00000000#32 ∧ State.reset.nextPc = 0x00000004#32 ∧
  State.reset.hi = 0#32 ∧ State.reset.lo = 0#32 ∧
  State.reset.heap = State.reset.params.heapStart ∧
  State.reset.exited = false ∧ State.reset.exitCode = 0#8 ∧ State.reset.stepCount = 0#64 ∧
  (∀ i : Fin 32, State.reset.preimageKey[i] = 0#8) ∧ State.reset.preimageOffset = 0#32 ∧
  State.reset.lastHint = [] ∧
  (∀ x : Word, State.reset.mem.byteAt x = 0#8) ∧ (∀ a : Word, State.reset.mapped a = true) ∧
  State.reset.params.Valid

/-- The state after reset meets the invariant and every launch premise (70_reset_and_hazards.md R296).  The reset
values are the spec's decision D22; the canonical form in the invariant is the model's (log 6), and that
the parameters are valid at reset is the model's choice (log 2). -/
def Obligations.ResetMeetsInvariantAndLaunchPremises : Prop :=
  State.reset.Inv ∧ State.reset.LaunchPremises

/-- Register 0 reads 0 and a write to it is discarded; a write to another register is what a read of that
one gives, and no other register changes (10_state.md R22, R23; R22 for a planted value is the spec's
decision D23 and this model's log 7). -/
def Obligations.RegisterZeroIsHardWired : Prop :=
  ∀ (s : State) (r q : RegNum) (v : Word),
    s.reg 0#5 = 0#32 ∧ s.setReg 0#5 v = s ∧
    (s.setReg r v).reg q = (if q = 0#5 then 0#32 else if q = r then v else s.reg q) ∧
    (s.setReg r v).regs[0] = s.regs[0]

/-- Every step keeps memory in its canonical form (the model's form, log 6) and `registers[0]` at 0
(70_reset_and_hazards.md R297 (a)). -/
def Obligations.StepKeepsInvariant : Prop :=
  ∀ s t : State, s.Inv → step s = .next t → t.Inv

/-- What no step can do otherwise, over every state (70_reset_and_hazards.md R297 (a) to (e)): register 0
stays 0, an exited machine is constant, the counter moves by 0 or 1, the program counters are sequential
after every instruction that is no branch, and the six system fields change only in SYSCALL. -/
def Obligations.StepRelationOverTime : Prop :=
  ∀ s : State,
    (s.regs[0] = 0#32 → s.after.regs[0] = 0#32) ∧
    (s.exited = true → ∀ n, State.after^[n] s = s) ∧
    ((∃ f, step s = .fault f) ∨ s.exited = true → s.after.stepCount = s.stepCount) ∧
    (∀ t, step s = .next t → s.exited = false →
      t.stepCount.toNat = (s.stepCount.toNat + 1) % 2 ^ 64) ∧
    (∀ i t, s.Executes i → i.isBranch = false → step s = .next t → t.nextPc = t.pc + 4#32) ∧
    (∀ i t, s.Executes i → step s = .next t → t.pc = s.nextPc) ∧
    ((∀ code, ¬s.Executes (.syscall code)) →
      s.after.preimageKey = s.preimageKey ∧ s.after.preimageOffset = s.preimageOffset ∧
      s.after.heap = s.heap ∧ s.after.exitCode = s.exitCode ∧ s.after.exited = s.exited ∧
      s.after.lastHint = s.lastHint)

/-- The parameters are fixed for a run (70_reset_and_hazards.md R298). -/
def Obligations.ParametersAreFixedForARun : Prop :=
  ∀ (s : State) (n : Nat), (State.after^[n] s).params = s.params

/-- Neither the counter nor the last hint influences anything else (10_state.md R33 "no instruction reads
`step`", R37 "nothing in the core reads it"): two states that differ in them alone take the same step. -/
def Obligations.CounterAndHintAreNeverRead : Prop :=
  ∀ (s : State) (n : BitVec 64) (hint : List Byte),
    (∀ t, step s = .next t → ∃ n' hint',
      step { s with stepCount := n, lastHint := hint } =
        .next { t with stepCount := n', lastHint := hint' }) ∧
    (∀ f, step s = .fault f → step { s with stepCount := n, lastHint := hint } = .fault f)

/-! ### Memory -/

/-- A word written is the word read, its bytes lie most significant first, and no other byte changes
(20_memory.md R53; the byte order is R54, the spec's decision D4). -/
def Obligations.WrittenWordIsReadBack : Prop :=
  ∀ (m : Memory) (a v : Word), a.toNat % 4 = 0 →
    (m.writeWord a v).readWord a = v ∧
    (∀ k < 4, (m.writeWord a v).byteAt (a + BitVec.ofNat 32 k) = byteOf v k) ∧
    ∀ x : Word, 4 ≤ (x - a).toNat → (m.writeWord a v).byteAt x = m.byteAt x

/-- A word is its four bytes, big-endian, and the lanes of a word are the bytes at their addresses
(20_memory.md R52, R54, R55; the byte order is the spec's decision D4). -/
def Obligations.WordsAndLanesAreBytesInOrder : Prop :=
  ∀ (m : Memory) (a : Word),
    (a.toNat % 4 = 0 → (m.readWord a).toNat =
      (m.byteAt a).toNat * 2 ^ 24 + (m.byteAt (a + 1#32)).toNat * 2 ^ 16 +
      (m.byteAt (a + 2#32)).toNat * 2 ^ 8 + (m.byteAt (a + 3#32)).toNat) ∧
    (wordBase a).toNat = a.toNat / 4 * 4 ∧
    byteLane (m.readWord (wordBase a)) a = m.byteAt a ∧
    (a.toNat % 2 = 0 →
      halfLane (m.readWord (wordBase a)) a = m.byteAt a ++ m.byteAt (a + 1#32))

/-- The primitives (20_memory.md R57, R58, R59): each checks alignment, then mapping; a read gives the bytes
at the address, a write replaces them and no other byte. -/
def Obligations.MemoryPrimitivesCheckThenAct : Prop :=
  ∀ (s : State) (a : Word) (v1 : Byte) (v2 : BitVec 16) (v4 : Word),
    let unmapped := s.mapped (wordBase a) = false
    (a.toNat % 4 ≠ 0 →
      s.memRead4 a = .error (.addressMisaligned a) ∧
      s.memWrite4 a v4 = .error (.addressMisaligned a)) ∧
    (a.toNat % 2 ≠ 0 →
      s.memRead2 a = .error (.addressMisaligned a) ∧
      s.memWrite2 a v2 = .error (.addressMisaligned a)) ∧
    (unmapped →
      (a.toNat % 4 = 0 → s.memRead4 a = .error (.addressUnmapped a) ∧
        s.memWrite4 a v4 = .error (.addressUnmapped a)) ∧
      (a.toNat % 2 = 0 → s.memRead2 a = .error (.addressUnmapped a) ∧
        s.memWrite2 a v2 = .error (.addressUnmapped a)) ∧
      s.memRead1 a = .error (.addressUnmapped a) ∧
      s.memWrite1 a v1 = .error (.addressUnmapped a)) ∧
    (¬unmapped →
      (a.toNat % 4 = 0 → s.memRead4 a = .ok (s.mem.readWord a) ∧
        ∃ t, s.memWrite4 a v4 = .ok t ∧ t = { s with mem := t.mem } ∧
          s.BytesStored t a [byteOf v4 0, byteOf v4 1, byteOf v4 2, byteOf v4 3]) ∧
      (a.toNat % 2 = 0 → s.memRead2 a = .ok (s.mem.byteAt a ++ s.mem.byteAt (a + 1#32)) ∧
        ∃ t, s.memWrite2 a v2 = .ok t ∧ t = { s with mem := t.mem } ∧
          s.BytesStored t a [v2.extractLsb' 8 8, v2.extractLsb' 0 8]) ∧
      s.memRead1 a = .ok (s.mem.byteAt a) ∧
      ∃ t, s.memWrite1 a v1 = .ok t ∧ t = { s with mem := t.mem } ∧ s.BytesStored t a [v1])

/-- Two canonical memories that hold the same bytes are one memory (20_memory.md R50: memory is a function
from address to byte; the canonical form is the model's, log 6). -/
def Obligations.CanonicalMemoriesAreExtensional : Prop :=
  ∀ m m' : Memory, m.wf = true → m'.wf = true → (∀ x : Word, m.byteAt x = m'.byteAt x) → m = m'

/-- The loader's placement inside the space: each byte at its address, no other byte changed, nothing done for
no bytes (20_memory.md R70), and the canonical form kept (the model's form, log 6).  Past the top of the
space it has no answer (91_not_in_source.md N9; log 15). -/
def Obligations.SetRangePlacesEachByte : Prop :=
  ∀ (s : State) (a : Word) (bytes : List Byte),
    (2 ^ 32 < a.toNat + bytes.length → s.place a bytes = none) ∧
    (a.toNat + bytes.length ≤ 2 ^ 32 → ∃ t, s.place a bytes = some t ∧
      t = { s with mem := t.mem } ∧ s.BytesStored t a bytes ∧
      (s.mem.wf = true → t.mem.wf = true) ∧ (bytes = [] → t = s))

/-- The words a successful step touches, in order (20_memory.md R62): the fetch; then the word of the effective
address, which a load reads, SB, SH, SWL and SWR read and then write, and SW and SC only write (R59: the
spec's decision D26; that a successful SC always writes is its decision D15); for any other instruction
but SYSCALL nothing more; for SYSCALL the words of the buffer (60_exceptions.md R277 to R280): the one word
of a preimage transfer, or none where it returns 0 bytes, the words of a hint, whose byte addresses wrap
(R282: the spec's decision D21), and none for any other service.  A byte that changed lies in a word on
the list as written. -/
def Obligations.StepTouchesTheListedWords : Prop :=
  ∀ (s t : State) (i : Instr), s.Executes i → step s = .next t →
    let loads (base rt : RegNum) (offset : BitVec 16) : List Instr :=
      [.lb base rt offset, .lbu base rt offset, .lh base rt offset, .lhu base rt offset,
        .lw base rt offset, .lwl base rt offset, .lwr base rt offset, .ll base rt offset]
    let merges (base rt : RegNum) (offset : BitVec 16) : List Instr :=
      [.sb base rt offset, .sh base rt offset, .swl base rt offset, .swr base rt offset]
    let wordStores (base rt : RegNum) (offset : BitVec 16) : List Instr :=
      [.sw base rt offset, .sc base rt offset]
    (∀ x : Word, t.mem.byteAt x ≠ s.mem.byteAt x → .write (wordBase x) ∈ s.accesses i) ∧
    (∀ base rt offset,
      let word := wordBase (s.effAddr base offset)
      (i ∈ loads base rt offset → s.accesses i = [.read s.pc, .read word]) ∧
      (i ∈ merges base rt offset → s.accesses i = [.read s.pc, .read word, .write word]) ∧
      (i ∈ wordStores base rt offset → s.accesses i = [.read s.pc, .write word])) ∧
    ((∀ base rt offset, i ∉ loads base rt offset ++ merges base rt offset ++ wordStores base rt offset) →
      (∀ code, i ≠ .syscall code) → s.accesses i = [.read s.pc]) ∧
    (∀ code, i = .syscall code →
      let word := wordBase (s.reg 5#5)
      s.accesses i = .read s.pc :: s.layerAccesses ∧
      (s.service = .readPreimage →
        s.layerAccesses = if t.reg 2#5 = 0#32 then [] else [.read word, .write word]) ∧
      (s.service = .writePreimage →
        s.layerAccesses = if t.reg 2#5 = 0#32 then [] else [.read word]) ∧
      (s.service = .writeHint →
        (∀ a : Access, a ∈ s.layerAccesses ↔
          ∃ k < (s.reg 6#5).toNat, a = .read (wordBase (s.reg 5#5 + BitVec.ofNat 32 k))) ∧
        s.layerAccesses.Nodup) ∧
      (s.service ∉ [.readPreimage, .writePreimage, .writeHint] → s.layerAccesses = []))

/-- The listed words are all that a step depends on in memory and all that it changes (20_memory.md R62; that SW
and SC read no data word is the spec's decision D26, that no link state makes SC fail its decision D15): with
any other memory that holds the same bytes in the words listed as read, the step gives the same next
state, the same bytes in the listed words, and keeps every byte outside them. -/
def Obligations.StepDependsOnTheListedWordsOnly : Prop :=
  ∀ (s t : State) (i : Instr) (m : Memory), s.Executes i → step s = .next t →
    (∀ x : Word, .read (wordBase x) ∈ s.accesses i → m.byteAt x = s.mem.byteAt x) →
    ∃ m' : Memory, step { s with mem := m } = .next { t with mem := m' } ∧
      ∀ x : Word, m'.byteAt x =
        if .read (wordBase x) ∈ s.accesses i ∨ .write (wordBase x) ∈ s.accesses i then t.mem.byteAt x
        else m.byteAt x

/-- A store instruction to the word the very next step fetches is what that step fetches and runs, with no fence
(20_memory.md R66, 70_reset_and_hazards.md R305): SW puts all of `rt` there (41_load_store.md R161), and so
does SC, whatever happened before it (R165: the spec's decision D15); SB, SH, SWL and SWR put their bytes
of `rt` among those the word had (R159, R160, R162, R163).  The byte order is the spec's decision D4. -/
def Obligations.StoreIsSeenByTheNextFetch : Prop :=
  ∀ (s t : State) (base rt : RegNum) (offset : BitVec 16),
    let b := (s.effAddr base offset).toNat % 4
    let old := byteOf (s.mem.readWord s.nextPc)
    let new := byteOf (s.reg rt)
    let seen : Instr → (Nat → Byte) → Prop := fun i stored =>
      s.Executes i → step s = .next t → wordBase (s.effAddr base offset) = s.nextPc →
        ∃ w : Word, t.fetch = .ok w ∧ (∀ k < 4, byteOf w k = stored k) ∧
          (∀ j, decodeWord w = some j → t.Executes j) ∧
          (decodeWord w = none → step t = .fault (.unsupportedInstruction w))
    seen (.sw base rt offset) new ∧
    seen (.sc base rt offset) new ∧
    seen (.sb base rt offset) (fun k => if k = b then new 3 else old k) ∧
    seen (.sh base rt offset) (fun k => if b ≤ k ∧ k < b + 2 then new (2 + (k - b)) else old k) ∧
    seen (.swl base rt offset) (fun k => if b ≤ k then new (k - b) else old k) ∧
    seen (.swr base rt offset) (fun k => if k ≤ b then new (3 - b + k) else old k)

/-! ### Encoding -/

/-- Every well-formed instruction's word decodes to it, with every operand at every value: as a word, as
bytes with more bytes after it, and as the opcode table numbers words (30_encoding.md R80 to R88). -/
def Obligations.EncodedInstructionDecodesToItself : Prop :=
  ∀ (i : Instr) (rest : List Byte), i.wellFormed = true →
    decodeWord (encode i) = some i ∧ decodeBytes (encodeBytes i ++ rest) = .ok (i, rest) ∧
    decodeTableWord 32 (encode i).toNat = some i

/-- A word that decodes is the word of what it decodes to, which is well formed: one word, one instruction
(30_encoding.md R86, R93). -/
def Obligations.DecodedWordEncodesBack : Prop :=
  ∀ (w : Word) (i : Instr), decodeWord w = some i → i.wellFormed = true ∧ encode i = w

/-- A word is the instruction of a row exactly when the row admits it, 65 rows, no word in two of them
(30_encoding.md R86). -/
def Obligations.RowsAreDisjointAndDecide : Prop :=
  opcodeTable.length = 65 ∧
  ∀ w : Word,
    (∀ r ∈ opcodeTable, r.admits w = (decide (w &&& r.mask = r.value) &&
      (!r.needsRtEqRd || decide (rtField w = rdField w)))) ∧
    (∀ r ∈ opcodeTable, r.admits w = true → decodeWord w = some (r.build w)) ∧
    (∀ i j : Fin opcodeTable.length, opcodeTable[i].admits w = true →
      opcodeTable[j].admits w = true → i = j) ∧
    (decodeWord w = none ↔ ∀ r ∈ opcodeTable, r.admits w = false)

/-- Every cell of the opcode maps that is not an admitted instruction is unsupported, whatever the word's
other bits (30_encoding.md R89). -/
def Obligations.UnassignedOpcodeCellsAreUnsupported : Prop :=
  ∀ w : Word,
    (opField w ∈ [0x10#6, 0x11#6, 0x12#6, 0x13#6, 0x14#6, 0x15#6, 0x16#6, 0x17#6, 0x18#6, 0x19#6,
      0x1A#6, 0x1B#6, 0x1D#6, 0x1E#6, 0x1F#6, 0x27#6, 0x2C#6, 0x2D#6, 0x2F#6, 0x31#6, 0x32#6, 0x33#6,
      0x34#6, 0x35#6, 0x36#6, 0x37#6, 0x39#6, 0x3A#6, 0x3B#6, 0x3C#6, 0x3D#6, 0x3E#6, 0x3F#6] →
      decodeWord w = none) ∧
    (opField w = 0x00#6 → functField w ∈ [0x01#6, 0x05#6, 0x0D#6, 0x0E#6, 0x14#6, 0x15#6, 0x16#6,
      0x17#6, 0x1C#6, 0x1D#6, 0x1E#6, 0x1F#6, 0x28#6, 0x29#6, 0x2C#6, 0x2D#6, 0x2E#6, 0x2F#6, 0x30#6,
      0x31#6, 0x32#6, 0x33#6, 0x34#6, 0x35#6, 0x36#6, 0x37#6, 0x38#6, 0x39#6, 0x3A#6, 0x3B#6, 0x3C#6,
      0x3D#6, 0x3E#6, 0x3F#6] → decodeWord w = none) ∧
    (opField w = 0x01#6 → rtField w ∉ [0x00#5, 0x01#5, 0x10#5, 0x11#5] → decodeWord w = none) ∧
    (opField w = 0x1C#6 → functField w ∉ [0x02#6, 0x20#6, 0x21#6] → decodeWord w = none)

/-- A word whose must-be-zero field is not zero is unsupported, and so is CLZ or CLO with `rt ≠ rd`
(30_encoding.md R91, R93: the spec's decision D5); the two unchecked fields admit every value. -/
def Obligations.ReservedFieldsMustBeZero : Prop :=
  (∀ w : Word, opField w = 0x00#6 →
    (functField w ∈ [0x00#6, 0x02#6, 0x03#6] → rsField w ≠ 0#5 → decodeWord w = none) ∧
    (functField w ∈ [0x04#6, 0x06#6, 0x07#6, 0x0A#6, 0x0B#6, 0x20#6, 0x21#6, 0x22#6, 0x23#6, 0x24#6,
      0x25#6, 0x26#6, 0x27#6, 0x2A#6, 0x2B#6] → saField w ≠ 0#5 → decodeWord w = none) ∧
    (functField w ∈ [0x08#6, 0x11#6, 0x13#6] → w.extractLsb' 6 15 ≠ 0#15 → decodeWord w = none) ∧
    (functField w = 0x09#6 → rtField w ≠ 0#5 ∨ saField w ≠ 0#5 → decodeWord w = none) ∧
    (functField w ∈ [0x10#6, 0x12#6] → w.extractLsb' 16 10 ≠ 0#10 ∨ saField w ≠ 0#5 →
      decodeWord w = none) ∧
    (functField w ∈ [0x18#6, 0x19#6, 0x1A#6, 0x1B#6] → w.extractLsb' 6 10 ≠ 0#10 →
      decodeWord w = none) ∧
    (functField w = 0x0F#6 → w.extractLsb' 11 15 ≠ 0#15 → decodeWord w = none) ∧
    (functField w = 0x0F#6 → w.extractLsb' 11 15 = 0#15 →
      decodeWord w = some (.sync (w.extractLsb' 6 5))) ∧
    (functField w = 0x0C#6 → decodeWord w = some (.syscall (w.extractLsb' 6 20)))) ∧
  (∀ w : Word,
    (opField w = 0x0F#6 → rsField w ≠ 0#5 → decodeWord w = none) ∧
    (opField w ∈ [0x06#6, 0x07#6] → rtField w ≠ 0#5 → decodeWord w = none) ∧
    (opField w = 0x1C#6 → saField w ≠ 0#5 → decodeWord w = none) ∧
    (opField w = 0x1C#6 → functField w ∈ [0x20#6, 0x21#6] → rtField w ≠ rdField w →
      decodeWord w = none))

/-- Words written out in spec/, one of each format and family, and the no-operation words of
30_encoding.md R92. -/
def Obligations.WordsOfTheSpecDecode : Prop :=
  decodeWord 0x01095020#32 = some (.add 8#5 9#5 10#5) ∧
  decodeWord 0x2509FFFF#32 = some (.addiu 8#5 9#5 0xFFFF#16) ∧
  decodeWord 0x00095103#32 = some (.sra 9#5 10#5 4#5) ∧
  decodeWord 0x710A5020#32 = some (.clz 8#5 10#5 10#5) ∧
  decodeWord 0x8D09FFFC#32 = some (.lw 8#5 9#5 0xFFFC#16) ∧
  decodeWord 0xE1090004#32 = some (.sc 8#5 9#5 4#16) ∧
  decodeWord 0x0BFFFFFF#32 = some (.j 0x3FFFFFF#26) ∧
  decodeWord 0x05110010#32 = some (.bgezal 8#5 0x10#16) ∧
  decodeWord 0x0109001A#32 = some (.div 8#5 9#5) ∧
  decodeWord 0x0000004C#32 = some (.syscall 1#20) ∧
  decodeWord 0x000007CF#32 = some (.sync 31#5) ∧
  decodeWord 0x00000000#32 = some (.sll 0#5 0#5 0#5) ∧
  decodeWord 0x00000040#32 = some (.sll 0#5 0#5 1#5) ∧
  decodeWord 0x000000C0#32 = some (.sll 0#5 0#5 3#5) ∧
  decodeWord 0x00000140#32 = some (.sll 0#5 0#5 5#5) ∧
  decodeWord 0x0020000F#32 = none ∧ decodeWord 0x71095020#32 = none

/-! ### The step -/

/-- A step runs the decoded instruction (60_exceptions.md R241): where the four bytes at an aligned, mapped
`pc` decode to `i`, the step is `exec i`, and a next state also counts one step. -/
def Obligations.StepRunsTheDecodedInstruction : Prop :=
  ∀ (s : State) (i : Instr), s.exited = false → s.pc.toNat % 4 = 0 → s.mapped s.pc = true →
    decodeBytes [s.mem.byteAt s.pc, s.mem.byteAt (s.pc + 1#32), s.mem.byteAt (s.pc + 2#32),
      s.mem.byteAt (s.pc + 3#32)] = .ok (i, []) →
    s.Executes i ∧
    (∀ t, exec i s = .next t → step s = .next { t with stepCount := s.stepCount + 1#64 }) ∧
    ∀ f, exec i s = .fault f → step s = .fault f

/-- A step on an exited machine answers the state unchanged (60_exceptions.md R242, the spec's decision D20);
after a fatal error the state is the state from before, and the step raises the same error again (R243). -/
def Obligations.ExitedAndFatalStepsChangeNothing : Prop :=
  ∀ s : State,
    (s.exited = true → step s = .next s) ∧
    ∀ f, step s = .fault f → s.after = s ∧ step s.after = .fault f

/-- When a step is fatal, with which cause and `info` (60_exceptions.md R245 to R254, R282; the priority is
the spec's decision D27): exactly when `StepRaises` says, with that cause only, and in every other
state the step answers a next state; no step is refused. -/
def Obligations.FatalErrorsAreExactlyTheTable : Prop :=
  ∀ s : State,
    (∀ f, step s = .fault f ↔ s.StepRaises f) ∧
    ((∀ f, ¬s.StepRaises f) → ∃ t, step s = .next t) ∧
    (∀ r, step s ≠ .refused r)

/-- The delay slot (42_branch_jump.md R180, R181, 70_reset_and_hazards.md R304): after a branch or jump the
word at `B + 4` runs next, in every case, and after it control is at the branch's target; a second
branch in the slot of a transfer elsewhere is fatal (the spec's decision D10). -/
def Obligations.DelaySlotRunsBeforeTheTarget : Prop :=
  ∀ (s t : State) (i j : Instr), s.Executes i → i.isBranch = true → step s = .next t →
    t.pc = s.pc + 4#32 ∧
    (t.Executes j →
      (j.isBranch = false → ∀ u, step t = .next u → u.pc = t.nextPc ∧ u.nextPc = t.nextPc + 4#32) ∧
      (j.isBranch = true → t.nextPc ≠ t.pc + 4#32 →
        step t = .fault (.branchInDelaySlot (s.pc + 4#32))))

/-! ### Arithmetic, logic, compare, shift, move, count -/

/-- ADD, SUB, ADDI (40_arith_logic.md R111, R112, R114, R122; the trap is the spec's decision D6): where the
exact signed result fits it is written and nothing else; where it does not, the step is fatal, whatever
the destination. -/
def Obligations.SignedSumsFitOrTrap : Prop :=
  ∀ (s : State) (rs rt rd : RegNum) (imm : BitVec 16),
    let fits : Int → Prop := fun x => -2 ^ 31 ≤ x ∧ x ≤ 2 ^ 31 - 1
    let ends : Instr → RegNum → Int → Prop := fun i d x =>
      (fits x → ∃ t, exec i s = .next t ∧ s.OnlyRegister t d (BitVec.ofInt 32 x)) ∧
      (¬fits x → exec i s = .fault (.integerOverflow (encode i)))
    ends (.add rs rt rd) rd ((s.reg rs).toInt + (s.reg rt).toInt) ∧
    ends (.sub rs rt rd) rd ((s.reg rs).toInt - (s.reg rt).toInt) ∧
    ends (.addi rs rt imm) rt ((s.reg rs).toInt + imm.toInt)

/-- ADDU, SUBU, ADDIU: modulo 2^32, the immediate sign-extended (40_arith_logic.md R113, R115, R123). -/
def Obligations.UnsignedSumsWrap : Prop :=
  ∀ (s : State) (rs rt rd : RegNum) (imm : BitVec 16),
    (IsWordOf (rType 0x00 rs rt rd 0 0x21) (.addu rs rt rd) ∧
      ∃ t, exec (.addu rs rt rd) s = .next t ∧
        s.OnlyRegister t rd (BitVec.ofNat 32 ((s.reg rs).toNat + (s.reg rt).toNat))) ∧
    (IsWordOf (rType 0x00 rs rt rd 0 0x23) (.subu rs rt rd) ∧
      ∃ t, exec (.subu rs rt rd) s = .next t ∧
        s.OnlyRegister t rd (BitVec.ofInt 32 ((s.reg rs).toNat - (s.reg rt).toNat))) ∧
    (IsWordOf (iType 0x09 rs rt imm) (.addiu rs rt imm) ∧
      ∃ t, exec (.addiu rs rt imm) s = .next t ∧
        s.OnlyRegister t rt (BitVec.ofInt 32 ((s.reg rs).toNat + imm.toInt)))

/-- AND, OR, XOR, NOR, bit by bit (40_arith_logic.md R116 to R119). -/
def Obligations.BitwiseInstructionsActOnEachBit : Prop :=
  ∀ (s : State) (rs rt rd : RegNum),
    let bitwise : BitVec 6 → Instr → (Bool → Bool → Bool) → Prop := fun funct i op =>
      IsWordOf (rType 0x00 rs rt rd 0 funct) i ∧
      ∃ v t, exec i s = .next t ∧ s.OnlyRegister t rd v ∧
        ∀ k < 32, v.getLsbD k = op ((s.reg rs).getLsbD k) ((s.reg rt).getLsbD k)
    bitwise 0x24 (.and rs rt rd) (fun a b => a && b) ∧
    bitwise 0x25 (.or rs rt rd) (fun a b => a || b) ∧
    bitwise 0x26 (.xor rs rt rd) (fun a b => a != b) ∧
    bitwise 0x27 (.nor rs rt rd) (fun a b => !(a || b))

/-- ANDI, ORI, XORI with the zero-extended immediate, bit by bit, and LUI (40_arith_logic.md R126 to R129; a
LUI word with `rs` not 0 is unsupported: 30_encoding.md R91, the spec's decision D5). -/
def Obligations.LogicImmediatesZeroExtend : Prop :=
  ∀ (s : State) (rs rt : RegNum) (imm : BitVec 16),
    let bitwise : BitVec 6 → Instr → (Bool → Bool → Bool) → Prop := fun op i f =>
      IsWordOf (iType op rs rt imm) i ∧
      ∃ v t, exec i s = .next t ∧ s.OnlyRegister t rt v ∧
        (∀ k < 16, v.getLsbD k = f ((s.reg rs).getLsbD k) (imm.getLsbD k)) ∧
        ∀ k, 16 ≤ k → k < 32 → v.getLsbD k = f ((s.reg rs).getLsbD k) false
    bitwise 0x0C (.andi rs rt imm) (fun a b => a && b) ∧
    bitwise 0x0D (.ori rs rt imm) (fun a b => a || b) ∧
    bitwise 0x0E (.xori rs rt imm) (fun a b => a != b) ∧
    (IsWordOf (iType 0x0F 0 rt imm) (.lui rt imm) ∧
      (∀ op : RegNum, op ≠ 0#5 → decodeWord (iType 0x0F op rt imm) = none) ∧
      ∃ t, exec (.lui rt imm) s = .next t ∧
        s.OnlyRegister t rt (BitVec.ofNat 32 (imm.toNat * 2 ^ 16)))

/-- SLT, SLTU, SLTI, SLTIU: 1 or 0, the immediate sign-extended for both comparisons (40_arith_logic.md R120,
R121, R124, R125). -/
def Obligations.ComparisonsSetOneOrZero : Prop :=
  ∀ (s : State) (rs rt rd : RegNum) (imm : BitVec 16),
    let sets : Instr → RegNum → Prop → Prop := fun i d p =>
      (p → ∃ t, exec i s = .next t ∧ s.OnlyRegister t d 1#32) ∧
      (¬p → ∃ t, exec i s = .next t ∧ s.OnlyRegister t d 0#32)
    (IsWordOf (rType 0x00 rs rt rd 0 0x2A) (.slt rs rt rd) ∧
      sets (.slt rs rt rd) rd ((s.reg rs).toInt < (s.reg rt).toInt)) ∧
    (IsWordOf (rType 0x00 rs rt rd 0 0x2B) (.sltu rs rt rd) ∧
      sets (.sltu rs rt rd) rd ((s.reg rs).toNat < (s.reg rt).toNat)) ∧
    (IsWordOf (iType 0x0A rs rt imm) (.slti rs rt imm) ∧
      sets (.slti rs rt imm) rt ((s.reg rs).toInt < imm.toInt)) ∧
    (IsWordOf (iType 0x0B rs rt imm) (.sltiu rs rt imm) ∧
      sets (.sltiu rs rt imm) rt (((s.reg rs).toNat : Int) < imm.toInt % 2 ^ 32))

/-- SLL, SRL, SRA by the constant `sa`, as arithmetic (40_arith_logic.md R130, R131, R132; an SRL word
with `rs` not 0 is unsupported: 30_encoding.md R91, the spec's decision D5). -/
def Obligations.ConstantShiftsScaleByPowersOfTwo : Prop :=
  ∀ (s : State) (rt rd : RegNum) (sa : BitVec 5),
    (IsWordOf (rType 0x00 0 rt rd sa 0x00) (.sll rt rd sa) ∧
      ∃ t, exec (.sll rt rd sa) s = .next t ∧
        s.OnlyRegister t rd (BitVec.ofNat 32 ((s.reg rt).toNat * 2 ^ sa.toNat))) ∧
    (IsWordOf (rType 0x00 0 rt rd sa 0x02) (.srl rt rd sa) ∧
      ∃ t, exec (.srl rt rd sa) s = .next t ∧
        s.OnlyRegister t rd (BitVec.ofNat 32 ((s.reg rt).toNat / 2 ^ sa.toNat))) ∧
    (IsWordOf (rType 0x00 0 rt rd sa 0x03) (.sra rt rd sa) ∧
      ∃ t, exec (.sra rt rd sa) s = .next t ∧
        s.OnlyRegister t rd (BitVec.ofInt 32 ((s.reg rt).toInt.fdiv (2 ^ sa.toNat)))) ∧
    ∀ rs : RegNum, rs ≠ 0#5 → decodeWord (rType 0x00 rs rt rd sa 0x02) = none

/-- SLLV, SRLV, SRAV: the amount is the low five bits of `rs`, a count of 32 acts as 0
(40_arith_logic.md R133, R134, R135; an SRLV word with `sa` not 0 is unsupported: 30_encoding.md R91, the
spec's decision D5). -/
def Obligations.VariableShiftsUseFiveBits : Prop :=
  ∀ (s : State) (rs rt rd : RegNum),
    let n := (s.reg rs).toNat % 32
    (IsWordOf (rType 0x00 rs rt rd 0 0x04) (.sllv rs rt rd) ∧
      ∃ t, exec (.sllv rs rt rd) s = .next t ∧
        s.OnlyRegister t rd (BitVec.ofNat 32 ((s.reg rt).toNat * 2 ^ n))) ∧
    (IsWordOf (rType 0x00 rs rt rd 0 0x06) (.srlv rs rt rd) ∧
      ∃ t, exec (.srlv rs rt rd) s = .next t ∧
        s.OnlyRegister t rd (BitVec.ofNat 32 ((s.reg rt).toNat / 2 ^ n))) ∧
    (IsWordOf (rType 0x00 rs rt rd 0 0x07) (.srav rs rt rd) ∧
      ∃ t, exec (.srav rs rt rd) s = .next t ∧
        s.OnlyRegister t rd (BitVec.ofInt 32 ((s.reg rt).toInt.fdiv (2 ^ n)))) ∧
    ∀ sa : BitVec 5, sa ≠ 0#5 → decodeWord (rType 0x00 rs rt rd sa 0x06) = none

/-- MOVZ and MOVN move or keep the destination, and advance in both cases (40_arith_logic.md R136, R137). -/
def Obligations.ConditionalMovesKeepOrMove : Prop :=
  ∀ (s : State) (rs rt rd : RegNum),
    (IsWordOf (rType 0x00 rs rt rd 0 0x0A) (.movz rs rt rd) ∧
      ∃ t, exec (.movz rs rt rd) s = .next t ∧
        s.OnlyRegister t rd (if s.reg rt = 0#32 then s.reg rs else s.reg rd)) ∧
    (IsWordOf (rType 0x00 rs rt rd 0 0x0B) (.movn rs rt rd) ∧
      ∃ t, exec (.movn rs rt rd) s = .next t ∧
        s.OnlyRegister t rd (if s.reg rt = 0#32 then s.reg rd else s.reg rs))

/-- CLZ and CLO count the bits above the first one, or the first zero, 32 when there is none; with
`rt ≠ rd` the word is unsupported (40_arith_logic.md R138, R139; 30_encoding.md R93). -/
def Obligations.CountsStopAtTheFirstBit : Prop :=
  ∀ (s : State) (rs rt rd : RegNum),
    let counts : BitVec 6 → Instr → Bool → Prop := fun funct i run =>
      IsWordOf (rType 0x1C rs rd rd 0 funct) i ∧
      (rt ≠ rd → decodeWord (rType 0x1C rs rt rd 0 funct) = none) ∧
      ∃ n t, exec i s = .next t ∧ s.OnlyRegister t rd (BitVec.ofNat 32 n) ∧ n ≤ 32 ∧
        (∀ k < n, (s.reg rs).getLsbD (31 - k) = run) ∧
        (n < 32 → (s.reg rs).getLsbD (31 - n) = !run)
    counts 0x20 (.clz rs rd rd) false ∧ counts 0x21 (.clo rs rd rd) true

/-! ### Loads and stores -/

/-- The one addressing mode, the aligned word and the position in it (41_load_store.md R150). -/
def Obligations.EffectiveAddressIsBasePlusOffset : Prop :=
  ∀ (s : State) (base : RegNum) (offset : BitVec 16),
    let addr := s.effAddr base offset
    addr = BitVec.ofInt 32 ((s.reg base).toNat + offset.toInt) ∧
    (wordBase addr).toNat = addr.toNat / 4 * 4 ∧ byteIndex addr = addr.toNat % 4 ∧
    (wordAligned addr = true ↔ addr.toNat % 4 = 0) ∧ (halfAligned addr = true ↔ addr.toNat % 2 = 0)

/-- LB, LBU, LH, LHU, LW: the bytes at the address, sign-extended or zero-extended, in the one register named,
or the address error of the width, checked also for register 0 (41_load_store.md R152 to R156). -/
def Obligations.LoadsExtendTheAddressedBytes : Prop :=
  ∀ (s : State) (base rt : RegNum) (offset : BitVec 16),
    let addr := s.effAddr base offset
    let half : BitVec 16 := s.mem.byteAt addr ++ s.mem.byteAt (addr + 1#32)
    let loads : BitVec 6 → Instr → Nat → Word → Prop := fun op i width v =>
      IsWordOf (iType op base rt offset) i ∧
      s.AccessEnds i addr (addr.toNat % width = 0) (fun t => s.OnlyRegister t rt v)
    loads 0x20 (.lb base rt offset) 1 (BitVec.ofInt 32 (s.mem.byteAt addr).toInt) ∧
    loads 0x24 (.lbu base rt offset) 1 (BitVec.ofNat 32 (s.mem.byteAt addr).toNat) ∧
    loads 0x21 (.lh base rt offset) 2 (BitVec.ofInt 32 half.toInt) ∧
    loads 0x25 (.lhu base rt offset) 2 (BitVec.ofNat 32 half.toNat) ∧
    loads 0x23 (.lw base rt offset) 4 (s.mem.readWord addr)

/-- LWL and LWR, byte by byte: LWL puts memory from the addressed byte to the end of its word into the top of
`rt`, LWR memory from the start of the word to the addressed byte into the bottom; the other bytes of
`rt` are kept, and no address is misaligned (41_load_store.md R157, R158). -/
def Obligations.PartialLoadsMergeBytes : Prop :=
  ∀ (s : State) (base rt : RegNum) (offset : BitVec 16),
    let addr := s.effAddr base offset
    let b := addr.toNat % 4
    let loads : BitVec 6 → Instr → (Nat → Byte) → Prop := fun op i result =>
      IsWordOf (iType op base rt offset) i ∧
      s.AccessEnds i addr True (fun t => ∃ v, s.OnlyRegister t rt v ∧
        ∀ k < 4, byteOf v k = result k)
    loads 0x22 (.lwl base rt offset) (fun k =>
      if b + k < 4 then s.mem.byteAt (addr + BitVec.ofNat 32 k) else byteOf (s.reg rt) k) ∧
    loads 0x26 (.lwr base rt offset) (fun k =>
      if 3 ≤ b + k then s.mem.byteAt (addr - BitVec.ofNat 32 (3 - k)) else byteOf (s.reg rt) k)

/-- SB, SH, SW: the low bytes of `rt` at the address, most significant first, and no other byte of memory, no
register; or the address error of the width (41_load_store.md R159, R160, R161). -/
def Obligations.StoresWriteOnlyTheirBytes : Prop :=
  ∀ (s : State) (base rt : RegNum) (offset : BitVec 16),
    let addr := s.effAddr base offset
    let v := s.reg rt
    let stores : BitVec 6 → Instr → Nat → List Byte → Prop := fun op i width bytes =>
      IsWordOf (iType op base rt offset) i ∧
      s.AccessEnds i addr (addr.toNat % width = 0) (fun t => s.OnlyStore t addr bytes)
    stores 0x28 (.sb base rt offset) 1 [byteOf v 3] ∧
    stores 0x29 (.sh base rt offset) 2 [byteOf v 2, byteOf v 3] ∧
    stores 0x2B (.sw base rt offset) 4 [byteOf v 0, byteOf v 1, byteOf v 2, byteOf v 3]

/-- SWL and SWR: SWL stores the top `4 - b` bytes of `rt` from the addressed byte to the end of its word, SWR
the bottom `b + 1` bytes from the start of the word to the addressed byte; no other byte of memory
changes, and no address is misaligned (41_load_store.md R162, R163). -/
def Obligations.PartialStoresWriteOnlyTheirBytes : Prop :=
  ∀ (s : State) (base rt : RegNum) (offset : BitVec 16),
    let addr := s.effAddr base offset
    let b := addr.toNat % 4
    let bytes := (List.range 4).map (byteOf (s.reg rt))
    let stores : BitVec 6 → Instr → Word → List Byte → Prop := fun op i a bs =>
      IsWordOf (iType op base rt offset) i ∧
      s.AccessEnds i addr True (fun t => s.OnlyStore t a bs)
    stores 0x2A (.swl base rt offset) addr (bytes.take (4 - b)) ∧
    stores 0x2E (.swr base rt offset) (wordBase addr) (bytes.drop (3 - b))

/-- LL is LW; SC stores the old `rt` always and then puts 1 in it: there is no reservation
(41_load_store.md R164, R165; 20_memory.md R68: the spec's decision D15). -/
def Obligations.LinkedLoadsAndStoresAlwaysSucceed : Prop :=
  ∀ (s : State) (base rt : RegNum) (offset : BitVec 16),
    let addr := s.effAddr base offset
    let v := s.reg rt
    (IsWordOf (iType 0x30 base rt offset) (.ll base rt offset) ∧
      s.AccessEnds (.ll base rt offset) addr (addr.toNat % 4 = 0)
        (fun t => s.OnlyRegister t rt (s.mem.readWord addr))) ∧
    (IsWordOf (iType 0x38 base rt offset) (.sc base rt offset) ∧
      s.AccessEnds (.sc base rt offset) addr (addr.toNat % 4 = 0) (fun t =>
        s.BytesStored t addr [byteOf v 0, byteOf v 1, byteOf v 2, byteOf v 3] ∧
        s.RegWritten t rt 1#32 ∧ s.HiLoKept t ∧ s.SystemKept t ∧ s.Advanced t))

/-- The idiom for a word at any address: LWL at it and LWR at its last byte load its four bytes, SWL and SWR
store them and nothing else (41_load_store.md R157, R158, R162, R163). -/
def Obligations.UnalignedPairsMoveTheWholeWord : Prop :=
  ∀ (s : State) (base rt : RegNum) (first last : BitVec 16),
    let a := s.effAddr base first
    let v := s.reg rt
    s.effAddr base last = a + 3#32 →
    s.mapped (wordBase a) = true → s.mapped (wordBase (a + 3#32)) = true →
    (rt ≠ base → ∃ t u, exec (.lwl base rt first) s = .next t ∧
      exec (.lwr base rt last) t = .next u ∧
      s.RegWritten u rt (s.mem.byteAt a ++ s.mem.byteAt (a + 1#32) ++ s.mem.byteAt (a + 2#32) ++
        s.mem.byteAt (a + 3#32)) ∧ s.MemKept u) ∧
    ∃ t u, exec (.swl base rt first) s = .next t ∧ exec (.swr base rt last) t = .next u ∧
      s.BytesStored u a [byteOf v 0, byteOf v 1, byteOf v 2, byteOf v 3] ∧ s.RegsKept u

/-! ### Branches and jumps -/

/-- J and JAL: into the delay slot's 256 MB region, JAL with the link in register 31
(42_branch_jump.md R183, R184). -/
def Obligations.JumpsTransferWithinTheRegion : Prop :=
  ∀ (s : State) (index : BitVec 26),
    (IsWordOf (jType 0x02 index) (.j index) ∧
      s.TransferEnds (.j index) (fun t => s.OnlyTransfer t (jumpAddress s.pc index))) ∧
    (IsWordOf (jType 0x03 index) (.jal index) ∧
      s.TransferEnds (.jal index) (fun t => s.OnlyLink t 31#5 (jumpAddress s.pc index)))

/-- JR and JALR: to the register as it is before the step, no bit cleared, also when JALR links into it
(42_branch_jump.md R185, R186; `rd = rs` is the spec's decision D11). -/
def Obligations.RegisterJumpsUseTheOldValue : Prop :=
  ∀ (s : State) (rs rd : RegNum),
    (IsWordOf (rType 0x00 rs 0 0 0 0x08) (.jr rs) ∧
      s.TransferEnds (.jr rs) (fun t => s.OnlyTransfer t (s.reg rs))) ∧
    (IsWordOf (rType 0x00 rs 0 rd 0 0x09) (.jalr rs rd) ∧
      s.TransferEnds (.jalr rs rd) (fun t => s.OnlyLink t rd (s.reg rs)))

/-- BEQ and BNE: taken to the target or sequential, and the delay-slot check in both cases
(42_branch_jump.md R187, R188). -/
def Obligations.EqualityBranchesTakeOrFallThrough : Prop :=
  ∀ (s : State) (rs rt : RegNum) (offset : BitVec 16),
    (IsWordOf (iType 0x04 rs rt offset) (.beq rs rt offset) ∧
      s.TransferEnds (.beq rs rt offset) (fun t => s.OnlyTransfer t
        (if s.reg rs = s.reg rt then branchAddress s.pc offset else s.pc + 8#32))) ∧
    (IsWordOf (iType 0x05 rs rt offset) (.bne rs rt offset) ∧
      s.TransferEnds (.bne rs rt offset) (fun t => s.OnlyTransfer t
        (if s.reg rs = s.reg rt then s.pc + 8#32 else branchAddress s.pc offset)))

/-- BLEZ, BGTZ, BLTZ, BGEZ: the signed comparison with zero; BLEZ and BGTZ refuse a non-zero `rt` field
(42_branch_jump.md R189 to R192). -/
def Obligations.ZeroBranchesCompareSigned : Prop :=
  ∀ (s : State) (rs other : RegNum) (offset : BitVec 16),
    let x := (s.reg rs).toInt
    let goes : Bool → State → Prop := fun taken t =>
      s.OnlyTransfer t (if taken then branchAddress s.pc offset else s.pc + 8#32)
    (IsWordOf (iType 0x06 rs 0x00 offset) (.blez rs offset) ∧
      s.TransferEnds (.blez rs offset) (goes (decide (x ≤ 0)))) ∧
    (IsWordOf (iType 0x07 rs 0x00 offset) (.bgtz rs offset) ∧
      s.TransferEnds (.bgtz rs offset) (goes (decide (0 < x)))) ∧
    (IsWordOf (iType 0x01 rs 0x00 offset) (.bltz rs offset) ∧
      s.TransferEnds (.bltz rs offset) (goes ((s.reg rs).getLsbD 31))) ∧
    (IsWordOf (iType 0x01 rs 0x01 offset) (.bgez rs offset) ∧
      s.TransferEnds (.bgez rs offset) (goes (!(s.reg rs).getLsbD 31))) ∧
    (other ≠ 0#5 → decodeWord (iType 0x06 rs other offset) = none ∧
      decodeWord (iType 0x07 rs other offset) = none)

/-- BLTZAL and BGEZAL: the link is written whether or not the branch is taken, and the condition is on the
register before the step, register 31 included (42_branch_jump.md R193, R194; the spec's decision D11). -/
def Obligations.LinkBranchesLinkAlways : Prop :=
  ∀ (s : State) (rs : RegNum) (offset : BitVec 16),
    let x := (s.reg rs).toInt
    (IsWordOf (iType 0x01 rs 0x10 offset) (.bltzal rs offset) ∧
      s.TransferEnds (.bltzal rs offset) (fun t => s.OnlyLink t 31#5
        (if x < 0 then branchAddress s.pc offset else s.pc + 8#32))) ∧
    (IsWordOf (iType 0x01 rs 0x11 offset) (.bgezal rs offset) ∧
      s.TransferEnds (.bgezal rs offset) (fun t => s.OnlyLink t 31#5
        (if 0 ≤ x then branchAddress s.pc offset else s.pc + 8#32)))

/-! ### Multiply and divide -/

/-- MULT and MULTU: HI and LO together are the exact product, signed or unsigned (43_muldiv.md R211, R212). -/
def Obligations.MultiplyGivesTheExactProduct : Prop :=
  ∀ (s : State) (rs rt : RegNum),
    (IsWordOf (rType 0x00 rs rt 0 0 0x18) (.mult rs rt) ∧
      ∃ hi lo t, exec (.mult rs rt) s = .next t ∧ s.OnlyHiLo t hi lo ∧
        (hi ++ lo).toInt = (s.reg rs).toInt * (s.reg rt).toInt) ∧
    (IsWordOf (rType 0x00 rs rt 0 0 0x19) (.multu rs rt) ∧
      ∃ hi lo t, exec (.multu rs rt) s = .next t ∧ s.OnlyHiLo t hi lo ∧
        (hi ++ lo).toNat = (s.reg rs).toNat * (s.reg rt).toNat)

/-- DIV and DIVU: quotient and remainder, the signed remainder with the dividend's sign, the one quotient that
does not fit wrapped; a zero divisor is fatal (43_muldiv.md R213, R214; 60_exceptions.md R252: the
spec's decisions D7 and D8). -/
def Obligations.DivideGivesQuotientAndRemainder : Prop :=
  ∀ (s : State) (rs rt : RegNum),
    let a := s.reg rs
    let b := s.reg rt
    IsWordOf (rType 0x00 rs rt 0 0 0x1A) (.div rs rt) ∧
    IsWordOf (rType 0x00 rs rt 0 0 0x1B) (.divu rs rt) ∧
    (b = 0#32 →
      exec (.div rs rt) s = .fault (.divideByZero (encode (.div rs rt))) ∧
      exec (.divu rs rt) s = .fault (.divideByZero (encode (.divu rs rt)))) ∧
    (b ≠ 0#32 →
      (∃ (q r : Int) (t : State), exec (.div rs rt) s = .next t ∧
        s.OnlyHiLo t (BitVec.ofInt 32 r) (BitVec.ofInt 32 q) ∧
        a.toInt = q * b.toInt + r ∧ r.natAbs < b.toInt.natAbs ∧
        (0 < r → 0 < a.toInt) ∧ (r < 0 → a.toInt < 0)) ∧
      (∃ hi lo t, exec (.divu rs rt) s = .next t ∧ s.OnlyHiLo t hi lo ∧
        a.toNat = lo.toNat * b.toNat + hi.toNat ∧ hi.toNat < b.toNat))

/-- MFHI, MFLO, MTHI, MTLO move one word, and the other register of the pair keeps its value
(43_muldiv.md R215 to R218). -/
def Obligations.HiLoMovesTouchOneRegister : Prop :=
  ∀ (s : State) (r : RegNum),
    (IsWordOf (rType 0x00 0 0 r 0 0x10) (.mfhi r) ∧
      ∃ t, exec (.mfhi r) s = .next t ∧ s.OnlyRegister t r s.hi) ∧
    (IsWordOf (rType 0x00 0 0 r 0 0x12) (.mflo r) ∧
      ∃ t, exec (.mflo r) s = .next t ∧ s.OnlyRegister t r s.lo) ∧
    (IsWordOf (rType 0x00 r 0 0 0 0x11) (.mthi r) ∧
      ∃ t, exec (.mthi r) s = .next t ∧ s.OnlyHiLo t (s.reg r) s.lo) ∧
    (IsWordOf (rType 0x00 r 0 0 0 0x13) (.mtlo r) ∧
      ∃ t, exec (.mtlo r) s = .next t ∧ s.OnlyHiLo t s.hi (s.reg r))

/-- MUL: the low word of the product, the same for both readings, HI and LO kept (43_muldiv.md R219: the
spec's decision D9). -/
def Obligations.MulKeepsHiLo : Prop :=
  ∀ (s : State) (rs rt rd : RegNum),
    IsWordOf (rType 0x1C rs rt rd 0 0x02) (.mul rs rt rd) ∧
    ∃ v t, exec (.mul rs rt rd) s = .next t ∧ s.OnlyRegister t rd v ∧
      v = BitVec.ofNat 32 ((s.reg rs).toNat * (s.reg rt).toNat) ∧
      v = BitVec.ofInt 32 ((s.reg rs).toInt * (s.reg rt).toInt)

/-- No instruction but the eight of 10_state.md R31 reads or writes HI or LO: with other values in them each
does the same and keeps them. -/
def Obligations.OtherInstructionsIgnoreHiLo : Prop :=
  ∀ (s : State) (i : Instr) (hi lo : Word),
    (∀ rs rt, i ≠ .mult rs rt) → (∀ rs rt, i ≠ .multu rs rt) → (∀ rs rt, i ≠ .div rs rt) →
    (∀ rs rt, i ≠ .divu rs rt) → (∀ r, i ≠ .mfhi r) → (∀ r, i ≠ .mflo r) → (∀ r, i ≠ .mthi r) →
    (∀ r, i ≠ .mtlo r) →
    (∀ t, exec i s = .next t → s.HiLoKept t ∧
      exec i { s with hi := hi, lo := lo } = .next { t with hi := hi, lo := lo }) ∧
    (∀ f, exec i s = .fault f → exec i { s with hi := hi, lo := lo } = .fault f)

/-! ### System -/

/-- SYNC only advances, whatever its `stype` (44_system.md R231, 20_memory.md R67: the spec's decision D16). -/
def Obligations.SyncOnlyAdvances : Prop :=
  ∀ (s : State) (stype : BitVec 5),
    IsWordOf (rType 0x00 0 0 0 stype 0x0F) (.sync stype) ∧
    ∃ t, exec (.sync stype) s = .next t ∧
      s.RegsKept t ∧ s.HiLoKept t ∧ s.MemKept t ∧ s.SystemKept t ∧ s.Advanced t

/-- The program-break query and an unrecognized number answer in registers 2 and 7 and change nothing else,
whatever the arguments (60_exceptions.md R273, R281).  On a platform with two equal syscall numbers, which R9
forbids, the query wins: that is the model's order of tests (log 12). -/
def Obligations.BreakAndUnrecognizedCallsOnlyReturn : Prop :=
  ∀ (s : State) (code : BitVec 20),
    (s.reg 2#5 = s.params.sysBrk → ∃ t, exec (.syscall code) s = .next t ∧
      s.OnlyReturned t s.params.brkValue 0#32) ∧
    (s.reg 2#5 ∉ s.params.syscallNumbers → ∃ t, exec (.syscall code) s = .next t ∧
      s.OnlyReturned t 0xFFFFFFFF#32 s.params.enosys)

/-- Anonymous mapping (60_exceptions.md R271; rounding past 2^32 is the spec's decision D34): a non-zero
address is accepted verbatim; else the size, rounded up to the least multiple of the page size, is added to
`heap`, whose old value is returned, unless the sum leaves the space or the bound. -/
def Obligations.MappingMovesTheHeapOrFails : Prop :=
  ∀ (s : State) (code : BitVec 20) (size : Nat), s.params.Valid → s.reg 2#5 = s.params.sysMmap →
    size % s.params.pageSize = 0 → (s.reg 5#5).toNat ≤ size →
    size < (s.reg 5#5).toNat + s.params.pageSize →
    let fails := 2 ^ 32 ≤ size ∨ 2 ^ 32 ≤ s.heap.toNat + size ∨
      s.params.heapLimit.toNat < s.heap.toNat + size
    (s.reg 4#5 ≠ 0#32 → ∃ t, exec (.syscall code) s = .next t ∧ s.OnlyReturned t (s.reg 4#5) 0#32) ∧
    (s.reg 4#5 = 0#32 → fails → ∃ t, exec (.syscall code) s = .next t ∧
      s.OnlyReturned t 0xFFFFFFFF#32 s.params.einval) ∧
    (s.reg 4#5 = 0#32 → ¬fails → ∃ t, exec (.syscall code) s = .next t ∧
      s.Returned t s.heap 0#32 ∧ t.heap.toNat = s.heap.toNat + size ∧
      s.MemKept t ∧ s.CursorKept t ∧ t.lastHint = s.lastHint)

/-- Process termination: `exited`, the low 8 bits of the first argument in `exitCode`, registers 2 and 7 not
written, and control advances (60_exceptions.md R272). -/
def Obligations.ExitRecordsTheStatus : Prop :=
  ∀ (s : State) (code : BitVec 20), s.params.Valid → s.reg 2#5 = s.params.sysExit →
    ∃ t, exec (.syscall code) s = .next t ∧
      t.exited = true ∧ t.exitCode.toNat = (s.reg 4#5).toNat % 256 ∧
      s.RegsKept t ∧ s.HiLoKept t ∧ s.MemKept t ∧ t.heap = s.heap ∧ s.CursorKept t ∧
      t.lastHint = s.lastHint ∧ t.stepCount = s.stepCount ∧ t.params = s.params ∧ s.Advanced t

/-- File-descriptor control: the command is tested first, then the descriptor (60_exceptions.md R274). -/
def Obligations.DescriptorControlReportsAccess : Prop :=
  ∀ (s : State) (code : BitVec 20), s.params.Valid → s.reg 2#5 = s.params.sysFcntl →
    let p := s.params
    let fd := s.reg 4#5
    let returns : Word → Word → Prop := fun v e =>
      ∃ t, exec (.syscall code) s = .next t ∧ s.OnlyReturned t v e
    (s.reg 5#5 ≠ p.fGetfl → returns 0xFFFFFFFF#32 p.einval) ∧
    (s.reg 5#5 = p.fGetfl →
      (fd ∈ [p.fdStdin, p.fdPreimageRead, p.fdHintRead] → returns 0#32 0#32) ∧
      (fd ∈ [p.fdStdout, p.fdStderr, p.fdPreimageWrite, p.fdHintWrite] → returns 1#32 0#32) ∧
      (fd ∉ p.descriptors → returns 0xFFFFFFFF#32 p.ebadf))

/-- The reads and writes that move no byte of memory (60_exceptions.md R275, R276, R280; standard streams
and bad descriptors are the spec's decision D25): hint read, standard input, standard output and error,
and every descriptor of the wrong kind or none. -/
def Obligations.ReadsAndWritesThatMoveNoMemory : Prop :=
  ∀ (s : State) (code : BitVec 20), s.params.Valid →
    let p := s.params
    let fd := s.reg 4#5
    let returns : Word → Word → Prop := fun v e =>
      ∃ t, exec (.syscall code) s = .next t ∧ s.OnlyReturned t v e
    (s.reg 2#5 = p.sysRead →
      (fd = p.fdHintRead → returns (s.reg 6#5) 0#32) ∧
      (fd = p.fdStdin → returns 0#32 0#32) ∧
      (fd ∉ [p.fdHintRead, p.fdPreimageRead, p.fdStdin] → returns 0xFFFFFFFF#32 p.ebadf)) ∧
    (s.reg 2#5 = p.sysWrite →
      (fd ∈ [p.fdStdout, p.fdStderr] → returns (s.reg 6#5) 0#32) ∧
      (fd ∉ [p.fdHintWrite, p.fdPreimageWrite, p.fdStdout, p.fdStderr] →
        returns 0xFFFFFFFF#32 p.ebadf))

/-- Preimage read (60_exceptions.md R279; the cap at 0 is the spec's decision D36): the next bytes of length
prefix and content, as many as asked for, as fit up to the next word boundary and as remain, go to memory;
the cursor moves by their number (modulo 2^32, log 18).  The prefix of a content of 2^64 bytes or more is free
(log 5). -/
def Obligations.PreimageReadStreamsTheData : Prop :=
  ∀ (s : State) (code : BitVec 20), s.params.Valid → s.reg 2#5 = s.params.sysRead →
    s.reg 4#5 = s.params.fdPreimageRead →
    let content := s.params.oracle s.preimageKey
    let a := s.reg 5#5
    let o := s.preimageOffset.toNat
    let c := min (s.reg 6#5).toNat (min (4 - a.toNat % 4) (content.length + 8 - o))
    (0 < c → s.mapped (wordBase a) = true) →
    ∃ (lengthPart : List Byte) (t : State), lengthPart.length = 8 ∧
      (content.length < 2 ^ 64 →
        lengthPart.foldl (fun n b => n * 256 + b.toNat) 0 = content.length) ∧
      exec (.syscall code) s = .next t ∧ s.Returned t (BitVec.ofNat 32 c) 0#32 ∧
      s.BytesStored t a (((lengthPart ++ content).drop o).take c) ∧
      (((lengthPart ++ content).drop o).take c).length = c ∧
      t.preimageOffset.toNat = (o + c) % 2 ^ 32 ∧ t.preimageKey = s.preimageKey ∧
      t.heap = s.heap ∧ t.lastHint = s.lastHint

/-- Preimage write (60_exceptions.md R277; `KEY_UPDATE` is the spec's decision D33): at most the bytes up to
the next word boundary make the new key, the cursor goes back to 0 also for no byte, memory is only read. -/
def Obligations.PreimageWriteSelectsTheKey : Prop :=
  ∀ (s : State) (code : BitVec 20), s.params.Valid → s.reg 2#5 = s.params.sysWrite →
    s.reg 4#5 = s.params.fdPreimageWrite →
    let a := s.reg 5#5
    let c := min (s.reg 6#5).toNat (4 - a.toNat % 4)
    (0 < c → s.mapped (wordBase a) = true) →
    ∃ (bytes : List Byte) (t : State), bytes.length = c ∧
      (∀ k (h : k < bytes.length), bytes[k] = s.mem.byteAt (a + BitVec.ofNat 32 k)) ∧
      exec (.syscall code) s = .next t ∧ s.Returned t (BitVec.ofNat 32 c) 0#32 ∧
      t.preimageKey = s.params.keyUpdate s.preimageKey bytes ∧
      (c = 0 → t.preimageKey = s.preimageKey) ∧ t.preimageOffset = 0#32 ∧
      s.MemKept t ∧ t.heap = s.heap ∧ t.lastHint = s.lastHint

/-- Hint write: the bytes of the buffer, addresses wrapping, become `lastHint`; memory and the cursor are kept
(60_exceptions.md R278). -/
def Obligations.HintWriteRecordsTheHint : Prop :=
  ∀ (s : State) (code : BitVec 20), s.params.Valid → s.reg 2#5 = s.params.sysWrite →
    s.reg 4#5 = s.params.fdHintWrite →
    (∀ k < (s.reg 6#5).toNat, s.mapped (wordBase (s.reg 5#5 + BitVec.ofNat 32 k)) = true) →
    ∃ t, exec (.syscall code) s = .next t ∧ s.Returned t (s.reg 6#5) 0#32 ∧
      t.lastHint.length = (s.reg 6#5).toNat ∧
      (∀ k (h : k < t.lastHint.length),
        t.lastHint[k] = s.mem.byteAt (s.reg 5#5 + BitVec.ofNat 32 k)) ∧
      s.MemKept t ∧ t.heap = s.heap ∧ s.CursorKept t

end
end

