-- ==== Sys2Proof/Laws/Decode.lean ====
section
/-! SUPPORT. The decoder's table, and the fields and masked bits of a word put together from the formats. -/

namespace Sys2Proof

/-! ### Fields of a format -/

theorem extract_left {n m : Nat} (x : BitVec n) (y : BitVec m) (a l : Nat) (h : m ≤ a) :
    (x ++ y).extractLsb' a l = x.extractLsb' (a - m) l :=
  BitVec.extractLsb'_append_eq_of_le h

theorem extract_right {n m : Nat} (x : BitVec n) (y : BitVec m) : (x ++ y).extractLsb' 0 m = y := by
  rw [BitVec.extractLsb'_append_eq_of_add_le (by omega)]
  exact BitVec.extractLsb'_eq_self

section
variable (op op' : BitVec 6) (rs rt rd sa rs' rt' rd' sa' : BitVec 5) (funct funct' : BitVec 6)
  (imm imm' : BitVec 16) (index index' : BitVec 26) (code code' : BitVec 20)

@[simp] theorem functField_rType : functField (rType op rs rt rd sa funct) = funct := by
  unfold functField rType
  exact extract_right _ _

@[simp] theorem saField_rType : saField (rType op rs rt rd sa funct) = sa := by
  unfold saField rType
  rw [extract_left _ _ _ _ (by decide)]
  exact extract_right _ _

@[simp] theorem rdField_rType : rdField (rType op rs rt rd sa funct) = rd := by
  unfold rdField rType
  rw [extract_left _ _ _ _ (by decide)]
  rw [extract_left _ _ _ _ (by decide)]
  exact extract_right _ _

@[simp] theorem rtField_rType : rtField (rType op rs rt rd sa funct) = rt := by
  unfold rtField rType
  rw [extract_left _ _ _ _ (by decide)]
  rw [extract_left _ _ _ _ (by decide)]
  rw [extract_left _ _ _ _ (by decide)]
  exact extract_right _ _

@[simp] theorem rsField_rType : rsField (rType op rs rt rd sa funct) = rs := by
  unfold rsField rType
  rw [extract_left _ _ _ _ (by decide)]
  rw [extract_left _ _ _ _ (by decide)]
  rw [extract_left _ _ _ _ (by decide)]
  rw [extract_left _ _ _ _ (by decide)]
  exact extract_right _ _

@[simp] theorem opField_rType : opField (rType op rs rt rd sa funct) = op := by
  unfold opField rType
  rw [extract_left _ _ _ _ (by decide)]
  rw [extract_left _ _ _ _ (by decide)]
  rw [extract_left _ _ _ _ (by decide)]
  rw [extract_left _ _ _ _ (by decide)]
  rw [extract_left _ _ _ _ (by decide)]
  exact BitVec.extractLsb'_eq_self

@[simp] theorem immField_iType : immField (iType op rs rt imm) = imm := by
  unfold immField iType
  exact extract_right _ _

@[simp] theorem rtField_iType : rtField (iType op rs rt imm) = rt := by
  unfold rtField iType
  rw [extract_left _ _ _ _ (by decide)]
  exact extract_right _ _

@[simp] theorem rsField_iType : rsField (iType op rs rt imm) = rs := by
  unfold rsField iType
  rw [extract_left _ _ _ _ (by decide)]
  rw [extract_left _ _ _ _ (by decide)]
  exact extract_right _ _

@[simp] theorem opField_iType : opField (iType op rs rt imm) = op := by
  unfold opField iType
  rw [extract_left _ _ _ _ (by decide)]
  rw [extract_left _ _ _ _ (by decide)]
  rw [extract_left _ _ _ _ (by decide)]
  exact BitVec.extractLsb'_eq_self

@[simp] theorem indexField_jType : indexField (jType op index) = index := by
  unfold indexField jType
  exact extract_right _ _

@[simp] theorem opField_jType : opField (jType op index) = op := by
  unfold opField jType
  rw [extract_left _ _ _ _ (by decide)]
  exact BitVec.extractLsb'_eq_self

@[simp] theorem functField_codeType : functField (codeType op code funct) = funct := by
  unfold functField codeType
  exact extract_right _ _

@[simp] theorem codeField_codeType : codeField (codeType op code funct) = code := by
  unfold codeField codeType
  rw [extract_left _ _ _ _ (by decide)]
  exact extract_right _ _

@[simp] theorem opField_codeType : opField (codeType op code funct) = op := by
  unfold opField codeType
  rw [extract_left _ _ _ _ (by decide)]
  rw [extract_left _ _ _ _ (by decide)]
  exact BitVec.extractLsb'_eq_self

/-! ### A format under a mask -/

theorem and_ones5 : ∀ x : BitVec 5, x &&& 0x1f#5 = x := by decide

theorem and_ones6 : ∀ x : BitVec 6, x &&& 0x3f#6 = x := by decide

theorem rType_and : rType op rs rt rd sa funct &&& rType op' rs' rt' rd' sa' funct' =
    rType (op &&& op') (rs &&& rs') (rt &&& rt') (rd &&& rd') (sa &&& sa') (funct &&& funct') := by
  unfold rType
  iterate 5 rw [BitVec.and_append]

theorem iType_and : iType op rs rt imm &&& iType op' rs' rt' imm' =
    iType (op &&& op') (rs &&& rs') (rt &&& rt') (imm &&& imm') := by
  unfold iType
  iterate 3 rw [BitVec.and_append]

theorem jType_and : jType op index &&& jType op' index' = jType (op &&& op') (index &&& index') := by
  unfold jType
  rw [BitVec.and_append]

theorem codeType_and : codeType op code funct &&& codeType op' code' funct' =
    codeType (op &&& op') (code &&& code') (funct &&& funct') := by
  unfold codeType
  iterate 2 rw [BitVec.and_append]

theorem rType_mask_FC0007FF : rType op rs rt rd sa funct &&& 0xFC0007FF#32 = rType op 0#5 0#5 0#5 sa funct := by
  have h : 0xFC0007FF#32 = rType 0x3f#6 0#5 0#5 0#5 0x1f#5 0x3f#6 := by decide
  rw [h, rType_and]
  congr 1 <;> simp only [BitVec.and_zero, and_ones5, and_ones6]

theorem iType_mask_FC000000 : iType op rs rt imm &&& 0xFC000000#32 = iType op 0#5 0#5 0#16 := by
  have h : 0xFC000000#32 = iType 0x3f#6 0#5 0#5 0#16 := by decide
  rw [h, iType_and]
  congr 1 <;> simp only [BitVec.and_zero, and_ones6]

theorem iType_mask_FFE00000 : iType op rs rt imm &&& 0xFFE00000#32 = iType op rs 0#5 0#16 := by
  have h : 0xFFE00000#32 = iType 0x3f#6 0x1f#5 0#5 0#16 := by decide
  rw [h, iType_and]
  congr 1 <;> simp only [BitVec.and_zero, and_ones5, and_ones6]

theorem rType_mask_FFE0003F : rType op rs rt rd sa funct &&& 0xFFE0003F#32 = rType op rs 0#5 0#5 0#5 funct := by
  have h : 0xFFE0003F#32 = rType 0x3f#6 0x1f#5 0#5 0#5 0#5 0x3f#6 := by decide
  rw [h, rType_and]
  congr 1 <;> simp only [BitVec.and_zero, and_ones5, and_ones6]

theorem jType_mask_FC000000 : jType op index &&& 0xFC000000#32 = jType op 0#26 := by
  have h : 0xFC000000#32 = jType 0x3f#6 0#26 := by decide
  rw [h, jType_and]
  congr 1 <;> simp only [BitVec.and_zero, and_ones6]

theorem rType_mask_FC1FFFFF : rType op rs rt rd sa funct &&& 0xFC1FFFFF#32 = rType op 0#5 rt rd sa funct := by
  have h : 0xFC1FFFFF#32 = rType 0x3f#6 0#5 0x1f#5 0x1f#5 0x1f#5 0x3f#6 := by decide
  rw [h, rType_and]
  congr 1 <;> simp only [BitVec.and_zero, and_ones5, and_ones6]

theorem rType_mask_FC1F07FF : rType op rs rt rd sa funct &&& 0xFC1F07FF#32 = rType op 0#5 rt 0#5 sa funct := by
  have h : 0xFC1F07FF#32 = rType 0x3f#6 0#5 0x1f#5 0#5 0x1f#5 0x3f#6 := by decide
  rw [h, rType_and]
  congr 1 <;> simp only [BitVec.and_zero, and_ones5, and_ones6]

theorem iType_mask_FC1F0000 : iType op rs rt imm &&& 0xFC1F0000#32 = iType op 0#5 rt 0#16 := by
  have h : 0xFC1F0000#32 = iType 0x3f#6 0#5 0x1f#5 0#16 := by decide
  rw [h, iType_and]
  congr 1 <;> simp only [BitVec.and_zero, and_ones5, and_ones6]

theorem rType_mask_FC00FFFF : rType op rs rt rd sa funct &&& 0xFC00FFFF#32 = rType op 0#5 0#5 rd sa funct := by
  have h : 0xFC00FFFF#32 = rType 0x3f#6 0#5 0#5 0x1f#5 0x1f#5 0x3f#6 := by decide
  rw [h, rType_and]
  congr 1 <;> simp only [BitVec.and_zero, and_ones5, and_ones6]

theorem rType_mask_FFFF07FF : rType op rs rt rd sa funct &&& 0xFFFF07FF#32 = rType op rs rt 0#5 sa funct := by
  have h : 0xFFFF07FF#32 = rType 0x3f#6 0x1f#5 0x1f#5 0#5 0x1f#5 0x3f#6 := by decide
  rw [h, rType_and]
  congr 1 <;> simp only [BitVec.and_zero, and_ones5, and_ones6]

theorem codeType_mask_FC00003F : codeType op code funct &&& 0xFC00003F#32 = codeType op 0#20 funct := by
  have h : 0xFC00003F#32 = codeType 0x3f#6 0#20 0x3f#6 := by decide
  rw [h, codeType_and]
  congr 1 <;> simp only [BitVec.and_zero, and_ones6]

theorem rType_mask_FFFFF83F : rType op rs rt rd sa funct &&& 0xFFFFF83F#32 = rType op rs rt rd 0#5 funct := by
  have h : 0xFFFFF83F#32 = rType 0x3f#6 0x1f#5 0x1f#5 0x1f#5 0#5 0x3f#6 := by decide
  rw [h, rType_and]
  congr 1 <;> simp only [BitVec.and_zero, and_ones5, and_ones6]

end

/-! ### The table -/

/-- Two different rows differ in a bit both masks cover (R86). -/
theorem opcodeTable_disjoint :
    opcodeTable.Pairwise (fun r q => r.mask &&& q.mask &&& (r.value ^^^ q.value) ≠ 0#32) := by
  decide +kernel

/-- A word that two masks and matches admit has the same bits under both. -/
theorem not_both_admit {r q : Row} (h : r.mask &&& q.mask &&& (r.value ^^^ q.value) ≠ 0#32) (w : Word)
    (hr : r.admits w = true) : q.admits w = false := by
  by_contra hq
  rw [Bool.not_eq_false] at hq
  simp only [Row.admits, Bool.and_eq_true, beq_iff_eq] at hr hq
  apply h
  rw [← hr.1, ← hq.1]
  ext i hi
  simp only [BitVec.getElem_and, BitVec.getElem_xor, BitVec.getElem_zero]
  cases w[i] <;> cases r.mask[i] <;> cases q.mask[i] <;> rfl

/-- Of a table of disjoint rows the first that admits a word is the only one. -/
theorem find_of_admits (t : List Row)
    (hd : t.Pairwise (fun r q => r.mask &&& q.mask &&& (r.value ^^^ q.value) ≠ 0#32))
    {r : Row} (hm : r ∈ t) (w : Word) (ha : r.admits w = true) :
    t.find? (fun q => q.admits w) = some r := by
  induction t with
  | nil => cases hm
  | cons q rest ih =>
    obtain ⟨hq, hrest⟩ := List.pairwise_cons.mp hd
    rcases List.mem_cons.mp hm with rfl | hm
    · exact List.find?_cons_of_pos ha
    · have : q.admits w = false := by
        cases hqw : q.admits w with
        | false => rfl
        | true => rw [not_both_admit (hq r hm) w hqw] at ha; cases ha
      rw [List.find?_cons_of_neg (by simp [this])]
      exact ih hrest hm

/-! ### A word is its fields, and a format determines them -/

theorem rType_fields (w : Word) :
    rType (opField w) (rsField w) (rtField w) (rdField w) (saField w) (functField w) = w := by
  unfold rType opField rsField rtField rdField saField functField
  iterate 5 rw [BitVec.extractLsb'_append_extractLsb'_eq_extractLsb' (by rfl)]
  simp

theorem iType_fields (w : Word) :
    iType (opField w) (rsField w) (rtField w) (immField w) = w := by
  unfold iType opField rsField rtField immField
  iterate 3 rw [BitVec.extractLsb'_append_extractLsb'_eq_extractLsb' (by rfl)]
  simp

theorem jType_fields (w : Word) : jType (opField w) (indexField w) = w := by
  unfold jType opField indexField
  rw [BitVec.extractLsb'_append_extractLsb'_eq_extractLsb' (by rfl)]
  simp

theorem codeType_fields (w : Word) : codeType (opField w) (codeField w) (functField w) = w := by
  unfold codeType opField codeField functField
  iterate 2 rw [BitVec.extractLsb'_append_extractLsb'_eq_extractLsb' (by rfl)]
  simp

theorem rType_inj {op op' : BitVec 6} {rs rs' rt rt' rd rd' : RegNum} {sa sa' : BitVec 5}
    {funct funct' : BitVec 6} (h : rType op rs rt rd sa funct = rType op' rs' rt' rd' sa' funct') :
    op = op' ∧ rs = rs' ∧ rt = rt' ∧ rd = rd' ∧ sa = sa' ∧ funct = funct' := by
  refine ⟨?_, ?_, ?_, ?_, ?_, ?_⟩
  · simpa using congrArg opField h
  · simpa using congrArg rsField h
  · simpa using congrArg rtField h
  · simpa using congrArg rdField h
  · simpa using congrArg saField h
  · simpa using congrArg functField h

theorem iType_inj {op op' : BitVec 6} {rs rs' rt rt' : RegNum} {imm imm' : BitVec 16}
    (h : iType op rs rt imm = iType op' rs' rt' imm') :
    op = op' ∧ rs = rs' ∧ rt = rt' ∧ imm = imm' := by
  refine ⟨?_, ?_, ?_, ?_⟩
  · simpa using congrArg opField h
  · simpa using congrArg rsField h
  · simpa using congrArg rtField h
  · simpa using congrArg immField h

theorem jType_inj {op op' : BitVec 6} {index index' : BitVec 26}
    (h : jType op index = jType op' index') : op = op' ∧ index = index' := by
  constructor
  · simpa using congrArg opField h
  · simpa using congrArg indexField h

theorem codeType_inj {op op' : BitVec 6} {code code' : BitVec 20} {funct funct' : BitVec 6}
    (h : codeType op code funct = codeType op' code' funct') :
    op = op' ∧ code = code' ∧ funct = funct' := by
  refine ⟨?_, ?_, ?_⟩
  · simpa using congrArg opField h
  · simpa using congrArg codeField h
  · simpa using congrArg functField h

/-- The decoder answers the instruction of the row that admits the word. -/
theorem decodeWord_of_row {r : Row} (hm : r ∈ opcodeTable) {w : Word} (ha : r.admits w = true) :
    decodeWord w = some (r.build w) := by
  unfold decodeWord
  rw [find_of_admits opcodeTable opcodeTable_disjoint hm w ha]
  rfl

/-- What the decoder answers comes from a row of the table. -/
theorem row_of_decodeWord {w : Word} {i : Instr} (h : decodeWord w = some i) :
    ∃ r ∈ opcodeTable, r.admits w = true ∧ r.build w = i := by
  unfold decodeWord at h
  obtain ⟨r, hr, hb⟩ := Option.map_eq_some_iff.mp h
  exact ⟨r, List.mem_of_find?_eq_some hr, by simpa using List.find?_some hr, hb⟩

end Sys2Proof
end

