-- ==== Sys2Proof/Laws/State.lean ====
section
/-! SUPPORT. What each state update does to each field: one lemma per field and update, so that no proof unfolds a
record update. -/

namespace Sys2Proof.Machine.State

variable (s : State)

/-! ### advance -/

@[simp] theorem advance_regs : s.advance.regs = s.regs := rfl
@[simp] theorem advance_pc : s.advance.pc = s.nextPc := rfl
@[simp] theorem advance_nextPc : s.advance.nextPc = s.nextPc + 4#32 := rfl
@[simp] theorem advance_hi : s.advance.hi = s.hi := rfl
@[simp] theorem advance_lo : s.advance.lo = s.lo := rfl
@[simp] theorem advance_heap : s.advance.heap = s.heap := rfl
@[simp] theorem advance_exited : s.advance.exited = s.exited := rfl
@[simp] theorem advance_exitCode : s.advance.exitCode = s.exitCode := rfl
@[simp] theorem advance_stepCount : s.advance.stepCount = s.stepCount := rfl
@[simp] theorem advance_preimageKey : s.advance.preimageKey = s.preimageKey := rfl
@[simp] theorem advance_preimageOffset : s.advance.preimageOffset = s.preimageOffset := rfl
@[simp] theorem advance_lastHint : s.advance.lastHint = s.lastHint := rfl
@[simp] theorem advance_mem : s.advance.mem = s.mem := rfl
@[simp] theorem advance_params : s.advance.params = s.params := rfl

/-! ### transfer -/

@[simp] theorem transfer_regs (g : Word) : (s.transfer g).regs = s.regs := rfl
@[simp] theorem transfer_pc (g : Word) : (s.transfer g).pc = s.nextPc := rfl
@[simp] theorem transfer_nextPc (g : Word) : (s.transfer g).nextPc = g := rfl
@[simp] theorem transfer_hi (g : Word) : (s.transfer g).hi = s.hi := rfl
@[simp] theorem transfer_lo (g : Word) : (s.transfer g).lo = s.lo := rfl
@[simp] theorem transfer_heap (g : Word) : (s.transfer g).heap = s.heap := rfl
@[simp] theorem transfer_exited (g : Word) : (s.transfer g).exited = s.exited := rfl
@[simp] theorem transfer_exitCode (g : Word) : (s.transfer g).exitCode = s.exitCode := rfl
@[simp] theorem transfer_stepCount (g : Word) : (s.transfer g).stepCount = s.stepCount := rfl
@[simp] theorem transfer_preimageKey (g : Word) : (s.transfer g).preimageKey = s.preimageKey := rfl
@[simp] theorem transfer_preimageOffset (g : Word) : (s.transfer g).preimageOffset = s.preimageOffset := rfl
@[simp] theorem transfer_lastHint (g : Word) : (s.transfer g).lastHint = s.lastHint := rfl
@[simp] theorem transfer_mem (g : Word) : (s.transfer g).mem = s.mem := rfl
@[simp] theorem transfer_params (g : Word) : (s.transfer g).params = s.params := rfl

/-! ### tick -/

@[simp] theorem tick_regs : s.tick.regs = s.regs := rfl
@[simp] theorem tick_pc : s.tick.pc = s.pc := rfl
@[simp] theorem tick_nextPc : s.tick.nextPc = s.nextPc := rfl
@[simp] theorem tick_hi : s.tick.hi = s.hi := rfl
@[simp] theorem tick_lo : s.tick.lo = s.lo := rfl
@[simp] theorem tick_heap : s.tick.heap = s.heap := rfl
@[simp] theorem tick_exited : s.tick.exited = s.exited := rfl
@[simp] theorem tick_exitCode : s.tick.exitCode = s.exitCode := rfl
@[simp] theorem tick_stepCount : s.tick.stepCount = s.stepCount + 1#64 := rfl
@[simp] theorem tick_preimageKey : s.tick.preimageKey = s.preimageKey := rfl
@[simp] theorem tick_preimageOffset : s.tick.preimageOffset = s.preimageOffset := rfl
@[simp] theorem tick_lastHint : s.tick.lastHint = s.lastHint := rfl
@[simp] theorem tick_mem : s.tick.mem = s.mem := rfl
@[simp] theorem tick_params : s.tick.params = s.params := rfl

/-! ### storeWord -/

@[simp] theorem storeWord_regs (a v : Word) : (s.storeWord a v).regs = s.regs := rfl
@[simp] theorem storeWord_pc (a v : Word) : (s.storeWord a v).pc = s.pc := rfl
@[simp] theorem storeWord_nextPc (a v : Word) : (s.storeWord a v).nextPc = s.nextPc := rfl
@[simp] theorem storeWord_hi (a v : Word) : (s.storeWord a v).hi = s.hi := rfl
@[simp] theorem storeWord_lo (a v : Word) : (s.storeWord a v).lo = s.lo := rfl
@[simp] theorem storeWord_heap (a v : Word) : (s.storeWord a v).heap = s.heap := rfl
@[simp] theorem storeWord_exited (a v : Word) : (s.storeWord a v).exited = s.exited := rfl
@[simp] theorem storeWord_exitCode (a v : Word) : (s.storeWord a v).exitCode = s.exitCode := rfl
@[simp] theorem storeWord_stepCount (a v : Word) : (s.storeWord a v).stepCount = s.stepCount := rfl
@[simp] theorem storeWord_preimageKey (a v : Word) : (s.storeWord a v).preimageKey = s.preimageKey := rfl
@[simp] theorem storeWord_preimageOffset (a v : Word) : (s.storeWord a v).preimageOffset = s.preimageOffset := rfl
@[simp] theorem storeWord_lastHint (a v : Word) : (s.storeWord a v).lastHint = s.lastHint := rfl
@[simp] theorem storeWord_mem (a v : Word) : (s.storeWord a v).mem = s.mem.writeWord a v := rfl
@[simp] theorem storeWord_params (a v : Word) : (s.storeWord a v).params = s.params := rfl

/-! ### writeHiLo -/

@[simp] theorem writeHiLo_regs (h l : Word) : (s.writeHiLo h l).regs = s.regs := rfl
@[simp] theorem writeHiLo_pc (h l : Word) : (s.writeHiLo h l).pc = s.pc := rfl
@[simp] theorem writeHiLo_nextPc (h l : Word) : (s.writeHiLo h l).nextPc = s.nextPc := rfl
@[simp] theorem writeHiLo_hi (h l : Word) : (s.writeHiLo h l).hi = h := rfl
@[simp] theorem writeHiLo_lo (h l : Word) : (s.writeHiLo h l).lo = l := rfl
@[simp] theorem writeHiLo_heap (h l : Word) : (s.writeHiLo h l).heap = s.heap := rfl
@[simp] theorem writeHiLo_exited (h l : Word) : (s.writeHiLo h l).exited = s.exited := rfl
@[simp] theorem writeHiLo_exitCode (h l : Word) : (s.writeHiLo h l).exitCode = s.exitCode := rfl
@[simp] theorem writeHiLo_stepCount (h l : Word) : (s.writeHiLo h l).stepCount = s.stepCount := rfl
@[simp] theorem writeHiLo_preimageKey (h l : Word) : (s.writeHiLo h l).preimageKey = s.preimageKey := rfl
@[simp] theorem writeHiLo_preimageOffset (h l : Word) : (s.writeHiLo h l).preimageOffset = s.preimageOffset := rfl
@[simp] theorem writeHiLo_lastHint (h l : Word) : (s.writeHiLo h l).lastHint = s.lastHint := rfl
@[simp] theorem writeHiLo_mem (h l : Word) : (s.writeHiLo h l).mem = s.mem := rfl
@[simp] theorem writeHiLo_params (h l : Word) : (s.writeHiLo h l).params = s.params := rfl

/-! ### setReg -/

@[simp] theorem setReg_pc (r : RegNum) (v : Word) : (s.setReg r v).pc = s.pc := by unfold State.setReg; split <;> rfl
@[simp] theorem setReg_nextPc (r : RegNum) (v : Word) : (s.setReg r v).nextPc = s.nextPc := by unfold State.setReg; split <;> rfl
@[simp] theorem setReg_hi (r : RegNum) (v : Word) : (s.setReg r v).hi = s.hi := by unfold State.setReg; split <;> rfl
@[simp] theorem setReg_lo (r : RegNum) (v : Word) : (s.setReg r v).lo = s.lo := by unfold State.setReg; split <;> rfl
@[simp] theorem setReg_heap (r : RegNum) (v : Word) : (s.setReg r v).heap = s.heap := by unfold State.setReg; split <;> rfl
@[simp] theorem setReg_exited (r : RegNum) (v : Word) : (s.setReg r v).exited = s.exited := by unfold State.setReg; split <;> rfl
@[simp] theorem setReg_exitCode (r : RegNum) (v : Word) : (s.setReg r v).exitCode = s.exitCode := by unfold State.setReg; split <;> rfl
@[simp] theorem setReg_stepCount (r : RegNum) (v : Word) : (s.setReg r v).stepCount = s.stepCount := by unfold State.setReg; split <;> rfl
@[simp] theorem setReg_preimageKey (r : RegNum) (v : Word) : (s.setReg r v).preimageKey = s.preimageKey := by unfold State.setReg; split <;> rfl
@[simp] theorem setReg_preimageOffset (r : RegNum) (v : Word) : (s.setReg r v).preimageOffset = s.preimageOffset := by unfold State.setReg; split <;> rfl
@[simp] theorem setReg_lastHint (r : RegNum) (v : Word) : (s.setReg r v).lastHint = s.lastHint := by unfold State.setReg; split <;> rfl
@[simp] theorem setReg_mem (r : RegNum) (v : Word) : (s.setReg r v).mem = s.mem := by unfold State.setReg; split <;> rfl
@[simp] theorem setReg_params (r : RegNum) (v : Word) : (s.setReg r v).params = s.params := by unfold State.setReg; split <;> rfl

/-! ### branchIf -/

@[simp] theorem branchIf_regs (c : Bool) (g : Word) : (s.branchIf c g).regs = s.regs := by cases c <;> rfl
@[simp] theorem branchIf_pc (c : Bool) (g : Word) : (s.branchIf c g).pc = s.nextPc := by cases c <;> rfl
@[simp] theorem branchIf_nextPc (c : Bool) (g : Word) : (s.branchIf c g).nextPc = if c then g else s.nextPc + 4#32 := by cases c <;> rfl
@[simp] theorem branchIf_hi (c : Bool) (g : Word) : (s.branchIf c g).hi = s.hi := by cases c <;> rfl
@[simp] theorem branchIf_lo (c : Bool) (g : Word) : (s.branchIf c g).lo = s.lo := by cases c <;> rfl
@[simp] theorem branchIf_heap (c : Bool) (g : Word) : (s.branchIf c g).heap = s.heap := by cases c <;> rfl
@[simp] theorem branchIf_exited (c : Bool) (g : Word) : (s.branchIf c g).exited = s.exited := by cases c <;> rfl
@[simp] theorem branchIf_exitCode (c : Bool) (g : Word) : (s.branchIf c g).exitCode = s.exitCode := by cases c <;> rfl
@[simp] theorem branchIf_stepCount (c : Bool) (g : Word) : (s.branchIf c g).stepCount = s.stepCount := by cases c <;> rfl
@[simp] theorem branchIf_preimageKey (c : Bool) (g : Word) : (s.branchIf c g).preimageKey = s.preimageKey := by cases c <;> rfl
@[simp] theorem branchIf_preimageOffset (c : Bool) (g : Word) : (s.branchIf c g).preimageOffset = s.preimageOffset := by cases c <;> rfl
@[simp] theorem branchIf_lastHint (c : Bool) (g : Word) : (s.branchIf c g).lastHint = s.lastHint := by cases c <;> rfl
@[simp] theorem branchIf_mem (c : Bool) (g : Word) : (s.branchIf c g).mem = s.mem := by cases c <;> rfl
@[simp] theorem branchIf_params (c : Bool) (g : Word) : (s.branchIf c g).params = s.params := by cases c <;> rfl

/-! ### Registers -/

@[simp] theorem reg_zero : s.reg 0#5 = 0#32 := rfl

@[simp] theorem setReg_zero (v : Word) : s.setReg 0#5 v = s := rfl

/-- A read after a write: the value written, or what was there; register 0 stays 0. -/
@[simp] theorem reg_setReg (r q : RegNum) (v : Word) :
    (s.setReg r v).reg q = if q = r ∧ q ≠ 0#5 then v else s.reg q := by
  unfold setReg reg
  by_cases hq : q = 0#5
  · simp [hq]
  · by_cases hr : r = 0#5
    · simp [hr, hq]
    · by_cases h : q = r
      · subst h; simp [hq]
      · have : r.toNat ≠ q.toNat := fun e => h (BitVec.eq_of_toNat_eq e.symm)
        simp [hq, hr, h, this]

/-- A write never touches `registers[0]`. -/
@[simp] theorem setReg_regs_zero (r : RegNum) (v : Word) : (s.setReg r v).regs[0] = s.regs[0] := by
  unfold setReg
  split
  · rfl
  · rename_i h
    have : r.toNat ≠ 0 := fun e => h (BitVec.eq_of_toNat_eq e)
    simp [this]

@[simp] theorem reg_advance (r : RegNum) : s.advance.reg r = s.reg r := rfl
@[simp] theorem reg_transfer (g : Word) (r : RegNum) : (s.transfer g).reg r = s.reg r := rfl
@[simp] theorem reg_tick (r : RegNum) : s.tick.reg r = s.reg r := rfl
@[simp] theorem reg_storeWord (a v : Word) (r : RegNum) : (s.storeWord a v).reg r = s.reg r := rfl
@[simp] theorem reg_writeHiLo (h l : Word) (r : RegNum) : (s.writeHiLo h l).reg r = s.reg r := rfl
@[simp] theorem reg_branchIf (c : Bool) (g : Word) (r : RegNum) : (s.branchIf c g).reg r = s.reg r := by
  cases c <;> rfl

/-! ### What the Syscall Layer's answer does -/

@[simp] theorem apply_pc (r : SyscallResponse) : (s.apply r).pc = s.pc := by
  cases r <;> simp [apply]
@[simp] theorem apply_nextPc (r : SyscallResponse) : (s.apply r).nextPc = s.nextPc := by
  cases r <;> simp [apply]
@[simp] theorem apply_hi (r : SyscallResponse) : (s.apply r).hi = s.hi := by
  cases r <;> simp [apply]
@[simp] theorem apply_lo (r : SyscallResponse) : (s.apply r).lo = s.lo := by
  cases r <;> simp [apply]
@[simp] theorem apply_stepCount (r : SyscallResponse) : (s.apply r).stepCount = s.stepCount := by
  cases r <;> simp [apply]
@[simp] theorem apply_params (r : SyscallResponse) : (s.apply r).params = s.params := by
  cases r <;> simp [apply]

/-- Registers after an answer: only 2 and 7 can change. -/
theorem reg_apply_ret (v0 a3 : Word) (e : LayerEffect) (r : RegNum) :
    (s.apply (.ret v0 a3 e)).reg r = if r = 7#5 then a3 else if r = 2#5 then v0 else s.reg r := by
  have : (s.apply (.ret v0 a3 e)).reg r = ((s.setReg 2#5 v0).setReg 7#5 a3).reg r := rfl
  rw [this, reg_setReg, reg_setReg]
  by_cases h7 : r = 7#5
  · subst h7; simp
  · by_cases h2 : r = 2#5
    · subst h2; simp
    · simp [h7, h2]

@[simp] theorem reg_apply_exit (code : Word) (r : RegNum) : (s.apply (.exit code)).reg r = s.reg r := rfl

@[simp] theorem apply_regs_zero (r : SyscallResponse) : (s.apply r).regs[0] = s.regs[0] := by
  cases r with
  | exit c => rfl
  | ret v0 a3 e =>
    have : (s.apply (.ret v0 a3 e)).regs = ((s.setReg 2#5 v0).setReg 7#5 a3).regs := rfl
    simp [this]

/-! ### Host access (70_reset_and_hazards.md R293) -/

@[simp] theorem launch_pc (e : Word) : (s.launch e).pc = e := rfl
@[simp] theorem launch_nextPc (e : Word) : (s.launch e).nextPc = e + 4#32 := rfl
@[simp] theorem launch_mem (e : Word) : (s.launch e).mem = s.mem := rfl
@[simp] theorem withFetchWord_pc (n w : Nat) : (s.withFetchWord n w).pc = s.pc := rfl
@[simp] theorem withFetchWord_mem (n w : Nat) :
    (s.withFetchWord n w).mem = s.mem.writeWord s.pc (BitVec.ofNat 32 (w % 2 ^ n)) := rfl

end Sys2Proof.Machine.State
end

