-- ==== Sys2Proof/Laws/Memory.lean ====
section
/-! SUPPORT. Memory: what a read gives after a write, and that every operation keeps the canonical form. -/

namespace Sys2Proof.Machine.Memory

/-! ### One byte -/

@[simp] theorem read_nil (x : Nat) : Memory.read [] x = 0#8 := rfl

theorem read_cons (k : Nat) (v : Byte) (m : Memory) (x : Nat) :
    Memory.read ((k, v) :: m) x = if k = x then v else Memory.read m x := rfl

theorem read_eq_zero_of_absent (m : Memory) (a : Nat) (h : ∀ c ∈ m, c.1 ≠ a) : m.read a = 0#8 := by
  induction m with
  | nil => rfl
  | cons c rest ih =>
    obtain ⟨k, v⟩ := c
    rw [read_cons, if_neg (h (k, v) (by simp))]
    exact ih (fun c hc => h c (by simp [hc]))

theorem read_erase (m : Memory) (a x : Nat) :
    (m.erase a).read x = if x = a then 0#8 else m.read x := by
  induction m with
  | nil => simp [erase]
  | cons c rest ih =>
    obtain ⟨k, v⟩ := c
    unfold erase at ih ⊢
    by_cases hk : k = a
    · subst hk
      by_cases hx : x = k
      · subst hx; simpa using ih
      · rw [List.filter_cons_of_neg (by simp), ih, read_cons, if_neg (Ne.symm hx)]
    · rw [List.filter_cons_of_pos (by simpa using hk), read_cons, read_cons, ih]
      by_cases hx : x = a
      · subst hx; simp [hk]
      · simp [hx]

theorem read_insert (m : Memory) (a x : Nat) (b : Byte) (h : ∀ c ∈ m, c.1 ≠ a) :
    (m.insert a b).read x = if x = a then b else m.read x := by
  induction m with
  | nil => simp [insert, read_cons, eq_comm]
  | cons c rest ih =>
    obtain ⟨k, v⟩ := c
    have hk : k ≠ a := h (k, v) (by simp)
    have ih := ih (fun c hc => h c (by simp [hc]))
    unfold insert
    split
    · rw [read_cons, read_cons, ih]
      by_cases hx : x = a
      · subst hx; simp [hk]
      · simp [hx]
    · rw [read_cons]
      by_cases hx : x = a
      · simp [hx]
      · simp [hx, Ne.symm hx]

theorem erase_absent (m : Memory) (a : Nat) : ∀ c ∈ m.erase a, c.1 ≠ a := by
  intro c hc
  simpa [erase] using (List.mem_filter.mp hc).2

/-- A byte read after a byte write: the byte written, or what was there. -/
@[simp] theorem read_write (m : Memory) (a x : Nat) (b : Byte) :
    (m.write a b).read x = if x = a then b else m.read x := by
  unfold write
  split
  · rename_i hb; rw [read_erase, hb]
  · rw [read_insert _ _ _ _ (erase_absent m a), read_erase]
    split <;> rfl

/-! ### The canonical form -/

theorem wf_iff (m : Memory) :
    m.wf = true ↔ m.Pairwise (fun c d => c.1 < d.1) ∧ ∀ c ∈ m, c.1 < 2 ^ 32 ∧ c.2 ≠ 0#8 := by
  simp [wf, List.all_eq_true]

theorem wf_nil : Memory.wf [] = true := by decide

theorem mem_insert {m : Memory} {a : Nat} {b : Byte} {c : Host.Cell} (h : c ∈ m.insert a b) :
    c = (a, b) ∨ c ∈ m := by
  induction m with
  | nil => simpa [insert] using h
  | cons d rest ih =>
    obtain ⟨k, v⟩ := d
    unfold insert at h
    split at h
    · rcases List.mem_cons.mp h with h | h
      · exact .inr (by simp [h])
      · rcases ih h with h | h
        · exact .inl h
        · exact .inr (by simp [h])
    · rcases List.mem_cons.mp h with h | h
      · exact .inl h
      · exact .inr h

theorem pairwise_insert {m : Memory} {a : Nat} {b : Byte} (h : m.Pairwise (fun c d => c.1 < d.1))
    (ha : ∀ c ∈ m, c.1 ≠ a) : (m.insert a b).Pairwise (fun c d => c.1 < d.1) := by
  induction m with
  | nil => simp [insert]
  | cons d rest ih =>
    obtain ⟨k, v⟩ := d
    obtain ⟨hk, hrest⟩ := List.pairwise_cons.mp h
    have hka : k ≠ a := ha (k, v) (by simp)
    unfold insert
    split
    · rename_i hlt
      refine List.pairwise_cons.mpr ⟨?_, ih hrest (fun c hc => ha c (by simp [hc]))⟩
      intro c hc
      rcases mem_insert hc with rfl | hc
      · exact hlt
      · exact hk c hc
    · rename_i hlt
      have hak : a < k := by omega
      refine List.pairwise_cons.mpr ⟨?_, h⟩
      intro c hc
      rcases List.mem_cons.mp hc with rfl | hc
      · exact hak
      · exact Nat.lt_trans hak (hk c hc)

/-- A byte write keeps the canonical form. -/
theorem wf_write {m : Memory} (h : m.wf = true) {a : Nat} (ha : a < 2 ^ 32) (b : Byte) :
    (m.write a b).wf = true := by
  rw [wf_iff] at h ⊢
  have hp : (m.erase a).Pairwise (fun c d => c.1 < d.1) := h.1.filter _
  have hall : ∀ c ∈ m.erase a, c.1 < 2 ^ 32 ∧ c.2 ≠ 0#8 :=
    fun c hc => h.2 c (List.mem_filter.mp hc).1
  unfold write
  split
  · exact ⟨hp, hall⟩
  · rename_i hb
    refine ⟨pairwise_insert hp (erase_absent m a), fun c hc => ?_⟩
    rcases mem_insert hc with rfl | hc
    · exact ⟨ha, hb⟩
    · exact hall c hc

/-- Writing bytes keeps the canonical form. -/
theorem wf_writeBytes {m : Memory} (h : m.wf = true) (a : Word) (bs : List Byte) :
    (m.writeBytes a bs).wf = true := by
  induction bs generalizing m a with
  | nil => exact h
  | cons b rest ih => exact ih (wf_write h a.isLt b) _

/-- Writing a word keeps the canonical form. -/
theorem wf_writeWord {m : Memory} (h : m.wf = true) (a v : Word) : (m.writeWord a v).wf = true :=
  wf_writeBytes h a _

/-- The loader's placement keeps the canonical form. -/
theorem wf_setRange {m m' : Memory} (h : m.wf = true) {a : Word} {bs : List Byte}
    (hs : m.setRange a bs = some m') : m'.wf = true := by
  unfold setRange at hs
  split at hs
  · cases hs; exact wf_writeBytes h a bs
  · cases hs

/-! ### Bytes at 32-bit addresses -/

@[simp] theorem byteAt_write (m : Memory) (a x : Word) (b : Byte) :
    (m.write a.toNat b).byteAt x = if x = a then b else m.byteAt x := by
  simp [byteAt, BitVec.toNat_inj]

theorem byteAt_nil (x : Word) : Memory.byteAt [] x = 0#8 := rfl

/-- A byte after a word write: one of the word's four bytes, the most significant at the lowest address,
or what was there. -/
theorem byteAt_writeWord (m : Memory) (a v x : Word) :
    (m.writeWord a v).byteAt x =
      if x = a then v.extractLsb' 24 8
      else if x = a + 1#32 then v.extractLsb' 16 8
      else if x = a + 2#32 then v.extractLsb' 8 8
      else if x = a + 3#32 then v.extractLsb' 0 8
      else m.byteAt x := by
  have e2 : a + 1#32 + 1#32 = a + 2#32 := by rw [BitVec.add_assoc]; rfl
  have e3 : a + 2#32 + 1#32 = a + 3#32 := by rw [BitVec.add_assoc]; rfl
  simp only [writeWord, writeBytes, byteAt_write, e2, e3]
  by_cases h3 : x = a + 3#32
  · subst h3
    have h0 : ¬ a + 3#32 = a := by simp
    have h1 : ¬ a + 3#32 = a + 1#32 := by simp
    have h2 : ¬ a + 3#32 = a + 2#32 := by simp
    simp only [h0, h1, h2, if_true, if_false]
  · by_cases h2 : x = a + 2#32
    · subst h2
      have h0 : ¬ a + 2#32 = a := by simp
      have h1 : ¬ a + 2#32 = a + 1#32 := by simp
      simp only [h0, h1, h3, if_true, if_false]
    · by_cases h1 : x = a + 1#32
      · subst h1
        have h0 : ¬ a + 1#32 = a := by simp
        simp only [h0, h2, h3, if_true, if_false]
      · simp only [h1, h2, h3, if_false]

/-- A word is its four bytes put together again. -/
theorem word_of_bytes (v : Word) :
    v.extractLsb' 24 8 ++ v.extractLsb' 16 8 ++ v.extractLsb' 8 8 ++ v.extractLsb' 0 8 = v := by
  rw [BitVec.extractLsb'_append_extractLsb'_eq_extractLsb' (by rfl),
    BitVec.extractLsb'_append_extractLsb'_eq_extractLsb' (by rfl),
    BitVec.extractLsb'_append_extractLsb'_eq_extractLsb' (by rfl)]
  simp

/-- A word read after a word write to the same address. -/
@[simp] theorem readWord_writeWord_same (m : Memory) (a v : Word) :
    (m.writeWord a v).readWord a = v := by
  have h1 : ¬ a + 1#32 = a := by simp
  have h2 : ¬ a + 2#32 = a := by simp
  have h3 : ¬ a + 3#32 = a := by simp
  have h21 : ¬ a + 2#32 = a + 1#32 := by simp
  have h31 : ¬ a + 3#32 = a + 1#32 := by simp
  have h32 : ¬ a + 3#32 = a + 2#32 := by simp
  simp only [readWord, byteAt_writeWord, h1, h2, h3, h21, h31, h32, if_true, if_false]
  exact word_of_bytes v

end Sys2Proof.Machine.Memory
end

