-- ==== Sys2Proof/Laws/Ops.lean ====
section
/-! SUPPORT. What each shared operation can do, said once. -/

namespace Sys2Proof.Machine

/-! ### Checked accesses -/

namespace State
variable (s : State)

/-- A word is read exactly when its address is aligned and mapped. -/
theorem memRead4_ok (a v : Word) :
    s.memRead4 a = .ok v ↔ wordAligned a = true ∧ s.mapped a = true ∧ v = s.mem.readWord a := by
  unfold memRead4
  cases wordAligned a <;> cases s.mapped a <;> simp [eq_comm]

/-- Why a word is not read: alignment is checked first. -/
theorem memRead4_error (a : Word) (f : Fault) :
    s.memRead4 a = .error f ↔
      (wordAligned a = false ∧ f = .addressMisaligned a) ∨
      (wordAligned a = true ∧ s.mapped a = false ∧ f = .addressUnmapped a) := by
  unfold memRead4
  cases wordAligned a <;> cases s.mapped a <;> simp [eq_comm]

theorem memRead2_ok (a : Word) (v : BitVec 16) :
    s.memRead2 a = .ok v ↔ halfAligned a = true ∧ s.mapped (wordBase a) = true ∧
      v = halfLane (s.mem.readWord (wordBase a)) a := by
  unfold memRead2
  cases halfAligned a <;> cases s.mapped (wordBase a) <;> simp [eq_comm]

theorem memRead2_error (a : Word) (f : Fault) :
    s.memRead2 a = .error f ↔
      (halfAligned a = false ∧ f = .addressMisaligned a) ∨
      (halfAligned a = true ∧ s.mapped (wordBase a) = false ∧ f = .addressUnmapped a) := by
  unfold memRead2
  cases halfAligned a <;> cases s.mapped (wordBase a) <;> simp [eq_comm]

theorem memRead1_ok (a : Word) (v : Byte) :
    s.memRead1 a = .ok v ↔ s.mapped (wordBase a) = true ∧
      v = byteLane (s.mem.readWord (wordBase a)) a := by
  unfold memRead1
  cases s.mapped (wordBase a) <;> simp [eq_comm]

theorem memRead1_error (a : Word) (f : Fault) :
    s.memRead1 a = .error f ↔ s.mapped (wordBase a) = false ∧ f = .addressUnmapped a := by
  unfold memRead1
  cases s.mapped (wordBase a) <;> simp [eq_comm]

theorem memReadPart_ok (a v : Word) :
    s.memReadPart a = .ok v ↔ s.mapped (wordBase a) = true ∧ v = s.mem.readWord (wordBase a) := by
  unfold memReadPart
  cases s.mapped (wordBase a) <;> simp [eq_comm]

theorem memReadPart_error (a : Word) (f : Fault) :
    s.memReadPart a = .error f ↔ s.mapped (wordBase a) = false ∧ f = .addressUnmapped a := by
  unfold memReadPart
  cases s.mapped (wordBase a) <;> simp [eq_comm]

theorem memWrite4_ok (a v : Word) (t : State) :
    s.memWrite4 a v = .ok t ↔ wordAligned a = true ∧ s.mapped a = true ∧ t = s.storeWord a v := by
  unfold memWrite4
  cases wordAligned a <;> cases s.mapped a <;> simp [eq_comm]

theorem memWrite4_error (a v : Word) (f : Fault) :
    s.memWrite4 a v = .error f ↔
      (wordAligned a = false ∧ f = .addressMisaligned a) ∨
      (wordAligned a = true ∧ s.mapped a = false ∧ f = .addressUnmapped a) := by
  unfold memWrite4
  cases wordAligned a <;> cases s.mapped a <;> simp [eq_comm]

theorem memWrite2_ok (a : Word) (v : BitVec 16) (t : State) :
    s.memWrite2 a v = .ok t ↔ halfAligned a = true ∧ s.mapped (wordBase a) = true ∧
      t = s.storeWord (wordBase a) (setHalfLane (s.mem.readWord (wordBase a)) a v) := by
  unfold memWrite2
  cases halfAligned a <;> cases s.mapped (wordBase a) <;> simp [eq_comm]

theorem memWrite2_error (a : Word) (v : BitVec 16) (f : Fault) :
    s.memWrite2 a v = .error f ↔
      (halfAligned a = false ∧ f = .addressMisaligned a) ∨
      (halfAligned a = true ∧ s.mapped (wordBase a) = false ∧ f = .addressUnmapped a) := by
  unfold memWrite2
  cases halfAligned a <;> cases s.mapped (wordBase a) <;> simp [eq_comm]

theorem memWrite1_ok (a : Word) (v : Byte) (t : State) :
    s.memWrite1 a v = .ok t ↔ s.mapped (wordBase a) = true ∧
      t = s.storeWord (wordBase a) (setByteLane (s.mem.readWord (wordBase a)) a v) := by
  unfold memWrite1
  cases s.mapped (wordBase a) <;> simp [eq_comm]

theorem memWrite1_error (a : Word) (v : Byte) (f : Fault) :
    s.memWrite1 a v = .error f ↔ s.mapped (wordBase a) = false ∧ f = .addressUnmapped a := by
  unfold memWrite1
  cases s.mapped (wordBase a) <;> simp [eq_comm]

/-- Nothing a call needs is unmapped. -/
theorem firstUnmapped_none (as : List Word) :
    s.firstUnmapped as = none ↔ ∀ a ∈ as, s.mapped (wordBase a) = true := by
  unfold firstUnmapped
  split
  · rename_i h
    simp [mapped, List.isEmpty_iff.mp h]
  · simp [List.find?_eq_none]

/-- With the default `MAPPED` no call meets an unmapped word (R60). -/
theorem firstUnmapped_default (as : List Word) (h : s.params.unmapped = []) :
    s.firstUnmapped as = none := by
  simp [firstUnmapped, h]

/-- With the default `MAPPED` every word is mapped (R60). -/
theorem mapped_default (a : Word) (h : s.params.unmapped = []) : s.mapped a = true := by
  simp [mapped, h]

end State

/-! ### Ends of a step -/

@[simp] theorem raise_eq (f : Fault) : raise f = .fault f := rfl

/-- Going on after a checked access. -/
theorem orRaise_next {α : Type} (e : Except Fault α) (go : α → Result) (t : State) :
    orRaise e go = .next t ↔ ∃ v, e = .ok v ∧ go v = .next t := by
  cases e <;> simp [orRaise]

/-- Ending after a checked access. -/
theorem orRaise_fault {α : Type} (e : Except Fault α) (go : α → Result) (f : Fault) :
    orRaise e go = .fault f ↔ e = .error f ∨ ∃ v, e = .ok v ∧ go v = .fault f := by
  cases e <;> simp [orRaise]

theorem orRaise_refused {α : Type} (e : Except Fault α) (go : α → Result) (r : Refusal) :
    orRaise e go = .refused r ↔ ∃ v, e = .ok v ∧ go v = .refused r := by
  cases e <;> simp [orRaise]

/-- A transfer goes on only outside a delay slot. -/
theorem outsideDelaySlot_next (s : State) (u t : State) :
    outsideDelaySlot s (.next u) = .next t ↔ s.nextPc = s.pc + 4#32 ∧ u = t := by
  unfold outsideDelaySlot
  by_cases h : s.nextPc = s.pc + 4#32 <;> simp [h]

theorem outsideDelaySlot_fault (s : State) (u : State) (f : Fault) :
    outsideDelaySlot s (.next u) = .fault f ↔
      s.nextPc ≠ s.pc + 4#32 ∧ f = .branchInDelaySlot s.pc := by
  unfold outsideDelaySlot
  by_cases h : s.nextPc = s.pc + 4#32 <;> simp [h, eq_comm]

theorem outsideDelaySlot_refused (s : State) (u : State) (r : Refusal) :
    outsideDelaySlot s (.next u) ≠ .refused r := by
  unfold outsideDelaySlot
  split <;> simp

theorem commit_next (r : Result) (t : State) :
    commit r = .next t ↔ ∃ u, r = .next u ∧ t = u.tick := by
  cases r <;> simp [commit, eq_comm]

theorem commit_fault (r : Result) (f : Fault) : commit r = .fault f ↔ r = .fault f := by
  cases r <;> simp [commit]

theorem commit_refused (r : Result) (f : Refusal) : commit r = .refused f ↔ r = .refused f := by
  cases r <;> simp [commit]

theorem writeUnlessOverflow_next (s : State) (i : Instr) (d : RegNum) (x : Int) (t : State) :
    writeUnlessOverflow s i d x = .next t ↔
      fitsSigned x = true ∧ t = (s.setReg d (BitVec.ofInt 32 x)).advance := by
  unfold writeUnlessOverflow writeAndAdvance
  cases fitsSigned x <;> simp [eq_comm]

theorem writeUnlessOverflow_fault (s : State) (i : Instr) (d : RegNum) (x : Int) (f : Fault) :
    writeUnlessOverflow s i d x = .fault f ↔
      fitsSigned x = false ∧ f = .integerOverflow (encode i) := by
  unfold writeUnlessOverflow writeAndAdvance
  cases fitsSigned x <;> simp [eq_comm]

/-- The fetch of a word that is there. -/
theorem State.fetch_ok (s : State) (insn : Word) :
    s.fetch = .ok insn ↔
      wordAligned s.pc = true ∧ s.mapped s.pc = true ∧ insn = s.mem.readWord s.pc :=
  s.memRead4_ok s.pc insn

theorem State.fetch_error (s : State) (f : Fault) :
    s.fetch = .error f ↔
      (wordAligned s.pc = false ∧ f = .addressMisaligned s.pc) ∨
      (wordAligned s.pc = true ∧ s.mapped s.pc = false ∧ f = .addressUnmapped s.pc) :=
  s.memRead4_error s.pc f

end Sys2Proof.Machine
end

