-- ==== Sys2Proof/Laws/Frames.lean ====
section
/-! SUPPORT. The frames of Safety.lean for each shape of next state, so that no proof about an instruction takes
them apart. -/

namespace Sys2Proof.Machine.State

variable (s : State)

theorem regsKept_refl : s.RegsKept s := ⟨fun _ => rfl, rfl⟩

theorem runKept_of {t : State} (h : t.exited = s.exited) (h' : t.exitCode = s.exitCode)
    (hc : t.stepCount = s.stepCount) (hp : t.params = s.params) : s.RunKept t := ⟨h, h', hc, hp⟩

/-- A register write writes that register. -/
theorem regWritten_setReg (d : RegNum) (v : Word) : s.RegWritten (s.setReg d v) d v := by
  refine ⟨fun r => ?_, s.setReg_regs_zero d v⟩
  rw [reg_setReg]
  by_cases h : r = d
  · subst h; simp
  · simp [h]

/-- The end of every instruction that writes one register. -/
theorem onlyRegister_setReg (d : RegNum) (v : Word) : s.OnlyRegister (s.setReg d v).advance d v :=
  ⟨s.regWritten_setReg d v, ⟨s.setReg_hi d v, s.setReg_lo d v⟩, fun x => by simp,
    ⟨s.setReg_heap d v, s.setReg_lastHint d v,
      ⟨s.setReg_preimageKey d v, s.setReg_preimageOffset d v⟩,
      ⟨s.setReg_exited d v, s.setReg_exitCode d v, s.setReg_stepCount d v, s.setReg_params d v⟩⟩,
    ⟨s.setReg_nextPc d v, by simp⟩⟩

/-- Advancing alone writes a register with what it holds. -/
theorem onlyRegister_advance (d : RegNum) : s.OnlyRegister s.advance d (s.reg d) :=
  ⟨⟨fun r => by by_cases h : r = d <;> simp [h], rfl⟩, ⟨rfl, rfl⟩, fun _ => rfl,
    ⟨rfl, rfl, ⟨rfl, rfl⟩, ⟨rfl, rfl, rfl, rfl⟩⟩, ⟨rfl, rfl⟩⟩

theorem onlyHiLo_writeHiLo (hi lo : Word) : s.OnlyHiLo (s.writeHiLo hi lo).advance hi lo :=
  ⟨rfl, rfl, ⟨fun _ => rfl, rfl⟩, fun _ => rfl, ⟨rfl, rfl, ⟨rfl, rfl⟩, ⟨rfl, rfl, rfl, rfl⟩⟩, ⟨rfl, rfl⟩⟩

/-- The end of every instruction that only stores. -/
theorem onlyStore_storeWord {w v a : Word} {bytes : List Byte}
    (h : s.BytesStored (s.storeWord w v) a bytes) : s.OnlyStore (s.storeWord w v).advance a bytes :=
  ⟨h, ⟨fun _ => rfl, rfl⟩, ⟨rfl, rfl⟩, ⟨rfl, rfl, ⟨rfl, rfl⟩, ⟨rfl, rfl, rfl, rfl⟩⟩, ⟨rfl, rfl⟩⟩

theorem onlyTransfer_transfer (target : Word) : s.OnlyTransfer (s.transfer target) target :=
  ⟨rfl, rfl, ⟨fun _ => rfl, rfl⟩, ⟨rfl, rfl⟩, fun _ => rfl, ⟨rfl, rfl, ⟨rfl, rfl⟩, ⟨rfl, rfl, rfl, rfl⟩⟩⟩

theorem onlyTransfer_branchIf (c : Bool) (target : Word) :
    s.OnlyTransfer (s.branchIf c target) (if c then target else s.nextPc + 4#32) := by
  cases c
  · exact ⟨rfl, rfl, ⟨fun _ => rfl, rfl⟩, ⟨rfl, rfl⟩, fun _ => rfl,
      ⟨rfl, rfl, ⟨rfl, rfl⟩, ⟨rfl, rfl, rfl, rfl⟩⟩⟩
  · exact s.onlyTransfer_transfer target

theorem onlyLink_branchIf (c : Bool) (d : RegNum) (target : Word) :
    s.OnlyLink ((s.setReg d (s.pc + 8#32)).branchIf c target) d
      (if c then target else s.nextPc + 4#32) := by
  have hw := s.regWritten_setReg d (s.pc + 8#32)
  cases c
  · exact ⟨s.setReg_nextPc .., by simp, hw, ⟨s.setReg_hi .., s.setReg_lo ..⟩, fun x => by simp,
      ⟨by simp, by simp, ⟨by simp, by simp⟩, ⟨by simp, by simp, by simp, by simp⟩⟩⟩
  · exact ⟨s.setReg_nextPc .., by simp, hw, ⟨s.setReg_hi .., s.setReg_lo ..⟩, fun x => by simp,
      ⟨by simp, by simp, ⟨by simp, by simp⟩, ⟨by simp, by simp, by simp, by simp⟩⟩⟩

theorem onlyLink_transfer (d : RegNum) (target : Word) :
    s.OnlyLink ((s.setReg d (s.pc + 8#32)).transfer target) d target :=
  s.onlyLink_branchIf true d target

/-- What a returned SYSCALL keeps, whatever its service changed. -/
theorem returned_apply (v0 a3 : Word) (e : LayerEffect) :
    s.Returned (s.apply (.ret v0 a3 e)).advance v0 a3 := by
  refine ⟨by simp [reg_apply_ret], by simp [reg_apply_ret], fun r h2 h7 => by simp [reg_apply_ret, h2, h7],
    s.apply_regs_zero _, ⟨s.apply_hi _, s.apply_lo _⟩,
    ⟨by simp [apply], by simp [apply], s.apply_stepCount _, s.apply_params _⟩,
    ⟨s.apply_nextPc _, by simp⟩⟩

/-- A SYSCALL whose service has no effect of its own. -/
theorem onlyReturned_apply (v0 a3 : Word) :
    s.OnlyReturned (s.apply (.ret v0 a3 s.noEffect)).advance v0 a3 :=
  ⟨s.returned_apply v0 a3 _, fun _ => rfl, rfl, ⟨rfl, rfl⟩, rfl⟩

/-- Alignment and lanes as arithmetic on the address. -/
theorem wordAligned_iff (a : Word) : wordAligned a = true ↔ a.toNat % 4 = 0 := by
  unfold wordAligned
  rw [beq_iff_eq, ← BitVec.toNat_inj, BitVec.extractLsb'_toNat]
  simp

theorem halfAligned_iff (a : Word) : halfAligned a = true ↔ a.toNat % 2 = 0 := by
  unfold halfAligned
  rw [beq_iff_eq, ← BitVec.toNat_inj, BitVec.extractLsb'_toNat]
  simp

theorem byteIndex_eq (a : Word) : byteIndex a = a.toNat % 4 := by
  unfold byteIndex
  rw [BitVec.extractLsb'_toNat]
  simp

end Sys2Proof.Machine.State
end

