-- ==== Sys2Proof/Laws/PerInstr.lean ====
section
/-! SUPPORT. Facts about each instruction as syntax, one lemma per constructor: the word of a well-formed
instruction is admitted by a row of the opcode table whose fields make the instruction again. -/

namespace Sys2Proof.Laws.RowOfEncode

/-- The encoder and the opcode table agree on `i` (30_encoding.md R86, R88). -/
def Statement (i : Instr) : Prop :=
  i.wellFormed = true → ∃ r ∈ opcodeTable, r.admits (encode i) = true ∧ r.build (encode i) = i

/-- A row without a constraint. -/
theorem of_row {i : Instr} (n : Nat) (h : n < opcodeTable.length)
    (hmask : encode i &&& opcodeTable[n].mask = opcodeTable[n].value)
    (hc : opcodeTable[n].needsRtEqRd = false) (hb : opcodeTable[n].build (encode i) = i) : Statement i :=
  fun _ => ⟨opcodeTable[n], List.getElem_mem h, by simp [Row.admits, hmask, hc], hb⟩

/-- A row with the constraint `rt = rd`. -/
theorem of_row_rt_rd {i : Instr} (n : Nat) (h : n < opcodeTable.length)
    (hmask : encode i &&& opcodeTable[n].mask = opcodeTable[n].value)
    (hc : i.wellFormed = true → rtField (encode i) = rdField (encode i))
    (hb : opcodeTable[n].build (encode i) = i) : Statement i :=
  fun hw => ⟨opcodeTable[n], List.getElem_mem h, by simp [Row.admits, hmask, hc hw], hb⟩

theorem add (rs : RegNum) (rt : RegNum) (rd : RegNum) : Statement (.add rs rt rd) :=
  of_row 0 (by decide) ((rType_mask_FC0007FF _ _ _ _ _ _).trans (by decide)) rfl
    (by change Instr.add (rsField _) (rtField _) (rdField _) = _; simp only [encode, rdField_rType, rsField_rType, rtField_rType])

theorem addu (rs : RegNum) (rt : RegNum) (rd : RegNum) : Statement (.addu rs rt rd) :=
  of_row 1 (by decide) ((rType_mask_FC0007FF _ _ _ _ _ _).trans (by decide)) rfl
    (by change Instr.addu (rsField _) (rtField _) (rdField _) = _; simp only [encode, rdField_rType, rsField_rType, rtField_rType])

theorem sub (rs : RegNum) (rt : RegNum) (rd : RegNum) : Statement (.sub rs rt rd) :=
  of_row 2 (by decide) ((rType_mask_FC0007FF _ _ _ _ _ _).trans (by decide)) rfl
    (by change Instr.sub (rsField _) (rtField _) (rdField _) = _; simp only [encode, rdField_rType, rsField_rType, rtField_rType])

theorem subu (rs : RegNum) (rt : RegNum) (rd : RegNum) : Statement (.subu rs rt rd) :=
  of_row 3 (by decide) ((rType_mask_FC0007FF _ _ _ _ _ _).trans (by decide)) rfl
    (by change Instr.subu (rsField _) (rtField _) (rdField _) = _; simp only [encode, rdField_rType, rsField_rType, rtField_rType])

theorem and (rs : RegNum) (rt : RegNum) (rd : RegNum) : Statement (.and rs rt rd) :=
  of_row 4 (by decide) ((rType_mask_FC0007FF _ _ _ _ _ _).trans (by decide)) rfl
    (by change Instr.and (rsField _) (rtField _) (rdField _) = _; simp only [encode, rdField_rType, rsField_rType, rtField_rType])

theorem or (rs : RegNum) (rt : RegNum) (rd : RegNum) : Statement (.or rs rt rd) :=
  of_row 5 (by decide) ((rType_mask_FC0007FF _ _ _ _ _ _).trans (by decide)) rfl
    (by change Instr.or (rsField _) (rtField _) (rdField _) = _; simp only [encode, rdField_rType, rsField_rType, rtField_rType])

theorem xor (rs : RegNum) (rt : RegNum) (rd : RegNum) : Statement (.xor rs rt rd) :=
  of_row 6 (by decide) ((rType_mask_FC0007FF _ _ _ _ _ _).trans (by decide)) rfl
    (by change Instr.xor (rsField _) (rtField _) (rdField _) = _; simp only [encode, rdField_rType, rsField_rType, rtField_rType])

theorem nor (rs : RegNum) (rt : RegNum) (rd : RegNum) : Statement (.nor rs rt rd) :=
  of_row 7 (by decide) ((rType_mask_FC0007FF _ _ _ _ _ _).trans (by decide)) rfl
    (by change Instr.nor (rsField _) (rtField _) (rdField _) = _; simp only [encode, rdField_rType, rsField_rType, rtField_rType])

theorem slt (rs : RegNum) (rt : RegNum) (rd : RegNum) : Statement (.slt rs rt rd) :=
  of_row 8 (by decide) ((rType_mask_FC0007FF _ _ _ _ _ _).trans (by decide)) rfl
    (by change Instr.slt (rsField _) (rtField _) (rdField _) = _; simp only [encode, rdField_rType, rsField_rType, rtField_rType])

theorem sltu (rs : RegNum) (rt : RegNum) (rd : RegNum) : Statement (.sltu rs rt rd) :=
  of_row 9 (by decide) ((rType_mask_FC0007FF _ _ _ _ _ _).trans (by decide)) rfl
    (by change Instr.sltu (rsField _) (rtField _) (rdField _) = _; simp only [encode, rdField_rType, rsField_rType, rtField_rType])

theorem addi (rs : RegNum) (rt : RegNum) (imm : BitVec 16) : Statement (.addi rs rt imm) :=
  of_row 10 (by decide) ((iType_mask_FC000000 _ _ _ _).trans (by decide)) rfl
    (by change Instr.addi (rsField _) (rtField _) (immField _) = _; simp only [encode, immField_iType, rsField_iType, rtField_iType])

theorem addiu (rs : RegNum) (rt : RegNum) (imm : BitVec 16) : Statement (.addiu rs rt imm) :=
  of_row 11 (by decide) ((iType_mask_FC000000 _ _ _ _).trans (by decide)) rfl
    (by change Instr.addiu (rsField _) (rtField _) (immField _) = _; simp only [encode, immField_iType, rsField_iType, rtField_iType])

theorem slti (rs : RegNum) (rt : RegNum) (imm : BitVec 16) : Statement (.slti rs rt imm) :=
  of_row 12 (by decide) ((iType_mask_FC000000 _ _ _ _).trans (by decide)) rfl
    (by change Instr.slti (rsField _) (rtField _) (immField _) = _; simp only [encode, immField_iType, rsField_iType, rtField_iType])

theorem sltiu (rs : RegNum) (rt : RegNum) (imm : BitVec 16) : Statement (.sltiu rs rt imm) :=
  of_row 13 (by decide) ((iType_mask_FC000000 _ _ _ _).trans (by decide)) rfl
    (by change Instr.sltiu (rsField _) (rtField _) (immField _) = _; simp only [encode, immField_iType, rsField_iType, rtField_iType])

theorem andi (rs : RegNum) (rt : RegNum) (imm : BitVec 16) : Statement (.andi rs rt imm) :=
  of_row 14 (by decide) ((iType_mask_FC000000 _ _ _ _).trans (by decide)) rfl
    (by change Instr.andi (rsField _) (rtField _) (immField _) = _; simp only [encode, immField_iType, rsField_iType, rtField_iType])

theorem ori (rs : RegNum) (rt : RegNum) (imm : BitVec 16) : Statement (.ori rs rt imm) :=
  of_row 15 (by decide) ((iType_mask_FC000000 _ _ _ _).trans (by decide)) rfl
    (by change Instr.ori (rsField _) (rtField _) (immField _) = _; simp only [encode, immField_iType, rsField_iType, rtField_iType])

theorem xori (rs : RegNum) (rt : RegNum) (imm : BitVec 16) : Statement (.xori rs rt imm) :=
  of_row 16 (by decide) ((iType_mask_FC000000 _ _ _ _).trans (by decide)) rfl
    (by change Instr.xori (rsField _) (rtField _) (immField _) = _; simp only [encode, immField_iType, rsField_iType, rtField_iType])

theorem lui (rt : RegNum) (imm : BitVec 16) : Statement (.lui rt imm) :=
  of_row 17 (by decide) ((iType_mask_FFE00000 _ _ _ _).trans (by decide)) rfl
    (by change Instr.lui (rtField _) (immField _) = _; simp only [encode, immField_iType, rtField_iType])

theorem sll (rt : RegNum) (rd : RegNum) (sa : BitVec 5) : Statement (.sll rt rd sa) :=
  of_row 18 (by decide) ((rType_mask_FFE0003F _ _ _ _ _ _).trans (by decide)) rfl
    (by change Instr.sll (rtField _) (rdField _) (saField _) = _; simp only [encode, rdField_rType, rtField_rType, saField_rType])

theorem srl (rt : RegNum) (rd : RegNum) (sa : BitVec 5) : Statement (.srl rt rd sa) :=
  of_row 19 (by decide) ((rType_mask_FFE0003F _ _ _ _ _ _).trans (by decide)) rfl
    (by change Instr.srl (rtField _) (rdField _) (saField _) = _; simp only [encode, rdField_rType, rtField_rType, saField_rType])

theorem sra (rt : RegNum) (rd : RegNum) (sa : BitVec 5) : Statement (.sra rt rd sa) :=
  of_row 20 (by decide) ((rType_mask_FFE0003F _ _ _ _ _ _).trans (by decide)) rfl
    (by change Instr.sra (rtField _) (rdField _) (saField _) = _; simp only [encode, rdField_rType, rtField_rType, saField_rType])

theorem sllv (rs : RegNum) (rt : RegNum) (rd : RegNum) : Statement (.sllv rs rt rd) :=
  of_row 21 (by decide) ((rType_mask_FC0007FF _ _ _ _ _ _).trans (by decide)) rfl
    (by change Instr.sllv (rsField _) (rtField _) (rdField _) = _; simp only [encode, rdField_rType, rsField_rType, rtField_rType])

theorem srlv (rs : RegNum) (rt : RegNum) (rd : RegNum) : Statement (.srlv rs rt rd) :=
  of_row 22 (by decide) ((rType_mask_FC0007FF _ _ _ _ _ _).trans (by decide)) rfl
    (by change Instr.srlv (rsField _) (rtField _) (rdField _) = _; simp only [encode, rdField_rType, rsField_rType, rtField_rType])

theorem srav (rs : RegNum) (rt : RegNum) (rd : RegNum) : Statement (.srav rs rt rd) :=
  of_row 23 (by decide) ((rType_mask_FC0007FF _ _ _ _ _ _).trans (by decide)) rfl
    (by change Instr.srav (rsField _) (rtField _) (rdField _) = _; simp only [encode, rdField_rType, rsField_rType, rtField_rType])

theorem movz (rs : RegNum) (rt : RegNum) (rd : RegNum) : Statement (.movz rs rt rd) :=
  of_row 24 (by decide) ((rType_mask_FC0007FF _ _ _ _ _ _).trans (by decide)) rfl
    (by change Instr.movz (rsField _) (rtField _) (rdField _) = _; simp only [encode, rdField_rType, rsField_rType, rtField_rType])

theorem movn (rs : RegNum) (rt : RegNum) (rd : RegNum) : Statement (.movn rs rt rd) :=
  of_row 25 (by decide) ((rType_mask_FC0007FF _ _ _ _ _ _).trans (by decide)) rfl
    (by change Instr.movn (rsField _) (rtField _) (rdField _) = _; simp only [encode, rdField_rType, rsField_rType, rtField_rType])

theorem clz (rs : RegNum) (rt : RegNum) (rd : RegNum) : Statement (.clz rs rt rd) :=
  of_row_rt_rd 26 (by decide) ((rType_mask_FC0007FF _ _ _ _ _ _).trans (by decide))
    (fun hw => by simpa [encode] using (beq_iff_eq.mp hw))
    (by change Instr.clz (rsField _) (rtField _) (rdField _) = _; simp only [encode, rdField_rType, rsField_rType, rtField_rType])

theorem clo (rs : RegNum) (rt : RegNum) (rd : RegNum) : Statement (.clo rs rt rd) :=
  of_row_rt_rd 27 (by decide) ((rType_mask_FC0007FF _ _ _ _ _ _).trans (by decide))
    (fun hw => by simpa [encode] using (beq_iff_eq.mp hw))
    (by change Instr.clo (rsField _) (rtField _) (rdField _) = _; simp only [encode, rdField_rType, rsField_rType, rtField_rType])

theorem lb (base : RegNum) (rt : RegNum) (offset : BitVec 16) : Statement (.lb base rt offset) :=
  of_row 28 (by decide) ((iType_mask_FC000000 _ _ _ _).trans (by decide)) rfl
    (by change Instr.lb (rsField _) (rtField _) (immField _) = _; simp only [encode, immField_iType, rsField_iType, rtField_iType])

theorem lbu (base : RegNum) (rt : RegNum) (offset : BitVec 16) : Statement (.lbu base rt offset) :=
  of_row 29 (by decide) ((iType_mask_FC000000 _ _ _ _).trans (by decide)) rfl
    (by change Instr.lbu (rsField _) (rtField _) (immField _) = _; simp only [encode, immField_iType, rsField_iType, rtField_iType])

theorem lh (base : RegNum) (rt : RegNum) (offset : BitVec 16) : Statement (.lh base rt offset) :=
  of_row 30 (by decide) ((iType_mask_FC000000 _ _ _ _).trans (by decide)) rfl
    (by change Instr.lh (rsField _) (rtField _) (immField _) = _; simp only [encode, immField_iType, rsField_iType, rtField_iType])

theorem lhu (base : RegNum) (rt : RegNum) (offset : BitVec 16) : Statement (.lhu base rt offset) :=
  of_row 31 (by decide) ((iType_mask_FC000000 _ _ _ _).trans (by decide)) rfl
    (by change Instr.lhu (rsField _) (rtField _) (immField _) = _; simp only [encode, immField_iType, rsField_iType, rtField_iType])

theorem lw (base : RegNum) (rt : RegNum) (offset : BitVec 16) : Statement (.lw base rt offset) :=
  of_row 32 (by decide) ((iType_mask_FC000000 _ _ _ _).trans (by decide)) rfl
    (by change Instr.lw (rsField _) (rtField _) (immField _) = _; simp only [encode, immField_iType, rsField_iType, rtField_iType])

theorem lwl (base : RegNum) (rt : RegNum) (offset : BitVec 16) : Statement (.lwl base rt offset) :=
  of_row 33 (by decide) ((iType_mask_FC000000 _ _ _ _).trans (by decide)) rfl
    (by change Instr.lwl (rsField _) (rtField _) (immField _) = _; simp only [encode, immField_iType, rsField_iType, rtField_iType])

theorem lwr (base : RegNum) (rt : RegNum) (offset : BitVec 16) : Statement (.lwr base rt offset) :=
  of_row 34 (by decide) ((iType_mask_FC000000 _ _ _ _).trans (by decide)) rfl
    (by change Instr.lwr (rsField _) (rtField _) (immField _) = _; simp only [encode, immField_iType, rsField_iType, rtField_iType])

theorem sb (base : RegNum) (rt : RegNum) (offset : BitVec 16) : Statement (.sb base rt offset) :=
  of_row 35 (by decide) ((iType_mask_FC000000 _ _ _ _).trans (by decide)) rfl
    (by change Instr.sb (rsField _) (rtField _) (immField _) = _; simp only [encode, immField_iType, rsField_iType, rtField_iType])

theorem sh (base : RegNum) (rt : RegNum) (offset : BitVec 16) : Statement (.sh base rt offset) :=
  of_row 36 (by decide) ((iType_mask_FC000000 _ _ _ _).trans (by decide)) rfl
    (by change Instr.sh (rsField _) (rtField _) (immField _) = _; simp only [encode, immField_iType, rsField_iType, rtField_iType])

theorem sw (base : RegNum) (rt : RegNum) (offset : BitVec 16) : Statement (.sw base rt offset) :=
  of_row 37 (by decide) ((iType_mask_FC000000 _ _ _ _).trans (by decide)) rfl
    (by change Instr.sw (rsField _) (rtField _) (immField _) = _; simp only [encode, immField_iType, rsField_iType, rtField_iType])

theorem swl (base : RegNum) (rt : RegNum) (offset : BitVec 16) : Statement (.swl base rt offset) :=
  of_row 38 (by decide) ((iType_mask_FC000000 _ _ _ _).trans (by decide)) rfl
    (by change Instr.swl (rsField _) (rtField _) (immField _) = _; simp only [encode, immField_iType, rsField_iType, rtField_iType])

theorem swr (base : RegNum) (rt : RegNum) (offset : BitVec 16) : Statement (.swr base rt offset) :=
  of_row 39 (by decide) ((iType_mask_FC000000 _ _ _ _).trans (by decide)) rfl
    (by change Instr.swr (rsField _) (rtField _) (immField _) = _; simp only [encode, immField_iType, rsField_iType, rtField_iType])

theorem ll (base : RegNum) (rt : RegNum) (offset : BitVec 16) : Statement (.ll base rt offset) :=
  of_row 40 (by decide) ((iType_mask_FC000000 _ _ _ _).trans (by decide)) rfl
    (by change Instr.ll (rsField _) (rtField _) (immField _) = _; simp only [encode, immField_iType, rsField_iType, rtField_iType])

theorem sc (base : RegNum) (rt : RegNum) (offset : BitVec 16) : Statement (.sc base rt offset) :=
  of_row 41 (by decide) ((iType_mask_FC000000 _ _ _ _).trans (by decide)) rfl
    (by change Instr.sc (rsField _) (rtField _) (immField _) = _; simp only [encode, immField_iType, rsField_iType, rtField_iType])

theorem j (index : BitVec 26) : Statement (.j index) :=
  of_row 42 (by decide) ((jType_mask_FC000000 _ _).trans (by decide)) rfl
    (by change Instr.j (indexField _) = _; simp only [encode, indexField_jType])

theorem jal (index : BitVec 26) : Statement (.jal index) :=
  of_row 43 (by decide) ((jType_mask_FC000000 _ _).trans (by decide)) rfl
    (by change Instr.jal (indexField _) = _; simp only [encode, indexField_jType])

theorem jr (rs : RegNum) : Statement (.jr rs) :=
  of_row 44 (by decide) ((rType_mask_FC1FFFFF _ _ _ _ _ _).trans (by decide)) rfl
    (by change Instr.jr (rsField _) = _; simp only [encode, rsField_rType])

theorem jalr (rs : RegNum) (rd : RegNum) : Statement (.jalr rs rd) :=
  of_row 45 (by decide) ((rType_mask_FC1F07FF _ _ _ _ _ _).trans (by decide)) rfl
    (by change Instr.jalr (rsField _) (rdField _) = _; simp only [encode, rdField_rType, rsField_rType])

theorem beq (rs : RegNum) (rt : RegNum) (offset : BitVec 16) : Statement (.beq rs rt offset) :=
  of_row 46 (by decide) ((iType_mask_FC000000 _ _ _ _).trans (by decide)) rfl
    (by change Instr.beq (rsField _) (rtField _) (immField _) = _; simp only [encode, immField_iType, rsField_iType, rtField_iType])

theorem bne (rs : RegNum) (rt : RegNum) (offset : BitVec 16) : Statement (.bne rs rt offset) :=
  of_row 47 (by decide) ((iType_mask_FC000000 _ _ _ _).trans (by decide)) rfl
    (by change Instr.bne (rsField _) (rtField _) (immField _) = _; simp only [encode, immField_iType, rsField_iType, rtField_iType])

theorem blez (rs : RegNum) (offset : BitVec 16) : Statement (.blez rs offset) :=
  of_row 48 (by decide) ((iType_mask_FC1F0000 _ _ _ _).trans (by decide)) rfl
    (by change Instr.blez (rsField _) (immField _) = _; simp only [encode, immField_iType, rsField_iType])

theorem bgtz (rs : RegNum) (offset : BitVec 16) : Statement (.bgtz rs offset) :=
  of_row 49 (by decide) ((iType_mask_FC1F0000 _ _ _ _).trans (by decide)) rfl
    (by change Instr.bgtz (rsField _) (immField _) = _; simp only [encode, immField_iType, rsField_iType])

theorem bltz (rs : RegNum) (offset : BitVec 16) : Statement (.bltz rs offset) :=
  of_row 50 (by decide) ((iType_mask_FC1F0000 _ _ _ _).trans (by decide)) rfl
    (by change Instr.bltz (rsField _) (immField _) = _; simp only [encode, immField_iType, rsField_iType])

theorem bgez (rs : RegNum) (offset : BitVec 16) : Statement (.bgez rs offset) :=
  of_row 51 (by decide) ((iType_mask_FC1F0000 _ _ _ _).trans (by decide)) rfl
    (by change Instr.bgez (rsField _) (immField _) = _; simp only [encode, immField_iType, rsField_iType])

theorem bltzal (rs : RegNum) (offset : BitVec 16) : Statement (.bltzal rs offset) :=
  of_row 52 (by decide) ((iType_mask_FC1F0000 _ _ _ _).trans (by decide)) rfl
    (by change Instr.bltzal (rsField _) (immField _) = _; simp only [encode, immField_iType, rsField_iType])

theorem bgezal (rs : RegNum) (offset : BitVec 16) : Statement (.bgezal rs offset) :=
  of_row 53 (by decide) ((iType_mask_FC1F0000 _ _ _ _).trans (by decide)) rfl
    (by change Instr.bgezal (rsField _) (immField _) = _; simp only [encode, immField_iType, rsField_iType])

theorem mult (rs : RegNum) (rt : RegNum) : Statement (.mult rs rt) :=
  of_row 54 (by decide) ((rType_mask_FC00FFFF _ _ _ _ _ _).trans (by decide)) rfl
    (by change Instr.mult (rsField _) (rtField _) = _; simp only [encode, rsField_rType, rtField_rType])

theorem multu (rs : RegNum) (rt : RegNum) : Statement (.multu rs rt) :=
  of_row 55 (by decide) ((rType_mask_FC00FFFF _ _ _ _ _ _).trans (by decide)) rfl
    (by change Instr.multu (rsField _) (rtField _) = _; simp only [encode, rsField_rType, rtField_rType])

theorem div (rs : RegNum) (rt : RegNum) : Statement (.div rs rt) :=
  of_row 56 (by decide) ((rType_mask_FC00FFFF _ _ _ _ _ _).trans (by decide)) rfl
    (by change Instr.div (rsField _) (rtField _) = _; simp only [encode, rsField_rType, rtField_rType])

theorem divu (rs : RegNum) (rt : RegNum) : Statement (.divu rs rt) :=
  of_row 57 (by decide) ((rType_mask_FC00FFFF _ _ _ _ _ _).trans (by decide)) rfl
    (by change Instr.divu (rsField _) (rtField _) = _; simp only [encode, rsField_rType, rtField_rType])

theorem mfhi (rd : RegNum) : Statement (.mfhi rd) :=
  of_row 58 (by decide) ((rType_mask_FFFF07FF _ _ _ _ _ _).trans (by decide)) rfl
    (by change Instr.mfhi (rdField _) = _; simp only [encode, rdField_rType])

theorem mflo (rd : RegNum) : Statement (.mflo rd) :=
  of_row 59 (by decide) ((rType_mask_FFFF07FF _ _ _ _ _ _).trans (by decide)) rfl
    (by change Instr.mflo (rdField _) = _; simp only [encode, rdField_rType])

theorem mthi (rs : RegNum) : Statement (.mthi rs) :=
  of_row 60 (by decide) ((rType_mask_FC1FFFFF _ _ _ _ _ _).trans (by decide)) rfl
    (by change Instr.mthi (rsField _) = _; simp only [encode, rsField_rType])

theorem mtlo (rs : RegNum) : Statement (.mtlo rs) :=
  of_row 61 (by decide) ((rType_mask_FC1FFFFF _ _ _ _ _ _).trans (by decide)) rfl
    (by change Instr.mtlo (rsField _) = _; simp only [encode, rsField_rType])

theorem mul (rs : RegNum) (rt : RegNum) (rd : RegNum) : Statement (.mul rs rt rd) :=
  of_row 62 (by decide) ((rType_mask_FC0007FF _ _ _ _ _ _).trans (by decide)) rfl
    (by change Instr.mul (rsField _) (rtField _) (rdField _) = _; simp only [encode, rdField_rType, rsField_rType, rtField_rType])

theorem syscall (code : BitVec 20) : Statement (.syscall code) :=
  of_row 63 (by decide) ((codeType_mask_FC00003F _ _ _).trans (by decide)) rfl
    (by change Instr.syscall (codeField _) = _; simp only [encode, codeField_codeType])

theorem sync (stype : BitVec 5) : Statement (.sync stype) :=
  of_row 64 (by decide) ((rType_mask_FFFFF83F _ _ _ _ _ _).trans (by decide)) rfl
    (by change Instr.sync (saField _) = _; simp only [encode, saField_rType])

end Sys2Proof.Laws.RowOfEncode
end

