-- ==== Sys2Proof/Laws/Step.lean ====
section
/-! SUPPORT. What one instruction and one step can do, said once. -/

namespace Sys2Proof.Machine

/-- The shapes of an instruction's next state: every instruction writes at most one register, HI and LO, one
memory word, or what the Syscall Layer answers, and moves the program counters. -/
inductive Shape (s : State) (i : Instr) (t : State) : Prop where
  /-- Only the program counters move. -/
  | plain (h : t = s.advance)
  /-- One register is written. -/
  | register (d : RegNum) (v : Word) (h : t = (s.setReg d v).advance)
  /-- HI and LO are written. -/
  | hiLo (hi lo : Word) (h : t = (s.writeHiLo hi lo).advance)
  /-- One memory word is written, at an aligned address. -/
  | store (a v : Word) (ha : wordAligned a = true) (h : t = (s.storeWord a v).advance)
  /-- One memory word and one register are written (SC). -/
  | storeRegister (a v : Word) (d : RegNum) (w : Word) (ha : wordAligned a = true)
      (h : t = ((s.storeWord a v).setReg d w).advance)
  /-- Control is transferred, after a register write or a write to register 0. -/
  | transfer (d : RegNum) (v target : Word) (hb : i.isBranch = true)
      (h : t = (s.setReg d v).transfer target)
  /-- The Syscall Layer's answer is committed. -/
  | layer (code : BitVec 20) (hi : i = .syscall code) (h : t = (s.apply s.syscallResponse).advance)

/-- The base of a word is aligned. -/
theorem wordAligned_wordBase (a : Word) : wordAligned (wordBase a) = true := by
  unfold wordAligned wordBase
  rw [beq_iff_eq]
  ext k hk
  have : k = 0 ∨ k = 1 := by omega
  rcases this with rfl | rfl <;> simp

theorem Shape.of_branchIf {s : State} {i : Instr} {d : RegNum} {v target : Word} {c : Bool}
    (hb : i.isBranch = true) : Shape s i ((s.setReg d v).branchIf c target) := by
  cases c
  · exact .register d v rfl
  · exact .transfer d v target hb rfl

/-- What an instruction can do when it answers a next state. -/
theorem exec_shape {i : Instr} {s t : State} (h : exec i s = .next t) : Shape s i t := by
  cases i
  case add | sub | addi =>
    obtain ⟨-, rfl⟩ := (writeUnlessOverflow_next ..).mp h
    exact .register _ _ rfl
  case addu | subu | and | or | xor | nor | slt | sltu | addiu | slti | sltiu | andi | ori | xori | lui
      | sll | srl | sra | sllv | srlv | srav | mfhi | mflo | mul =>
    cases h
    exact .register _ _ rfl
  case movz =>
    simp only [exec, execMovz] at h
    split at h
    · cases h; exact .register _ _ rfl
    · cases h; exact .plain rfl
  case movn =>
    simp only [exec, execMovn] at h
    split at h
    · cases h; exact .register _ _ rfl
    · cases h; exact .plain rfl
  case clz =>
    simp only [exec, execClz] at h
    split at h
    · cases h; exact .register _ _ rfl
    · cases h
  case clo =>
    simp only [exec, execClo] at h
    split at h
    · cases h; exact .register _ _ rfl
    · cases h
  case lb | lbu | lh | lhu | lw | ll | lwl | lwr =>
    obtain ⟨v, -, h⟩ := (orRaise_next ..).mp h
    cases h
    exact .register _ _ rfl
  case sb =>
    obtain ⟨u, hu, h⟩ := (orRaise_next ..).mp h
    obtain ⟨-, rfl⟩ := (s.memWrite1_ok ..).mp hu
    cases h
    exact .store _ _ (wordAligned_wordBase _) rfl
  case sh =>
    obtain ⟨u, hu, h⟩ := (orRaise_next ..).mp h
    obtain ⟨-, -, rfl⟩ := (s.memWrite2_ok ..).mp hu
    cases h
    exact .store _ _ (wordAligned_wordBase _) rfl
  case sw =>
    obtain ⟨u, hu, h⟩ := (orRaise_next ..).mp h
    obtain ⟨ha, -, rfl⟩ := (s.memWrite4_ok ..).mp hu
    cases h
    exact .store _ _ ha rfl
  case sc =>
    obtain ⟨u, hu, h⟩ := (orRaise_next ..).mp h
    obtain ⟨ha, -, rfl⟩ := (s.memWrite4_ok ..).mp hu
    cases h
    exact .storeRegister _ _ _ _ ha rfl
  case swl | swr =>
    obtain ⟨w, -, h⟩ := (orRaise_next ..).mp h
    cases h
    exact .store _ _ (wordAligned_wordBase _) rfl
  case j | jr =>
    obtain ⟨-, rfl⟩ := (outsideDelaySlot_next ..).mp h
    exact .transfer 0#5 0#32 _ rfl rfl
  case jal | jalr =>
    obtain ⟨-, rfl⟩ := (outsideDelaySlot_next ..).mp h
    exact .transfer _ _ _ rfl rfl
  case beq | bne | blez | bgtz | bltz | bgez =>
    obtain ⟨-, rfl⟩ := (outsideDelaySlot_next ..).mp h
    exact Shape.of_branchIf (d := 0#5) (v := 0#32) rfl
  case bltzal | bgezal =>
    obtain ⟨-, rfl⟩ := (outsideDelaySlot_next ..).mp h
    exact Shape.of_branchIf rfl
  case mult | multu | mthi | mtlo =>
    cases h
    exact .hiLo _ _ rfl
  case div =>
    simp only [exec, execDiv] at h
    split at h
    · cases h
    · cases h; exact .hiLo _ _ rfl
  case divu =>
    simp only [exec, execDivu] at h
    split at h
    · cases h
    · cases h; exact .hiLo _ _ rfl
  case syscall code =>
    simp only [exec, execSyscall] at h
    split at h
    · cases h
    · cases h; exact .layer code rfl rfl
  case sync =>
    cases h
    exact .plain rfl

/-- What a step can do when it answers a next state: nothing on an exited machine, else one instruction and one
count. -/
theorem step_next {s t : State} (h : step s = .next t) :
    (s.exited = true ∧ t = s) ∨
    ∃ i u, s.Executes i ∧ exec i s = .next u ∧ t = u.tick := by
  unfold step at h
  split at h
  · rename_i he; cases h; exact .inl ⟨he, rfl⟩
  · rename_i he
    split at h
    · cases h
    · rename_i insn hf
      split at h
      · cases h
      · rename_i i hd
        obtain ⟨u, hu, rfl⟩ := (commit_next ..).mp h
        exact .inr ⟨i, u, ⟨by simpa using he, insn, hf, hd⟩, hu, rfl⟩

/-- Why a step can end in a fatal error. -/
theorem step_fault {s : State} {f : Fault} (h : step s = .fault f) :
    s.exited = false ∧
      (s.fetch = .error f ∨
       (∃ insn, s.fetch = .ok insn ∧ decodeWord insn = none ∧ f = .unsupportedInstruction insn) ∨
       ∃ i, s.Executes i ∧ exec i s = .fault f) := by
  unfold step at h
  split at h
  · cases h
  · rename_i he
    have he : s.exited = false := by simpa using he
    refine ⟨he, ?_⟩
    split at h
    · rename_i c hf; cases h; exact .inl hf
    · rename_i insn hf
      split at h
      · rename_i hd; cases h; exact .inr (.inl ⟨insn, hf, hd, rfl⟩)
      · rename_i i hd
        exact .inr (.inr ⟨i, ⟨he, insn, hf, hd⟩, (commit_fault ..).mp h⟩)

/-- At most one instruction is the one a state's step executes. -/
theorem executes_unique {s : State} {i j : Instr} (hi : s.Executes i) (hj : s.Executes j) : i = j := by
  obtain ⟨-, w, hw, hd⟩ := hi
  obtain ⟨-, w', hw', hd'⟩ := hj
  rw [hw] at hw'
  cases hw'
  rw [hd] at hd'
  exact Option.some.inj hd'

/-- Only a branch or jump raises BranchInDelaySlot, and only in a delay slot. -/
theorem exec_branchInDelaySlot {i : Instr} {s : State} {p : Word}
    (h : exec i s = .fault (.branchInDelaySlot p)) :
    i.isBranch = true ∧ s.nextPc ≠ s.pc + 4#32 := by
  cases i
  case j | jal | jr | jalr | beq | bne | blez | bgtz | bltz | bgez | bltzal | bgezal =>
    exact ⟨rfl, ((outsideDelaySlot_fault ..).mp h).1⟩
  case add | sub | addi => cases ((writeUnlessOverflow_fault ..).mp h).2
  case addu | subu | and | or | xor | nor | slt | sltu | addiu | slti | sltiu | andi | ori | xori | lui
      | sll | srl | sra | sllv | srlv | srav | mfhi | mflo | mul | mult | multu | mthi | mtlo | sync =>
    cases h
  case movz => simp only [exec, execMovz] at h; split at h <;> cases h
  case movn => simp only [exec, execMovn] at h; split at h <;> cases h
  case clz => simp only [exec, execClz] at h; split at h <;> cases h
  case clo => simp only [exec, execClo] at h; split at h <;> cases h
  case div => simp only [exec, execDiv] at h; split at h <;> cases h
  case divu => simp only [exec, execDivu] at h; split at h <;> cases h
  case syscall => simp only [exec, execSyscall] at h; split at h <;> cases h
  case lw | ll =>
    rcases (orRaise_fault ..).mp h with h | ⟨_, -, h⟩
    · rcases (s.memRead4_error ..).mp h with ⟨-, h⟩ | ⟨-, -, h⟩ <;> cases h
    · cases h
  case lh | lhu =>
    rcases (orRaise_fault ..).mp h with h | ⟨_, -, h⟩
    · rcases (s.memRead2_error ..).mp h with ⟨-, h⟩ | ⟨-, -, h⟩ <;> cases h
    · cases h
  case lb | lbu =>
    rcases (orRaise_fault ..).mp h with h | ⟨_, -, h⟩
    · cases ((s.memRead1_error ..).mp h).2
    · cases h
  case lwl | lwr | swl | swr =>
    rcases (orRaise_fault ..).mp h with h | ⟨_, -, h⟩
    · cases ((s.memReadPart_error ..).mp h).2
    · cases h
  case sw | sc =>
    rcases (orRaise_fault ..).mp h with h | ⟨_, -, h⟩
    · rcases (s.memWrite4_error ..).mp h with ⟨-, h⟩ | ⟨-, -, h⟩ <;> cases h
    · cases h
  case sh =>
    rcases (orRaise_fault ..).mp h with h | ⟨_, -, h⟩
    · rcases (s.memWrite2_error ..).mp h with ⟨-, h⟩ | ⟨-, -, h⟩ <;> cases h
    · cases h
  case sb =>
    rcases (orRaise_fault ..).mp h with h | ⟨_, -, h⟩
    · cases ((s.memWrite1_error ..).mp h).2
    · cases h

/-- What stands at `pc` is a branch exactly when the instruction the step executes is one. -/
theorem State.Executes.branchAtPc {s : State} {i : Instr} (h : s.Executes i) :
    s.branchAtPc = i.isBranch := by
  obtain ⟨-, w, hw, hd⟩ := h
  obtain ⟨-, -, rfl⟩ := (s.fetch_ok w).mp hw
  simp [State.branchAtPc, hd]

/-- What the launch premises on `pc` and `nextPc` are for (70_reset_and_hazards.md R296): the
first step has no misaligned fetch and stands in no delay slot. -/
theorem State.LaunchPremises.first_step {s : State} (h : s.LaunchPremises) :
    s.fetch ≠ .error (.addressMisaligned s.pc) ∧
    ∀ p, step s ≠ .fault (.branchInDelaySlot p) := by
  obtain ⟨-, ha, hn, -, -⟩ := h
  refine ⟨fun hf => ?_, fun p hf => ?_⟩
  · rcases (s.fetch_error _).mp hf with ⟨hf, -⟩ | ⟨-, -, hf⟩
    · rw [ha] at hf; cases hf
    · cases hf
  · obtain ⟨-, hf | ⟨_, -, -, hf⟩ | ⟨i, hi, hf⟩⟩ := step_fault hf
    · rcases (s.fetch_error _).mp hf with ⟨-, hf⟩ | ⟨-, -, hf⟩ <;> cases hf
    · cases hf
    · obtain ⟨hb, hne⟩ := exec_branchInDelaySlot hf
      rw [hi.branchAtPc, hb] at hn
      exact hn.elim hne (fun h => nomatch h)

/-- The layer's answer leaves memory in its canonical form. -/
theorem apply_mem_wf {s : State} (h : s.mem.wf = true) :
    (s.apply s.syscallResponse).mem.wf = true := by
  unfold State.syscallResponse respond
  have hbytes := fun a bs => Memory.wf_writeBytes h a bs
  cases s.service <;>
    simp only [succeedWith, failWith, mmapService, fcntlService, preimageReadService,
      preimageWriteService, hintWriteService] <;>
    (repeat' split) <;> first | exact h | exact hbytes _ _

end Sys2Proof.Machine
end

