-- ==== Sys2Proof/Tests/Slice0.lean ====
section
/-! SUPPORT. Tests and witnesses.  Every expected value is read from spec/: the words of 30_encoding.md R88 and
the vectors of 95_test_vectors.md, a vector's number in the test's name.  The witnesses show that each
statement's hypotheses can be met together. -/

namespace Sys2Proof.Tests

open Sys2Proof Sys2Proof.Machine

/-! ### The start states of 95_test_vectors.md -/

/-- A platform for tests only: the candidate numbers of 93_implementation_defined.md section 3 (not
normative), and section 3.5's preimage, the bytes `41 42 43`. -/
def platform : Params where
  pageSize := 4096
  brkValue := 0x40000000
  heapStart := 0x05000000
  heapLimit := 0x60000000
  sysBrk := 4045
  sysMmap := 4090
  sysExit := 4246
  sysFcntl := 4055
  sysRead := 4003
  sysWrite := 4004
  fdStdin := 0
  fdStdout := 1
  fdStderr := 2
  fdHintRead := 3
  fdHintWrite := 4
  fdPreimageRead := 5
  fdPreimageWrite := 6
  fGetfl := 3
  ebadf := 9
  einval := 22
  enosys := 89
  unmapped := []
  preimages := [(Vector.replicate 32 0, [0x41, 0x42, 0x43])]
  keyUpdates := [((Vector.replicate 32 0, [0x33, 0x44]), Vector.replicate 32 0x7E)]

/-- Put these values in registers. -/
def putRegs (s : State) (regs : List (RegNum × Word)) : State :=
  regs.foldl (fun s p => s.setReg p.1 p.2) s

/-- Put these words in memory. -/
def putWords (s : State) (words : List (Word × Word)) : State :=
  { s with mem := words.foldl (fun m p => m.writeWord p.1 p.2) s.mem }

/-- The program counters, the word at `pc` and the registers of a vector; memory as in section 2.2, HI and LO as
in section 2.4. -/
def startAt (pc nextPc word : Word) (regs : List (RegNum × Word)) : State :=
  let s := { State.reset with
    pc := pc, nextPc := nextPc, hi := 0x11111111, lo := 0x22222222, heap := platform.heapStart
    params := platform }
  putRegs (putWords s [(0x2000, 0x11223344), (0x2004, 0x8899AABB), (pc, word)]) regs

/-- The usual start, at 0x1000. -/
def start (word : Word) (regs : List (RegNum × Word)) : State := startAt 0x1000 0x1004 word regs

/-- The step answers exactly this state. -/
def answers (s t : State) : Bool :=
  match step s with
  | .next u => u = t
  | .fault _ => false
  | .refused _ => false

/-- The step ends in exactly this error. -/
def fails (s : State) (f : Fault) : Bool :=
  match step s with
  | .next _ => false
  | .fault g => g = f
  | .refused _ => false

/-- The step moves on to these program counters, counts itself, writes these registers, and nothing else. -/
def goes (s : State) (pc nextPc : Word) (regs : List (RegNum × Word)) : Bool :=
  answers s { putRegs s regs with pc := pc, nextPc := nextPc, stepCount := s.stepCount + 1 }

/-- The step advances, writes these registers and words of memory, and nothing else. -/
def gives (s : State) (regs : List (RegNum × Word)) (words : List (Word × Word)) : Bool :=
  answers s { putWords (putRegs s regs) words with
    pc := s.nextPc, nextPc := s.nextPc + 4, stepCount := s.stepCount + 1 }

/-- The step advances, writes HI and LO, and nothing else. -/
def givesHiLo (s : State) (hi lo : Word) : Bool :=
  answers s { s with
    pc := s.nextPc, nextPc := s.nextPc + 4, stepCount := s.stepCount + 1, hi := hi, lo := lo }

/-! ### Well-formedness (30_encoding.md R93) -/

theorem test_clz_ill_formed : (Instr.clz 8 9 10).wellFormed = false := by decide
theorem test_clo_ill_formed : (Instr.clo 8 9 10).wellFormed = false := by decide
theorem test_clz_well_formed : (Instr.clz 8 10 10).wellFormed = true := by decide

/-! ### Decoding: the words of R88, written out field by field, and words that are no instruction -/

theorem test_decode_arith :
    decodeWord 0b000000_01000_01001_01010_00000100000 = some (.add 8 9 10) ∧
    decodeWord 0b000000_01000_01001_01010_00000100001 = some (.addu 8 9 10) ∧
    decodeWord 0b000000_01000_01001_01010_00000100010 = some (.sub 8 9 10) ∧
    decodeWord 0b000000_01000_01001_01010_00000100011 = some (.subu 8 9 10) ∧
    decodeWord 0b000000_01000_01001_01010_00000100100 = some (.and 8 9 10) ∧
    decodeWord 0b000000_01000_01001_01010_00000100101 = some (.or 8 9 10) ∧
    decodeWord 0b000000_01000_01001_01010_00000100110 = some (.xor 8 9 10) ∧
    decodeWord 0b000000_01000_01001_01010_00000100111 = some (.nor 8 9 10) ∧
    decodeWord 0b000000_01000_01001_01010_00000101010 = some (.slt 8 9 10) ∧
    decodeWord 0b000000_01000_01001_01010_00000101011 = some (.sltu 8 9 10) ∧
    decodeWord 0b001000_01000_01001_1111111111111100 = some (.addi 8 9 0xfffc) ∧
    decodeWord 0b001001_01000_01001_1111111111111100 = some (.addiu 8 9 0xfffc) ∧
    decodeWord 0b001010_01000_01001_1111111111111100 = some (.slti 8 9 0xfffc) ∧
    decodeWord 0b001011_01000_01001_1111111111111100 = some (.sltiu 8 9 0xfffc) ∧
    decodeWord 0b001100_01000_01001_1111111111111100 = some (.andi 8 9 0xfffc) ∧
    decodeWord 0b001101_01000_01001_1111111111111100 = some (.ori 8 9 0xfffc) ∧
    decodeWord 0b001110_01000_01001_1111111111111100 = some (.xori 8 9 0xfffc) ∧
    decodeWord 0b00111100000_01001_1111111111111100 = some (.lui 9 0xfffc) := by
  decide

theorem test_decode_shift_move_count :
    decodeWord 0b00000000000_01001_01010_00100_000000 = some (.sll 9 10 4) ∧
    decodeWord 0b00000000000_01001_01010_00100_000010 = some (.srl 9 10 4) ∧
    decodeWord 0b00000000000_01001_01010_00100_000011 = some (.sra 9 10 4) ∧
    decodeWord 0b000000_01000_01001_01010_00000000100 = some (.sllv 8 9 10) ∧
    decodeWord 0b000000_01000_01001_01010_00000000110 = some (.srlv 8 9 10) ∧
    decodeWord 0b000000_01000_01001_01010_00000000111 = some (.srav 8 9 10) ∧
    decodeWord 0b000000_01000_01001_01010_00000001010 = some (.movz 8 9 10) ∧
    decodeWord 0b000000_01000_01001_01010_00000001011 = some (.movn 8 9 10) ∧
    decodeWord 0b011100_01000_01010_01010_00000100000 = some (.clz 8 10 10) ∧
    decodeWord 0b011100_01000_01010_01010_00000100001 = some (.clo 8 10 10) := by
  decide

theorem test_decode_load_store :
    decodeWord 0b100000_01000_01001_1000000000000011 = some (.lb 8 9 0x8003) ∧
    decodeWord 0b100100_01000_01001_1000000000000011 = some (.lbu 8 9 0x8003) ∧
    decodeWord 0b100001_01000_01001_1000000000000011 = some (.lh 8 9 0x8003) ∧
    decodeWord 0b100101_01000_01001_1000000000000011 = some (.lhu 8 9 0x8003) ∧
    decodeWord 0b100011_01000_01001_1000000000000011 = some (.lw 8 9 0x8003) ∧
    decodeWord 0b100010_01000_01001_1000000000000011 = some (.lwl 8 9 0x8003) ∧
    decodeWord 0b100110_01000_01001_1000000000000011 = some (.lwr 8 9 0x8003) ∧
    decodeWord 0b101000_01000_01001_1000000000000011 = some (.sb 8 9 0x8003) ∧
    decodeWord 0b101001_01000_01001_1000000000000011 = some (.sh 8 9 0x8003) ∧
    decodeWord 0b101011_01000_01001_1000000000000011 = some (.sw 8 9 0x8003) ∧
    decodeWord 0b101010_01000_01001_1000000000000011 = some (.swl 8 9 0x8003) ∧
    decodeWord 0b101110_01000_01001_1000000000000011 = some (.swr 8 9 0x8003) ∧
    decodeWord 0b110000_01000_01001_1000000000000011 = some (.ll 8 9 0x8003) ∧
    decodeWord 0b111000_01000_01001_1000000000000011 = some (.sc 8 9 0x8003) := by
  decide

theorem test_decode_branch :
    decodeWord 0b000010_10000000000000100000000001 = some (.j 0x2000801) ∧
    decodeWord 0b000011_10000000000000100000000001 = some (.jal 0x2000801) ∧
    decodeWord 0b000000_01000_000000000000000001000 = some (.jr 8) ∧
    decodeWord 0b000000_01000_00000_01010_00000001001 = some (.jalr 8 10) ∧
    decodeWord 0b000100_01000_01001_1000000000000011 = some (.beq 8 9 0x8003) ∧
    decodeWord 0b000101_01000_01001_1000000000000011 = some (.bne 8 9 0x8003) ∧
    decodeWord 0b000110_01000_00000_1000000000000011 = some (.blez 8 0x8003) ∧
    decodeWord 0b000111_01000_00000_1000000000000011 = some (.bgtz 8 0x8003) ∧
    decodeWord 0b000001_01000_00000_1000000000000011 = some (.bltz 8 0x8003) ∧
    decodeWord 0b000001_01000_00001_1000000000000011 = some (.bgez 8 0x8003) ∧
    decodeWord 0b000001_01000_10000_1000000000000011 = some (.bltzal 8 0x8003) ∧
    decodeWord 0b000001_01000_10001_1000000000000011 = some (.bgezal 8 0x8003) := by
  decide

theorem test_decode_mul_div :
    decodeWord 0b000000_01000_01001_0000000000011000 = some (.mult 8 9) ∧
    decodeWord 0b000000_01000_01001_0000000000011001 = some (.multu 8 9) ∧
    decodeWord 0b000000_01000_01001_0000000000011010 = some (.div 8 9) ∧
    decodeWord 0b000000_01000_01001_0000000000011011 = some (.divu 8 9) ∧
    decodeWord 0b0000000000000000_01010_00000010000 = some (.mfhi 10) ∧
    decodeWord 0b0000000000000000_01010_00000010010 = some (.mflo 10) ∧
    decodeWord 0b000000_01000_000000000000000010001 = some (.mthi 8) ∧
    decodeWord 0b000000_01000_000000000000000010011 = some (.mtlo 8) ∧
    decodeWord 0b011100_01000_01001_01010_00000000010 = some (.mul 8 9 10) := by
  decide

theorem test_decode_system :
    decodeWord 0b000000_10000000000000000001_001100 = some (.syscall 0x80001) ∧
    decodeWord 0b000000000000000000000_10001_001111 = some (.sync 17) := by
  decide
theorem test_unsupported_words : ([
    0x00000001, 0x00000005, 0x0000000D, 0x00000034, 0x0000001C, 0x04020000, 0x04080000,
    0x40000000, 0x42000018, 0x42000020, 0x44000000, 0x48000000, 0x4C000000, 0x50000000,
    0x70000000, 0x70000001, 0x7000003F, 0x7C00003B, 0x7C000420, 0x7C000000, 0xBC000000,
    0xCC000000, 0xC4000000, 0xE4000000, 0xD4000000, 0xFFFFFFFF, 0x00200000, 0x01090060,
    0x01090818, 0x00000808, 0x00010009, 0x00010010, 0x00000811, 0x18010000, 0x1C010000,
    0x3C200000, 0x71090042, 0x71095020, 0x3C2A8001, 0x00295042, 0x01095046, 0x01000408,
    0x0020000F, 0x05020010, 0x19010010, 0x01095018, 0x71090000] :
    List Word).all (fun w => decodeWord w == none) = true := by
  decide

/-! ### Arithmetic, logic, compare, shift, move, count (95 section 2.1) -/

theorem test_add_v3 :
    fails (start 0x01095020 [(8, 0x80000000), (9, 0xFFFFFFFF)])
      (.integerOverflow 0x01095020) = true := by
  decide
theorem test_add_v4 :
    gives (start 0x01095020 [(8, 0xFFFFFFFF), (9, 0x00000001)]) [(10, 0x00000000)] [] = true := by
  decide
theorem test_addu_v10 :
    gives (start 0x01095021 [(8, 0xFFFFFFFF), (9, 0xFFFFFFFF)]) [(10, 0xFFFFFFFE)] [] = true := by
  decide
theorem test_addu_v11 :
    gives (start 0x01084021 [(8, 0x40000001)]) [(8, 0x80000002)] [] = true := by
  decide
theorem test_sub_v14 :
    fails (start 0x01095022 [(8, 0x00000000), (9, 0x80000000)])
      (.integerOverflow 0x01095022) = true := by
  decide
theorem test_sub_v12 :
    gives (start 0x01095022 [(8, 0x00000005), (9, 0x00000007)]) [(10, 0xFFFFFFFE)] [] = true := by
  decide
theorem test_subu_v19 :
    gives (start 0x01095023 [(8, 0x00000000), (9, 0x80000000)]) [(10, 0x80000000)] [] = true := by
  decide
theorem test_and_v20 :
    gives (start 0x01095024 [(8, 0xFF00FF00), (9, 0x0FF00FF0)]) [(10, 0x0F000F00)] [] = true := by
  decide
theorem test_or_v21 :
    gives (start 0x01095025 [(8, 0xFF00FF00), (9, 0x0FF00FF0)]) [(10, 0xFFF0FFF0)] [] = true := by
  decide
theorem test_xor_v22 :
    gives (start 0x01095026 [(8, 0xFF00FF00), (9, 0x0FF00FF0)]) [(10, 0xF0F0F0F0)] [] = true := by
  decide
theorem test_nor_v24 :
    gives (start 0x01095027 [(8, 0xFF00FF00), (9, 0x0FF00FF0)]) [(10, 0x000F000F)] [] = true := by
  decide
theorem test_slt_v27 :
    gives (start 0x0109502A [(8, 0x00000001), (9, 0xFFFFFFFF)]) [(10, 0x00000000)] [] = true := by
  decide
theorem test_slt_v28 :
    gives (start 0x0109502A [(8, 0x80000000), (9, 0x7FFFFFFF)]) [(10, 0x00000001)] [] = true := by
  decide
theorem test_sltu_v30 :
    gives (start 0x0109502B [(8, 0xFFFFFFFF), (9, 0x00000001)]) [(10, 0x00000000)] [] = true := by
  decide
theorem test_sltu_v31 :
    gives (start 0x0109502B [(8, 0x00000001), (9, 0xFFFFFFFF)]) [(10, 0x00000001)] [] = true := by
  decide
theorem test_addi_v40 :
    fails (start 0x210A8000 [(8, 0x80007FFF)]) (.integerOverflow 0x210A8000) = true := by
  decide
theorem test_addi_v41 :
    gives (start 0x210A8000 [(8, 0x80008000)]) [(10, 0x80000000)] [] = true := by
  decide
theorem test_addiu_v43 :
    gives (start 0x250A8000 [(8, 0x00000000)]) [(10, 0xFFFF8000)] [] = true := by
  decide
theorem test_addiu_v42 :
    gives (start 0x250AFFFF [(8, 0x80000000)]) [(10, 0x7FFFFFFF)] [] = true := by
  decide
theorem test_slti_v46 :
    gives (start 0x290AFFFF [(8, 0xFFFFFFFE)]) [(10, 0x00000001)] [] = true := by
  decide
theorem test_slti_v48 :
    gives (start 0x290A8000 [(8, 0x80000000)]) [(10, 0x00000001)] [] = true := by
  decide
theorem test_sltiu_v53 :
    gives (start 0x2D0A8000 [(8, 0x7FFFFFFF)]) [(10, 0x00000001)] [] = true := by
  decide
theorem test_sltiu_v54 :
    gives (start 0x2D0A8000 [(8, 0xFFFF8000)]) [(10, 0x00000000)] [] = true := by
  decide
theorem test_andi_v57 :
    gives (start 0x310A8001 [(8, 0xFFFFFFFF)]) [(10, 0x00008001)] [] = true := by
  decide
theorem test_ori_v59 :
    gives (start 0x350A8001 [(8, 0x12340000)]) [(10, 0x12348001)] [] = true := by
  decide
theorem test_xori_v61 :
    gives (start 0x390AFFFF [(8, 0xFFFFFFFF)]) [(10, 0xFFFF0000)] [] = true := by
  decide
theorem test_lui_v63 :
    gives (start 0x3C0A8001 [(10, 0x00000055)]) [(10, 0x80010000)] [] = true := by
  decide
theorem test_sll_v67 :
    gives (start 0x00095040 [(9, 0x80000001)]) [(10, 0x00000002)] [] = true := by
  decide
theorem test_srl_v71 :
    gives (start 0x00095042 [(9, 0x80000001)]) [(10, 0x40000000)] [] = true := by
  decide
theorem test_sra_v76 :
    gives (start 0x00095103 [(9, 0x80000001)]) [(10, 0xF8000000)] [] = true := by
  decide
theorem test_sllv_v84 :
    gives (start 0x01095004 [(8, 0x00000024), (9, 0x80000001)]) [(10, 0x00000010)] [] = true := by
  decide
theorem test_srlv_v90 :
    gives (start 0x01095006 [(8, 0xFFFFFFFF), (9, 0x80000001)]) [(10, 0x00000001)] [] = true := by
  decide
theorem test_srav_v94 :
    gives (start 0x01095007 [(8, 0x00000024), (9, 0x80000001)]) [(10, 0xF8000000)] [] = true := by
  decide
theorem test_movz_v97 :
    gives (start 0x0109500A [(8, 0x0000AAAA), (9, 0x00000000), (10, 0x00005555)])
      [(10, 0x0000AAAA)] [] = true := by
  decide
theorem test_movz_v98 :
    gives (start 0x0109500A [(8, 0x0000AAAA), (9, 0x00000001), (10, 0x00005555)])
      [(10, 0x00005555)] [] = true := by
  decide
theorem test_movn_v100 :
    gives (start 0x0109500B [(8, 0x0000AAAA), (9, 0x00000000), (10, 0x00005555)])
      [(10, 0x00005555)] [] = true := by
  decide
theorem test_movn_v101 :
    gives (start 0x0109500B [(8, 0x0000AAAA), (9, 0x00000001), (10, 0x00005555)])
      [(10, 0x0000AAAA)] [] = true := by
  decide
theorem test_clz_v103 :
    gives (start 0x710A5020 [(8, 0x00000000)]) [(10, 0x00000020)] [] = true := by
  decide
theorem test_clz_v105 :
    gives (start 0x710A5020 [(8, 0x00010000)]) [(10, 0x0000000F)] [] = true := by
  decide
theorem test_clo_v109 :
    gives (start 0x710A5021 [(8, 0xFFFFFFFF)]) [(10, 0x00000020)] [] = true := by
  decide
theorem test_clo_v110 :
    gives (start 0x710A5021 [(8, 0xFFFF7FFF)]) [(10, 0x00000010)] [] = true := by
  decide

/-! ### Loads and stores (95 section 2.2) -/

theorem test_lb_v117 :
    gives (start 0x81090001 [(8, 0x00002004)]) [(9, 0xFFFFFF99)] [] = true := by
  decide
theorem test_lb_v136 :
    gives (start 0x81090001 [(8, 0x00002000)]) [(9, 0x00000022)] [] = true := by
  decide
theorem test_lbu_v121 :
    gives (start 0x91090001 [(8, 0x00002004)]) [(9, 0x00000099)] [] = true := by
  decide
theorem test_lh_v126 :
    gives (start 0x85090002 [(8, 0x00002004)]) [(9, 0xFFFFAABB)] [] = true := by
  decide
theorem test_lh_v125 :
    fails (start 0x85090001 [(8, 0x00002004)]) (.addressMisaligned 0x00002005) = true := by
  decide
theorem test_lhu_v128 :
    gives (start 0x95090000 [(8, 0x00002004)]) [(9, 0x00008899)] [] = true := by
  decide
theorem test_lw_v139 :
    gives (start 0x8D097FFF [(8, 0xFFFFA005)]) [(9, 0x8899AABB)] [] = true := by
  decide
theorem test_lw_v144 :
    fails (start 0x8D000001 [(8, 0x00002004)]) (.addressMisaligned 0x00002005) = true := by
  decide
theorem test_lwl_v147 :
    gives (start 0x89090001 [(8, 0x00002004), (9, 0x01020304)]) [(9, 0x99AABB04)] [] = true := by
  decide
theorem test_lwl_v148 :
    gives (start 0x89090002 [(8, 0x00002004), (9, 0x01020304)]) [(9, 0xAABB0304)] [] = true := by
  decide
theorem test_lwr_v151 :
    gives (start 0x99090001 [(8, 0x00002004), (9, 0x01020304)]) [(9, 0x01028899)] [] = true := by
  decide
theorem test_lwr_v152 :
    gives (start 0x99090002 [(8, 0x00002004), (9, 0x01020304)]) [(9, 0x018899AA)] [] = true := by
  decide
theorem test_ll_v154 :
    gives (start 0xC1090000 [(8, 0x00002004)]) [(9, 0x8899AABB)] [] = true := by
  decide
theorem test_ll_v155 :
    fails (start 0xC1090002 [(8, 0x00002004)]) (.addressMisaligned 0x00002006) = true := by
  decide
theorem test_sb_v157 :
    gives (start 0xA1090001 [(8, 0x00002004), (9, 0x01020304)])
      [] [(0x00002004, 0x8804AABB)] = true := by
  decide
theorem test_sh_v162 :
    gives (start 0xA5090002 [(8, 0x00002004), (9, 0x01020304)])
      [] [(0x00002004, 0x88990304)] = true := by
  decide
theorem test_sh_v161 :
    fails (start 0xA5090001 [(8, 0x00002004), (9, 0x01020304)])
      (.addressMisaligned 0x00002005) = true := by
  decide
theorem test_sw_v164 :
    gives (start 0xAD090000 [(8, 0x00002004), (9, 0x01020304)])
      [] [(0x00002004, 0x01020304)] = true := by
  decide
theorem test_sw_v180 :
    gives (start 0xAD090000 [(8, 0x00001000), (9, 0xDEADBEEF)])
      [] [(0x00001000, 0xDEADBEEF)] = true := by
  decide
theorem test_swl_v170 :
    gives (start 0xA9090002 [(8, 0x00002004), (9, 0x01020304)])
      [] [(0x00002004, 0x88990102)] = true := by
  decide
theorem test_swr_v173 :
    gives (start 0xB9090001 [(8, 0x00002004), (9, 0x01020304)])
      [] [(0x00002004, 0x0304AABB)] = true := by
  decide
theorem test_sc_v176 :
    gives (start 0xE1090000 [(8, 0x00002004), (9, 0x01020304)])
      [(9, 0x00000001)] [(0x00002004, 0x01020304)] = true := by
  decide
theorem test_sc_v178 :
    gives (start 0xE1000000 [(8, 0x00002004)])
      [(0, 0x00000000)] [(0x00002004, 0x00000000)] = true := by
  decide

/-! ### Branches and jumps (95 section 2.3) -/

theorem test_j_v183 :
    goes (startAt 0x10001000 0x10001004 0x0BFFFFFF []) 0x10001004 0x1FFFFFFC [] = true := by
  decide
theorem test_j_v184 :
    fails (startAt 0x00001000 0x00003000 0x08000800 []) (.branchInDelaySlot 0x00001000) = true := by
  decide
theorem test_jal_v186 :
    goes (start 0x0C000800 []) 0x00001004 0x00002000 [(31, 0x00001008)] = true := by
  decide
theorem test_jr_v189 :
    goes (start 0x01000008 [(8, 0x00004002)]) 0x00001004 0x00004002 [] = true := by
  decide
theorem test_jalr_v195 :
    goes (start 0x01004009 [(8, 0x00004000)]) 0x00001004 0x00004000 [(8, 0x00001008)] = true := by
  decide
theorem test_jalr_v194 :
    goes (start 0x01004809 [(8, 0x00004000)]) 0x00001004 0x00004000 [(9, 0x00001008), (31, 0x00000000)] = true := by
  decide
theorem test_beq_v205 : goes (start 0x10008000 []) 0x00001004 0xFFFE1004 [] = true := by decide
theorem test_beq_v206 :
    fails (startAt 0x00001000 0x00003000 0x11090003 [(8, 0x00000005), (9, 0x00000006)])
      (.branchInDelaySlot 0x00001000) = true := by
  decide
theorem test_bne_v199 :
    goes (start 0x15090003 [(8, 0x00000005), (9, 0x00000005)]) 0x00001004 0x00001008 [] = true := by
  decide
theorem test_bne_v200 :
    goes (start 0x15090003 [(8, 0x00000005), (9, 0x00000006)]) 0x00001004 0x00001010 [] = true := by
  decide
theorem test_blez_v208 :
    goes (start 0x19000010 [(8, 0x00000000)]) 0x00001004 0x00001044 [] = true := by
  decide
theorem test_blez_v210 :
    goes (start 0x19000010 [(8, 0x80000000)]) 0x00001004 0x00001044 [] = true := by
  decide
theorem test_bgtz_v213 :
    goes (start 0x1D000010 [(8, 0x00000000)]) 0x00001004 0x00001008 [] = true := by
  decide
theorem test_bgtz_v214 :
    goes (start 0x1D000010 [(8, 0x00000001)]) 0x00001004 0x00001044 [] = true := by
  decide
theorem test_bltz_v218 :
    goes (start 0x05000010 [(8, 0x00000000)]) 0x00001004 0x00001008 [] = true := by
  decide
theorem test_bltz_v220 :
    goes (start 0x05000010 [(8, 0x80000000)]) 0x00001004 0x00001044 [] = true := by
  decide
theorem test_bgez_v223 :
    goes (start 0x05010010 [(8, 0x00000000)]) 0x00001004 0x00001044 [] = true := by
  decide
theorem test_bgez_v225 :
    goes (start 0x05010010 [(8, 0x80000000)]) 0x00001004 0x00001008 [] = true := by
  decide
theorem test_bltzal_v229 :
    goes (start 0x05100010 [(8, 0x00000000)]) 0x00001004 0x00001008 [(31, 0x00001008)] = true := by
  decide
theorem test_bltzal_v233 :
    goes (start 0x07F00010 [(31, 0x80000000)]) 0x00001004 0x00001044 [(31, 0x00001008)] = true := by
  decide
theorem test_bgezal_v230 :
    goes (start 0x05110010 [(8, 0xFFFFFFFF)]) 0x00001004 0x00001008 [(31, 0x00001008)] = true := by
  decide
theorem test_bgezal_v234 :
    goes (start 0x07F10010 [(31, 0x80000000)]) 0x00001004 0x00001008 [(31, 0x00001008)] = true := by
  decide

/-! ### Multiply and divide (95 section 2.4) -/

theorem test_mult_v238 :
    givesHiLo (start 0x01090018 [(8, 0xFFFFFFFF), (9, 0x00000005)]) 0xFFFFFFFF 0xFFFFFFFB = true := by
  decide
theorem test_mult_v243 :
    givesHiLo (start 0x01090018 [(8, 0x12345678), (9, 0x9ABCDEF0)]) 0xF8CC93D6 0x242D2080 = true := by
  decide
theorem test_multu_v247 :
    givesHiLo (start 0x01090019 [(8, 0xFFFFFFFF), (9, 0xFFFFFFFF)]) 0xFFFFFFFE 0x00000001 = true := by
  decide
theorem test_div_v254 :
    givesHiLo (start 0x0109001A [(8, 0xFFFFFFF9), (9, 0x00000002)]) 0xFFFFFFFF 0xFFFFFFFD = true := by
  decide
theorem test_div_v261 :
    givesHiLo (start 0x0109001A [(8, 0x80000000), (9, 0xFFFFFFFF)]) 0x00000000 0x80000000 = true := by
  decide
theorem test_divu_v268 :
    givesHiLo (start 0x0109001B [(8, 0x80000000), (9, 0xFFFFFFFF)]) 0x80000000 0x00000000 = true := by
  decide
theorem test_divu_v271 :
    fails (start 0x0109001B [(8, 0x00000005), (9, 0x00000000)])
      (.divideByZero 0x0109001B) = true := by
  decide
theorem test_mfhi_v272 : gives (start 0x00005010 []) [(10, 0x11111111)] [] = true := by decide
theorem test_mflo_v273 : gives (start 0x00005012 []) [(10, 0x22222222)] [] = true := by decide
theorem test_mthi_v275 :
    givesHiLo (start 0x01000011 [(8, 0xCAFEBABE)]) 0xCAFEBABE 0x22222222 = true := by
  decide
theorem test_mtlo_v276 :
    givesHiLo (start 0x01000013 [(8, 0xCAFEBABE)]) 0x11111111 0xCAFEBABE = true := by
  decide
theorem test_mul_v280 :
    gives (start 0x71095002 [(8, 0x12345678), (9, 0x9ABCDEF0)]) [(10, 0x242D2080)] [] = true := by
  decide
/-! ### System, fetch and the exited state (95 sections 2.5 to 2.7) -/

theorem test_sync_v285 : gives (start 0x000007CF []) [] [] = true := by decide

/-- A call with these registers 2, 4, 5, 6, register 7 holding 0x77 (section 2.7). -/
def call (r2 r4 r5 r6 : Word) : State :=
  start 0x0000000C [(2, r2), (4, r4), (5, r5), (6, r6), (7, 0x77)]

/-- Calls that only return, with their registers 2 and 7: V340, V349's failure by size, V350, V357, V356, V361,
V363, V364, V365, V367, V370, V371, V379. -/
theorem test_syscall_returns : ([
    (4045, 7, 7, 7, 0x40000000, 0), (4090, 0, 0xFFFFFFFF, 0, 0xFFFFFFFF, 22),
    (4090, 0x12345678, 0xFFFFFFFF, 0, 0x12345678, 0), (4055, 1, 3, 0, 1, 0), (4055, 3, 3, 0, 0, 0),
    (4055, 0x4D, 3, 0, 0xFFFFFFFF, 9), (4055, 0x4D, 2, 0, 0xFFFFFFFF, 22),
    (4003, 3, 0x3001, 100, 100, 0), (4003, 0, 0x3000, 16, 0, 0), (4003, 6, 0x3000, 16, 0xFFFFFFFF, 9),
    (4004, 2, 0x3003, 0, 0, 0), (4004, 0, 0x3000, 16, 0xFFFFFFFF, 9), (1, 0, 0, 0, 0xFFFFFFFF, 89)] :
    List (Word × Word × Word × Word × Word × Word)).all (fun (n, a0, a1, a2, v0, a3) =>
      gives (call n a0 a1 a2) [(2, v0), (7, a3)] []) = true := by
  decide

/-- V342 and V353, V373, V376, and preimage reads V382, V385, V387: what else a call changes. -/
theorem test_syscall_effects :
    answers { call 4090 0 1 0 with heap := 0x5FFFF000 }
      { putRegs (call 4090 0 1 0) [(2, 0x5FFFF000), (7, 0)] with
        heap := 0x60000000, pc := 0x1004, nextPc := 0x1008, stepCount := 1 } = true ∧
    answers (call 4246 0x103 0 0)
      { call 4246 0x103 0 0 with
        exited := true, exitCode := 3, pc := 0x1004, nextPc := 0x1008, stepCount := 1 } = true ∧
    answers (call 4004 4 0x2001 5)
      { putRegs (call 4004 4 0x2001 5) [(2, 5), (7, 0)] with
        lastHint := [0x22, 0x33, 0x44, 0x88, 0x99], pc := 0x1004, nextPc := 0x1008
        stepCount := 1 } = true ∧
    answers { call 4004 6 0x2002 32 with preimageOffset := 9 }
      { putRegs (call 4004 6 0x2002 32) [(2, 2), (7, 0)] with
        preimageKey := Vector.replicate 32 0x7E, pc := 0x1004, nextPc := 0x1008
        stepCount := 1 } = true ∧
    ([(0x3000, 4, 8, 3, 0x414243EE), (0x3001, 8, 0, 3, 0xEE000000), (0x3002, 4, 7, 2, 0xEEEE0341)] :
      List (Word × Word × Word × Word × Word)).all (fun (a, n, o, c, w) =>
        answers { putWords (call 4003 5 a n) [(0x3000, 0xEEEEEEEE)] with preimageOffset := o }
          { putWords (putRegs (call 4003 5 a n) [(2, c), (7, 0)]) [(0x3000, w)] with
            preimageOffset := o + c, pc := 0x1004, nextPc := 0x1008, stepCount := 1 }) = true := by
  decide

theorem test_fetch_misaligned_v328 :
    fails (startAt 0x1002 0x1006 0 []) (.addressMisaligned 0x1002) = true := by decide

theorem test_unsupported_before_delay_slot_v331 :
    fails (startAt 0x1000 0x3000 0x05020010 []) (.unsupportedInstruction 0x05020010) = true := by decide

/-- V335: a platform that does not map the word at 0x2004. -/
theorem test_unmapped_v335 :
    fails { start 0x81090001 [(8, 0x2004)] with params := { platform with unmapped := [⟨0x2004, 4⟩] } }
      (.addressUnmapped 0x2005) = true := by
  decide

theorem test_exited_v336 :
    answers { startAt 0x1001 0 0 [] with exited := true, exitCode := 7, stepCount := 9 }
      { startAt 0x1001 0 0 [] with exited := true, exitCode := 7, stepCount := 9 } = true := by
  decide

theorem test_counter_wraps_v337 :
    answers { start 0 [] with stepCount := 0xFFFFFFFFFFFFFFFF }
      { start 0 [] with pc := 0x1004, nextPc := 0x1008, stepCount := 0 } = true := by
  decide

theorem test_pc_wraps_v338 : goes (startAt 0xFFFFFFFC 0 0 []) 0 4 [] = true := by decide

/-! ### Witnesses: states and operands that meet each statement's hypotheses together -/

/-- The word at `pc` is fetched and is `i`. -/
def runs (s : State) (i : Instr) : Bool :=
  !s.exited && match s.fetch with
    | .ok insn => decodeWord insn = some i
    | .error _ => false

theorem executes_of_runs {s : State} {i : Instr} (h : runs s i = true) : s.Executes i := by
  unfold runs at h
  rw [Bool.and_eq_true, Bool.not_eq_true'] at h
  refine ⟨h.1, ?_⟩
  obtain ⟨-, h⟩ := h
  split at h
  · exact ⟨_, ‹_›, of_decide_eq_true h⟩
  · cases h

theorem step_of_answers {s t : State} (h : answers s t = true) : step s = .next t := by
  unfold answers at h
  split at h
  · rename_i u hu; rw [hu, of_decide_eq_true h]
  · cases h
  · cases h

theorem step_of_fails {s : State} {f : Fault} (h : fails s f = true) : step s = .fault f := by
  unfold fails at h
  split at h
  · cases h
  · rename_i u hu; rw [hu, of_decide_eq_true h]
  · cases h

/-- `exec` answers some state. -/
def ends (i : Instr) (s : State) : Bool :=
  match exec i s with
  | .next _ => true
  | .fault _ => false
  | .refused _ => false

theorem next_of_ends {i : Instr} {s : State} (h : ends i s = true) : ∃ t, exec i s = .next t := by
  unfold ends at h
  split at h
  · exact ⟨_, ‹_›⟩
  · cases h
  · cases h

/-- Stores the word of register 9 at 0x2004. -/
def storing : State := start 0xAD090000 [(8, 0x2004), (9, 0x01020304)]

/-- Its step misaligns. -/
def misaligning : State := start 0x8D090001 [(8, 0x2004)]

/-- Takes a branch to 0x1010, over this word in the delay slot. -/
def branching (slot : Word) : State := putWords (start 0x10000003 []) [(0x1004, slot)]

/-- A platform that does not map the word at 0x2004. -/
def holed (s : State) : State :=
  { s with params := { platform with unmapped := [⟨0x2004, 4⟩] } }

theorem witness_StepKeepsInvariant : storing.Inv ∧ step storing = .next storing.after :=
  ⟨by decide, step_of_answers (by decide)⟩

theorem witness_StepRelationOverTime :
    storing.regs[0] = 0#32 ∧
    ({ storing with exited := true } : State).exited = true ∧
    (∃ f, step misaligning = .fault f) ∧
    (∃ t, step storing = .next t ∧ storing.exited = false) ∧
    (∃ t, storing.Executes (.sw 8 9 0) ∧ (Instr.sw 8 9 0).isBranch = false ∧ step storing = .next t) ∧
    (∃ t, (branching 0).Executes (.beq 0 0 3) ∧ step (branching 0) = .next t) ∧
    ∀ code, ¬storing.Executes (.syscall code) := by
  have hs : storing.Executes (.sw 8 9 0) := executes_of_runs (by decide)
  have ht : step storing = .next storing.after := step_of_answers (by decide)
  refine ⟨by decide, rfl, ⟨_, step_of_fails (f := .addressMisaligned 0x2005) (by decide)⟩,
    ⟨_, ht, by decide⟩, ⟨_, hs, rfl, ht⟩,
    ⟨_, executes_of_runs (by decide), step_of_answers (t := (branching 0).after) (by decide)⟩, ?_⟩
  intro code h
  cases executes_unique hs h

theorem witness_CounterAndHintAreNeverRead :
    step storing = .next storing.after ∧ step misaligning = .fault (.addressMisaligned 0x2005) :=
  ⟨step_of_answers (by decide), step_of_fails (by decide)⟩

/-- The last word of the space, and the byte just past it. -/
theorem witness_WrittenWordIsReadBack :
    (0xFFFFFFFC#32).toNat % 4 = 0 ∧ 4 ≤ (0#32 - 0xFFFFFFFC#32).toNat := by
  decide

theorem witness_WordsAndLanesAreBytesInOrder :
    (0xFFFFFFFC#32).toNat % 4 = 0 ∧ (0xFFFFFFFE#32).toNat % 2 = 0 := by
  decide

theorem witness_MemoryPrimitivesCheckThenAct :
    (0x2005#32).toNat % 4 ≠ 0 ∧ (0x2007#32).toNat % 2 ≠ 0 ∧
    ((holed storing).mapped (wordBase 0x2004) = false ∧ (0x2004#32).toNat % 4 = 0) ∧
    ((holed storing).mapped (wordBase 0x2006) = false ∧ (0x2006#32).toNat % 2 = 0) ∧
    (storing.mapped (wordBase 0xFFFFFFFC) ≠ false ∧ (0xFFFFFFFC#32).toNat % 4 = 0) ∧
    (storing.mapped (wordBase 0xFFFFFFFE) ≠ false ∧ (0xFFFFFFFE#32).toNat % 2 = 0) := by
  decide

/-- One memory written in two orders, with an entry that went away again. -/
theorem witness_CanonicalMemoriesAreExtensional :
    ∃ m m' : Memory, m = ((Memory.write [] 7 3).write 5 1).write 7 0 ∧ m' = Memory.write [] 5 1 ∧
      m.wf = true ∧ m'.wf = true ∧ ∀ x : Word, m.byteAt x = m'.byteAt x :=
  ⟨_, _, rfl, rfl, by decide, by decide, fun _ => rfl⟩

theorem witness_SetRangePlacesEachByte :
    2 ^ 32 < (0xFFFFFFFF#32).toNat + ([1, 2] : List Byte).length ∧
    (0xFFFFFFFF#32).toNat + ([1] : List Byte).length ≤ 2 ^ 32 ∧
    (0xFFFFFFFF#32).toNat + ([] : List Byte).length ≤ 2 ^ 32 ∧ storing.mem.wf = true := by
  decide

/-- A load, a merging store, a word store and an instruction with no data access; a preimage read and write
that move bytes and that move none; a hint write; and another service. -/
theorem witness_StepTouchesTheListedWords :
    storing.after.mem.byteAt 0x2004 ≠ storing.mem.byteAt 0x2004 ∧
    (∀ p ∈ [(0x81090000#32, Instr.lb 8 9 0), (0xA1090000, .sb 8 9 0), (0xAD090000, .sw 8 9 0),
        (0x0000000F, .sync 0)],
      let s := start p.1 [(8, 0x2004), (9, 0x01020304)]
      s.Executes p.2 ∧ step s = .next s.after) ∧
    ∀ p ∈ [(call 4003 5 0x3000 4, Service.readPreimage, false), (call 4003 5 0x3000 0, .readPreimage, true),
        (call 4004 6 0x2002 4, .writePreimage, false), (call 4004 6 0x2002 0, .writePreimage, true),
        (call 4004 4 0x2001 5, .writeHint, false), (call 4045 0 0 0, .brk, false)],
      p.1.Executes (.syscall 0) ∧ step p.1 = .next p.1.after ∧ p.1.service = p.2.1 ∧
        decide (p.1.after.reg 2#5 = 0#32) = p.2.2 := by
  refine ⟨by decide, ?_, ?_⟩ <;> intro p hp
  · fin_cases hp <;> exact ⟨executes_of_runs (by decide), step_of_answers (by decide)⟩
  · fin_cases hp <;>
      exact ⟨executes_of_runs (by decide), step_of_answers (by decide), by decide, by decide⟩

/-- Another memory: a byte of the stored word, which the step does not read, differs. -/
theorem witness_StepDependsOnTheListedWordsOnly :
    let m := storing.mem.write 0x2005 1
    storing.Executes (.sw 8 9 0) ∧ step storing = .next storing.after ∧
    (∀ x : Word, .read (wordBase x) ∈ storing.accesses (.sw 8 9 0) →
      m.byteAt x = storing.mem.byteAt x) ∧
    m.byteAt 0x2005 ≠ storing.mem.byteAt 0x2005 := by
  refine ⟨executes_of_runs (by decide), step_of_answers (by decide), fun x hx => ?_, by decide⟩
  have hx : wordBase x = 0x1000 := by
    rcases List.mem_cons.mp hx with h | h
    · exact Access.read.inj h
    · exact absurd h (by simp [State.dataAccesses])
  have hne : x ≠ 0x2005#32 := by
    rintro rfl
    exact absurd hx (by decide)
  exact (Memory.byteAt_write storing.mem 0x2005#32 x 1#8).trans (if_neg hne)

/-- The word at 0x1000 is a store to 0x1004. -/
def overwriting (word value : Word) : State := start word [(8, 0x1004), (9, value)]

/-- Each of the six stores puts an ADDIU where the next step fetches; the last store puts no instruction there. -/
theorem witness_StoreIsSeenByTheNextFetch :
    ∀ p ∈ [(0xAD090000#32, Instr.sw 8 9 0, some (Instr.addiu 0 1 0x2424)),
        (0xE1090000, .sc 8 9 0, some (.addiu 0 1 0x2424)),
        (0xA1090000, .sb 8 9 0, some (.addiu 0 0 0)),
        (0xA5090000, .sh 8 9 0, some (.addiu 1 4 0)),
        (0xA9090000, .swl 8 9 0, some (.addiu 0 1 0x2424)),
        (0xB9090000, .swr 8 9 0, some (.addiu 0 0 0)),
        (0xA1090001, .sb 8 9 1, none)],
      let s := overwriting p.1 0x24012424
      s.Executes p.2.1 ∧ step s = .next s.after ∧
        wordBase (s.effAddr 8 0) = s.nextPc ∧ wordBase (s.effAddr 8 1) = s.nextPc ∧
        decodeWord (s.after.mem.readWord s.nextPc) = p.2.2 := by
  intro p hp
  fin_cases hp <;>
    exact ⟨executes_of_runs (by decide), step_of_answers (by decide), by decide, by decide, by decide⟩

/-- Off the sequential `nextPc` a launch is allowed at an instruction that is no branch, and at no branch (R296). -/
theorem test_launch_off_sequence :
    ({ storing with nextPc := 0x3001 } : State).LaunchPremises ∧
    ¬({ branching 0 with nextPc := 0x3001 } : State).LaunchPremises := by
  decide

theorem witness_EncodedInstructionDecodesToItself :
    (Instr.clz 8 10 10).wellFormed = true ∧ (Instr.syscall 0xFFFFF).wellFormed = true := by decide

theorem witness_DecodedWordEncodesBack :
    decodeWord 0x710A5020 = some (.clz 8 10 10) ∧ decodeWord 0x03FFFFCC = some (.syscall 0xFFFFF) := by
  decide

theorem witness_RowsAreDisjointAndDecide :
    opcodeTable[26].admits 0x710A5020 = true ∧ opcodeTable[0].admits 0x710A5020 = false ∧
    (∃ r ∈ opcodeTable, r.admits 0x01095020 = true) ∧
    ∀ r ∈ opcodeTable, r.admits 0xFFFFFFFF = false := by
  decide

theorem witness_UnassignedOpcodeCellsAreUnsupported :
    opField 0xFFFFFFFF = 0x3F ∧ (opField 0x0000000D = 0 ∧ functField 0x0000000D = 0x0D) ∧
    (opField 0x05020010 = 1 ∧ rtField 0x05020010 ∉ [0x00#5, 0x01#5, 0x10#5, 0x11#5]) ∧
    (opField 0x71090000 = 0x1C ∧ functField 0x71090000 ∉ [0x02#6, 0x20#6, 0x21#6]) := by
  decide

/-- The words are those of 95 section 2.6, one for each clause. -/
theorem witness_ReservedFieldsMustBeZero :
    (functField 0x00200000 = 0x00 ∧ rsField 0x00200000 ≠ 0) ∧
    (functField 0x01090060 = 0x20 ∧ saField 0x01090060 ≠ 0) ∧
    (functField 0x00000808 = 0x08 ∧ (0x00000808#32).extractLsb' 6 15 ≠ 0) ∧
    (functField 0x00010009 = 0x09 ∧ rtField 0x00010009 ≠ 0) ∧
    (functField 0x00010010 = 0x10 ∧ (0x00010010#32).extractLsb' 16 10 ≠ 0) ∧
    (functField 0x01090818 = 0x18 ∧ (0x01090818#32).extractLsb' 6 10 ≠ 0) ∧
    (functField 0x0020000F = 0x0F ∧ (0x0020000F#32).extractLsb' 11 15 ≠ 0) ∧
    (functField 0x000007CF = 0x0F ∧ (0x000007CF#32).extractLsb' 11 15 = 0) ∧
    (opField 0x03FFFFCC = 0 ∧ functField 0x03FFFFCC = 0x0C) ∧
    (opField 0x3C200000 = 0x0F ∧ rsField 0x3C200000 ≠ 0) ∧
    (opField 0x18010000 = 0x06 ∧ rtField 0x18010000 ≠ 0) ∧
    (opField 0x71090042 = 0x1C ∧ saField 0x71090042 ≠ 0) ∧
    (opField 0x71095020 = 0x1C ∧ functField 0x71095020 = 0x20 ∧
      rtField 0x71095020 ≠ rdField 0x71095020) := by
  decide

theorem witness_StepRunsTheDecodedInstruction :
    (storing.exited = false ∧ storing.pc.toNat % 4 = 0 ∧ storing.mapped storing.pc = true) ∧
    (∃ i t, decodeBytes [storing.mem.byteAt 0x1000, storing.mem.byteAt 0x1001,
      storing.mem.byteAt 0x1002, storing.mem.byteAt 0x1003] = .ok (i, []) ∧
      exec i storing = .next t) ∧
    ∃ i f, decodeBytes [misaligning.mem.byteAt 0x1000, misaligning.mem.byteAt 0x1001,
      misaligning.mem.byteAt 0x1002, misaligning.mem.byteAt 0x1003] = .ok (i, []) ∧
      exec i misaligning = .fault f := by
  obtain ⟨t, ht⟩ := next_of_ends (i := .sw 8 9 0) (s := storing) (by decide)
  exact ⟨by decide, ⟨.sw 8 9 0, t, by rfl, ht⟩, ⟨.lw 8 9 1, .addressMisaligned 0x2005, by rfl, by rfl⟩⟩

theorem witness_ExitedAndFatalStepsChangeNothing :
    ({ misaligning with exited := true } : State).exited = true ∧
    step misaligning = .fault (.addressMisaligned 0x2005) :=
  ⟨rfl, step_of_fails (by decide)⟩

/-- Each of the six errors is raised, and a state that meets no condition of the table. -/
theorem witness_FatalErrorsAreExactlyTheTable :
    step (start 0x0000000D []) = .fault (.unsupportedInstruction 0x0000000D) ∧
    step (startAt 0x1002 0x1006 0 []) = .fault (.addressMisaligned 0x1002) ∧
    step misaligning = .fault (.addressMisaligned 0x2005) ∧
    step (holed storing) = .fault (.addressUnmapped 0x2004) ∧
    step (holed (call 4004 4 0x2001 5)) = .fault (.addressUnmapped 0x2004) ∧
    step (startAt 0x1000 0x3000 0x08000800 []) = .fault (.branchInDelaySlot 0x1000) ∧
    step (start 0x01090020 [(8, 0x7FFFFFFF), (9, 1)]) = .fault (.integerOverflow 0x01090020) ∧
    step (start 0x0100001A [(8, 5)]) = .fault (.divideByZero 0x0100001A) ∧
    ∀ f, ¬(start 0 []).StepRaises f := by
  refine ⟨step_of_fails (by decide), step_of_fails (by decide), step_of_fails (by decide),
    step_of_fails (by decide), step_of_fails (by decide), step_of_fails (by decide),
    step_of_fails (by decide), step_of_fails (by decide), ?_⟩
  rintro f ⟨-, ⟨h, -⟩ | ⟨-, h, -⟩ | ⟨-, -, ⟨h, -⟩ | ⟨i, hi, h⟩⟩⟩
  · exact h (by decide)
  · exact absurd h (by decide)
  · exact absurd h (by decide)
  · obtain rfl : Instr.sll 0 0 0 = i := Option.some.inj ((by decide :
      some (Instr.sll 0 0 0) = decodeWord ((start 0 []).mem.readWord (start 0 []).pc)).trans hi)
    exact h

/-- `addiu $8, $8, 1` in the slot of a taken branch, and `j 0x2000` there (95 section 3.4). -/
theorem witness_DelaySlotRunsBeforeTheTarget :
    (∀ slot ∈ [0x25080001, 0x08000800], (branching slot).Executes (.beq 0 0 3) ∧
      (Instr.beq 0 0 3).isBranch = true ∧
      step (branching slot) = .next (branching slot).after) ∧
    ((branching 0x25080001).after.Executes (.addiu 8 8 1) ∧ (Instr.addiu 8 8 1).isBranch = false ∧
      ∃ u, step (branching 0x25080001).after = .next u) ∧
    ((branching 0x08000800).after.Executes (.j 0x800) ∧ (Instr.j 0x800).isBranch = true ∧
      (branching 0x08000800).after.nextPc ≠ (branching 0x08000800).after.pc + 4#32) := by
  refine ⟨?_, ⟨executes_of_runs (by decide), rfl,
    ⟨(branching 0x25080001).after.after, step_of_answers (by decide)⟩⟩,
    ⟨executes_of_runs (by decide), rfl, by decide⟩⟩
  intro slot h
  fin_cases h <;> exact ⟨executes_of_runs (by decide), rfl, step_of_answers (by decide)⟩

/-- The greatest and least sums that fit, and the least and greatest that do not (V1, V2, V3, V12, V13, V37,
V39, V41). -/
theorem witness_SignedSumsFitOrTrap :
    let fits : Int → Prop := fun x => -2 ^ 31 ≤ x ∧ x ≤ 2 ^ 31 - 1
    let s := start 0 [(8, 0x7FFFFFFE), (9, 1), (10, 0x7FFFFFFF), (11, 0x80000000), (12, 0xFFFFFFFF)]
    (fits ((s.reg 8).toInt + (s.reg 9).toInt) ∧ ¬fits ((s.reg 10).toInt + (s.reg 9).toInt) ∧
      ¬fits ((s.reg 11).toInt + (s.reg 12).toInt)) ∧
    (fits ((s.reg 11).toInt - (s.reg 0).toInt) ∧ ¬fits ((s.reg 11).toInt - (s.reg 9).toInt) ∧
      ¬fits ((s.reg 10).toInt - (s.reg 12).toInt)) ∧
    (fits ((s.reg 8).toInt + (1#16).toInt) ∧ ¬fits ((s.reg 10).toInt + (1#16).toInt) ∧
      ¬fits ((s.reg 11).toInt + (0xFFFF#16).toInt)) := by
  decide

/-- Equal operands, and operands one apart on each side of the sign (V28, V29, V32, V53). -/
theorem witness_ComparisonsSetOneOrZero :
    let s := start 0 [(8, 0x7FFFFFFF), (9, 0x80000000), (10, 0xFFFF7FFF)]
    ((s.reg 9).toInt < (s.reg 8).toInt ∧ ¬(s.reg 8).toInt < (s.reg 8).toInt) ∧
    ((s.reg 8).toNat < (s.reg 9).toNat ∧ ¬(s.reg 9).toNat < (s.reg 9).toNat) ∧
    ((s.reg 10).toInt < (0x8000#16).toInt ∧ ¬(s.reg 0).toInt < (0#16).toInt) ∧
    (((s.reg 10).toNat : Int) < (0x8000#16).toInt % 2 ^ 32 ∧
      ¬((s.reg 0).toNat : Int) < (0#16).toInt % 2 ^ 32) := by
  decide

/-- A field that is not the zero its row asks for: LUI, BLEZ and BGTZ, the shifts, CLZ and CLO. -/
theorem witness_LogicImmediatesZeroExtend : (1 : RegNum) ≠ 0#5 := by decide
theorem witness_ZeroBranchesCompareSigned : (31 : RegNum) ≠ 0#5 := by decide
theorem witness_ConstantShiftsScaleByPowersOfTwo : (1 : RegNum) ≠ 0#5 := by decide
theorem witness_VariableShiftsUseFiveBits : (1 : BitVec 5) ≠ 0#5 := by decide
theorem witness_CountsStopAtTheFirstBit : (9 : RegNum) ≠ 10 := by decide

/-- The three ends of an aligned access (LH, LHU, LW, SH, SW, LL, SC): the misaligned address next to the word, the
unmapped word, and a mapped one at the top of the space. -/
theorem witness_LoadsExtendTheAddressedBytes :
    let s := start 0 [(8, 0x2004), (10, 0xFFFFFFFC)]
    (¬(s.effAddr 8 3).toNat % 2 = 0 ∧ ¬(s.effAddr 8 2).toNat % 4 = 0) ∧
    ((s.effAddr 8 0).toNat % 4 = 0 ∧ (holed s).mapped (wordBase ((holed s).effAddr 8 0)) = false) ∧
    ((s.effAddr 8 2).toNat % 2 = 0 ∧ (holed s).mapped (wordBase ((holed s).effAddr 8 2)) = false) ∧
    ((s.effAddr 8 3).toNat % 1 = 0 ∧ (holed s).mapped (wordBase ((holed s).effAddr 8 3)) = false) ∧
    ((s.effAddr 10 0).toNat % 4 = 0 ∧ s.mapped (wordBase (s.effAddr 10 0)) = true) ∧
    ((s.effAddr 10 3).toNat % 1 = 0 ∧ s.mapped (wordBase (s.effAddr 10 3)) = true) := by
  decide

theorem witness_StoresWriteOnlyTheirBytes :
    let s := start 0 [(8, 0x2004), (9, 0xFFFFFFFE)]
    (¬(s.effAddr 8 1).toNat % 2 = 0 ∧ ¬(s.effAddr 8 2).toNat % 4 = 0) ∧
    ((s.effAddr 8 0).toNat % 4 = 0 ∧ (holed s).mapped (wordBase ((holed s).effAddr 8 0)) = false) ∧
    ((s.effAddr 9 0).toNat % 2 = 0 ∧ s.mapped (wordBase (s.effAddr 9 0)) = true) := by
  decide

theorem witness_PartialLoadsMergeBytes :
    let s := start 0 [(8, 0x2007)]
    (True ∧ (holed s).mapped (wordBase ((holed s).effAddr 8 0)) = false) ∧
    (True ∧ s.mapped (wordBase (s.effAddr 8 0)) = true) := by
  decide

theorem witness_PartialStoresWriteOnlyTheirBytes :
    let s := start 0 [(8, 0x2004), (9, 0xFFFFFFFF)]
    (True ∧ (holed s).mapped (wordBase ((holed s).effAddr 8 3)) = false) ∧
    (True ∧ s.mapped (wordBase (s.effAddr 9 0)) = true) := by
  decide

theorem witness_LinkedLoadsAndStoresAlwaysSucceed :
    let s := start 0 [(8, 0x2004), (9, 0xFFFFFFFC)]
    ¬(s.effAddr 8 2).toNat % 4 = 0 ∧
    ((s.effAddr 8 0).toNat % 4 = 0 ∧ (holed s).mapped (wordBase ((holed s).effAddr 8 0)) = false) ∧
    ((s.effAddr 9 0).toNat % 4 = 0 ∧ s.mapped (wordBase (s.effAddr 9 0)) = true) := by
  decide

/-- The idiom of 95 section 2.2 at 0x2001, and one across the top of the space. -/
theorem witness_UnalignedPairsMoveTheWholeWord :
    let s := start 0 [(8, 0x2001), (10, 0xFFFFFFFE)]
    (s.effAddr 8 3 = s.effAddr 8 0 + 3#32 ∧ s.mapped (wordBase (s.effAddr 8 0)) = true ∧
      s.mapped (wordBase (s.effAddr 8 0 + 3#32)) = true ∧ (9 : RegNum) ≠ 8) ∧
    (s.effAddr 10 3 = s.effAddr 10 0 + 3#32 ∧ s.mapped (wordBase (s.effAddr 10 0)) = true ∧
      s.mapped (wordBase (s.effAddr 10 0 + 3#32)) = true) := by
  decide

/-- The two sides of the delay-slot check, at the top of the space too (V184, V185). -/
theorem witness_JumpsTransferWithinTheRegion :
    (startAt 0x1000 0x3000 0 []).nextPc ≠ (startAt 0x1000 0x3000 0 []).pc + 4#32 ∧
    (startAt 0xFFFFFFFC 0 0 []).nextPc = (startAt 0xFFFFFFFC 0 0 []).pc + 4#32 := by
  decide
theorem witness_RegisterJumpsUseTheOldValue :
    (startAt 0x1000 0x1000 0 []).nextPc ≠ (startAt 0x1000 0x1000 0 []).pc + 4#32 ∧
    (start 0 []).nextPc = (start 0 []).pc + 4#32 := by
  decide
theorem witness_EqualityBranchesTakeOrFallThrough :
    (startAt 0x1000 0x1008 0 []).nextPc ≠ (startAt 0x1000 0x1008 0 []).pc + 4#32 ∧
    (start 0 []).nextPc = (start 0 []).pc + 4#32 := by
  decide
theorem witness_LinkBranchesLinkAlways :
    (startAt 0x1000 0x1000 0 []).nextPc ≠ (startAt 0x1000 0x1000 0 []).pc + 4#32 ∧
    (start 0 []).nextPc = (start 0 []).pc + 4#32 := by
  decide

/-- A zero divisor, and the one quotient that does not fit (V261, V263). -/
theorem witness_DivideGivesQuotientAndRemainder :
    let s := start 0 [(8, 0x80000000), (9, 0xFFFFFFFF)]
    s.reg 0 = 0#32 ∧ s.reg 9 ≠ 0#32 := by
  decide

theorem witness_OtherInstructionsIgnoreHiLo :
    (∃ t, exec (.sync 31) storing = .next t) ∧
    (∃ f, exec (.lw 8 9 1) misaligning = .fault f) ∧
    ∀ i ∈ [Instr.sync 31, .lw 8 9 1],
      (∀ rs rt, i ≠ .mult rs rt) ∧ (∀ rs rt, i ≠ .multu rs rt) ∧ (∀ rs rt, i ≠ .div rs rt) ∧
      (∀ rs rt, i ≠ .divu rs rt) ∧ (∀ r, i ≠ .mfhi r) ∧ (∀ r, i ≠ .mflo r) ∧ (∀ r, i ≠ .mthi r) ∧
      (∀ r, i ≠ .mtlo r) := by
  refine ⟨⟨_, rfl⟩, ⟨.addressMisaligned 0x2005, by rfl⟩, ?_⟩
  intro i h
  fin_cases h <;> simp

/-! The Syscall Layer: states that call each service, on the test platform. -/

theorem witness_BreakAndUnrecognizedCallsOnlyReturn :
    (call 4045 7 7 7).reg 2#5 = (call 4045 7 7 7).params.sysBrk ∧
    (call 1 7 7 7).reg 2#5 ∉ (call 1 7 7 7).params.syscallNumbers := by
  decide

/-- A mapping call one page below the bound. -/
def mapping (a n : Word) : State := { call 4090 a n 0 with heap := 0x5FFFF000 }

/-- The call asks for `size` bytes, rounded. -/
abbrev asksFor (a n : Word) (size : Nat) : Prop :=
  (mapping a n).params.Valid ∧ (mapping a n).reg 2#5 = (mapping a n).params.sysMmap ∧
  size % (mapping a n).params.pageSize = 0 ∧ ((mapping a n).reg 5#5).toNat ≤ size ∧
  size < ((mapping a n).reg 5#5).toNat + (mapping a n).params.pageSize

/-- That many bytes do not fit. -/
abbrev tooMuch (size : Nat) : Prop :=
  2 ^ 32 ≤ size ∨ 2 ^ 32 ≤ (mapping 0 0).heap.toNat + size ∨
  platform.heapLimit.toNat < (mapping 0 0).heap.toNat + size

/-- The sum exactly on the bound, one byte beyond it, a size that rounds to 2^32, and an address given (V341,
V343, V348, V350). -/
theorem witness_MappingMovesTheHeapOrFails :
    (asksFor 0 0x1000 0x1000 ∧ (mapping 0 0x1000).reg 4#5 = 0#32 ∧ ¬tooMuch 0x1000) ∧
    (asksFor 0 0x1001 0x2000 ∧ (mapping 0 0x1001).reg 4#5 = 0#32 ∧ tooMuch 0x2000) ∧
    (asksFor 0 0xFFFFFFFF 0x100000000 ∧ (mapping 0 0xFFFFFFFF).reg 4#5 = 0#32 ∧
      tooMuch 0x100000000) ∧
    (asksFor 0x12345678 0xFFFFFFFF 0x100000000 ∧ (mapping 0x12345678 0xFFFFFFFF).reg 4#5 ≠ 0#32) := by
  refine ⟨⟨?_, ?_, ?_⟩, ⟨?_, ?_, ?_⟩, ⟨?_, ?_, ?_⟩, ⟨?_, ?_⟩⟩ <;> decide

theorem witness_ExitRecordsTheStatus :
    (call 4246 0x103 0 0).params.Valid ∧
    (call 4246 0x103 0 0).reg 2#5 = (call 4246 0x103 0 0).params.sysExit := by
  decide

theorem witness_DescriptorControlReportsAccess :
    let s := call 4055 0 3 0
    let p := s.params
    p.Valid ∧ s.reg 2#5 = p.sysFcntl ∧ s.reg 5#5 = p.fGetfl ∧
    s.reg 4#5 ∈ [p.fdStdin, p.fdPreimageRead, p.fdHintRead] ∧
    (call 4055 6 3 0).reg 4#5 ∈ [p.fdStdout, p.fdStderr, p.fdPreimageWrite, p.fdHintWrite] ∧
    (call 4055 7 3 0).reg 4#5 ∉ p.descriptors ∧ (call 4055 7 2 0).reg 5#5 ≠ p.fGetfl := by
  decide

theorem witness_ReadsAndWritesThatMoveNoMemory :
    let p := platform
    let fd (n d : Word) : Word := (call n d 0 0).reg 4#5
    p.Valid ∧ (call 4003 3 0 0).reg 2#5 = p.sysRead ∧ fd 4003 3 = p.fdHintRead ∧
    fd 4003 0 = p.fdStdin ∧ fd 4003 6 ∉ [p.fdHintRead, p.fdPreimageRead, p.fdStdin] ∧
    (call 4004 1 0 0).reg 2#5 = p.sysWrite ∧ fd 4004 2 ∈ [p.fdStdout, p.fdStderr] ∧
    fd 4004 7 ∉ [p.fdHintWrite, p.fdPreimageWrite, p.fdStdout, p.fdStderr] := by
  decide

/-- The last bytes (V382), and a cursor past the end (V384), where nothing moves. -/
theorem witness_PreimageReadStreamsTheData :
    let s (o : Word) : State := { call 4003 5 0x3000 4 with preimageOffset := o }
    let c (o : Word) : Nat := min ((s o).reg 6#5).toNat (min (4 - ((s o).reg 5#5).toNat % 4)
      (((s o).params.oracle (s o).preimageKey).length + 8 - (s o).preimageOffset.toNat))
    ((s 8).params.Valid ∧ (s 8).reg 2#5 = (s 8).params.sysRead ∧
      (s 8).reg 4#5 = (s 8).params.fdPreimageRead) ∧
    (c 8 = 3 ∧ (s 8).mapped (wordBase ((s 8).reg 5#5)) = true) ∧ c 12 = 0 ∧
    ((s 8).params.oracle (s 8).preimageKey).length < 2 ^ 64 := by
  decide

theorem witness_PreimageWriteSelectsTheKey :
    let s := call 4004 6 0x2003 32
    s.params.Valid ∧ s.reg 2#5 = s.params.sysWrite ∧ s.reg 4#5 = s.params.fdPreimageWrite ∧
    s.mapped (wordBase (s.reg 5#5)) = true ∧ ((call 4004 6 0x2003 0).reg 6#5).toNat = 0 := by
  decide

/-- A buffer across the top of the space. -/
theorem witness_HintWriteRecordsTheHint :
    let s := call 4004 4 0xFFFFFFFE 5
    s.params.Valid ∧ s.reg 2#5 = s.params.sysWrite ∧ s.reg 4#5 = s.params.fdHintWrite ∧
    ∀ k < (s.reg 6#5).toNat, s.mapped (wordBase (s.reg 5#5 + BitVec.ofNat 32 k)) = true := by
  decide

end Sys2Proof.Tests
end

section
/-! SUPPORT. Which fields no instruction reads (spec/10_state.md R22, R23, R31, R33, R37).  A change of such fields
passes through every instruction: it may be made before or after, with the same end. -/

namespace Sys2Proof.Machine

/-! ### Changing the next state of an answer -/

/-- The answer with its next state changed by `f`; a fault stays as it is. -/
def mapNext (f : State → State) : Result → Result
  | .next t => .next (f t)
  | .fault c => .fault c
  | .refused r => .refused r

@[simp] theorem mapNext_next (f : State → State) (t : State) : mapNext f (.next t) = .next (f t) := rfl
@[simp] theorem mapNext_fault (f : State → State) (c : Fault) : mapNext f (.fault c) = .fault c := rfl

theorem mapNext_orRaise {α : Type} (f : State → State) (e : Except Fault α) (go : α → Result) :
    mapNext f (orRaise e go) = orRaise e (fun v => mapNext f (go v)) := by
  cases e <;> rfl

theorem orRaise_map {α β : Type} (g : α → β) (e : Except Fault α) (go : β → Result) :
    orRaise (e.map g) go = orRaise e (fun v => go (g v)) := by
  cases e <;> rfl

/-! ### Changes that instructions do not see -/

/-- `f` keeps every field that an instruction outside R31 and the Syscall Layer reads, and what those
instructions write may be written before or after it. -/
structure Unread (f : State → State) : Prop where
  reg (s : State) (r : RegNum) : (f s).reg r = s.reg r
  pc (s : State) : (f s).pc = s.pc
  nextPc (s : State) : (f s).nextPc = s.nextPc
  mem (s : State) : (f s).mem = s.mem
  params (s : State) : (f s).params = s.params
  setReg (s : State) (r : RegNum) (v : Word) : (f s).setReg r v = f (s.setReg r v)
  advance (s : State) : (f s).advance = f s.advance
  transfer (s : State) (target : Word) : (f s).transfer target = f (s.transfer target)
  storeWord (s : State) (a v : Word) : (f s).storeWord a v = f (s.storeWord a v)

namespace Unread
variable {f : State → State} (hf : Unread f) (s : State)
include hf

theorem effAddr (base : RegNum) (offset : BitVec 16) :
    (f s).effAddr base offset = s.effAddr base offset := by
  simp only [State.effAddr, hf.reg]

theorem mapped (a : Word) : (f s).mapped a = s.mapped a := by
  simp only [State.mapped, hf.params]

theorem branchIf (c : Bool) (target : Word) : (f s).branchIf c target = f (s.branchIf c target) := by
  cases c
  · exact hf.advance s
  · exact hf.transfer s target

theorem memRead4 (a : Word) : (f s).memRead4 a = s.memRead4 a := by
  simp only [State.memRead4, hf.mapped, hf.mem]

theorem memRead2 (a : Word) : (f s).memRead2 a = s.memRead2 a := by
  simp only [State.memRead2, hf.mapped, hf.mem]

theorem memRead1 (a : Word) : (f s).memRead1 a = s.memRead1 a := by
  simp only [State.memRead1, hf.mapped, hf.mem]

theorem memReadPart (a : Word) : (f s).memReadPart a = s.memReadPart a := by
  simp only [State.memReadPart, hf.mapped, hf.mem]

theorem memWrite4 (a v : Word) : (f s).memWrite4 a v = (s.memWrite4 a v).map f := by
  simp only [State.memWrite4, hf.mapped, hf.storeWord, apply_ite (Except.map f)]
  rfl

theorem memWrite2 (a : Word) (v : BitVec 16) : (f s).memWrite2 a v = (s.memWrite2 a v).map f := by
  simp only [State.memWrite2, hf.mapped, hf.mem, hf.storeWord, apply_ite (Except.map f)]
  rfl

theorem memWrite1 (a : Word) (v : Byte) : (f s).memWrite1 a v = (s.memWrite1 a v).map f := by
  simp only [State.memWrite1, hf.mapped, hf.mem, hf.storeWord, apply_ite (Except.map f)]
  rfl

theorem fetch : (f s).fetch = s.fetch := by
  simp only [State.fetch, hf.pc, hf.memRead4]

theorem writeAndAdvance (d : RegNum) (v : Word) :
    writeAndAdvance (f s) d v = mapNext f (writeAndAdvance s d v) := by
  simp only [Machine.writeAndAdvance, hf.setReg, hf.advance, mapNext_next]

theorem writeUnlessOverflow (i : Instr) (d : RegNum) (x : Int) :
    writeUnlessOverflow (f s) i d x = mapNext f (writeUnlessOverflow s i d x) := by
  simp only [Machine.writeUnlessOverflow, hf.writeAndAdvance, apply_ite (mapNext f), raise_eq,
    mapNext_fault]

theorem outsideDelaySlot (t : State) :
    outsideDelaySlot (f s) (.next (f t)) = mapNext f (outsideDelaySlot s (.next t)) := by
  simp only [Machine.outsideDelaySlot, hf.pc, hf.nextPc, apply_ite (mapNext f), raise_eq,
    mapNext_next, mapNext_fault]

end Unread

/-- The eight instructions that read or write HI and LO (R31). -/
def usesHiLo : Instr → Bool
  | .mult _ _ | .multu _ _ | .div _ _ | .divu _ _ | .mfhi _ | .mflo _ | .mthi _ | .mtlo _ => true
  | _ => false

/-- Every instruction outside R31 but SYSCALL does the same before and after an unread change. -/
theorem exec_unread {f : State → State} (hf : Unread f) {i : Instr} (s : State)
    (hu : usesHiLo i = false) (hsys : ∀ code, i ≠ .syscall code) :
    exec i (f s) = mapNext f (exec i s) := by
  cases i
  case mult | multu | div | divu | mfhi | mflo | mthi | mtlo => cases hu
  case syscall code => exact absurd rfl (hsys code)
  case add => simp only [exec, execAdd, hf.reg, hf.writeUnlessOverflow]
  case sub => simp only [exec, execSub, hf.reg, hf.writeUnlessOverflow]
  case addi => simp only [exec, execAddi, hf.reg, hf.writeUnlessOverflow]
  case addu | subu | and | or | xor | nor | slt | sltu | addiu | slti | sltiu | andi | ori | xori | lui
      | sll | srl | sra | sllv | srlv | srav =>
    simp only [exec, execAddu, execSubu, execAnd, execOr, execXor, execNor, execSlt, execSltu, execAddiu,
      execSlti, execSltiu, execAndi, execOri, execXori, execLui, execSll, execSrl, execSra, execSllv,
      execSrlv, execSrav, hf.reg, hf.writeAndAdvance]
  case movz | movn =>
    simp only [exec, execMovz, execMovn, hf.reg, hf.writeAndAdvance, hf.advance, apply_ite (mapNext f),
      mapNext_next]
  case clz | clo =>
    simp only [exec, execClz, execClo, hf.reg, hf.writeAndAdvance, apply_ite (mapNext f), raise_eq,
      mapNext_fault]
  case mul => simp only [exec, execMul, hf.reg, hf.setReg, hf.advance, mapNext_next]
  case sync => simp only [exec, execSync, hf.advance, mapNext_next]
  case lb | lbu | lh | lhu | lw | ll | lwl | lwr =>
    simp only [exec, execLb, execLbu, execLh, execLhu, execLw, execLl, execLwl, execLwr, hf.effAddr,
      hf.memRead1, hf.memRead2, hf.memRead4, hf.memReadPart, hf.reg, hf.setReg, hf.advance,
      mapNext_orRaise, mapNext_next]
  case sb | sh | sw | sc =>
    simp only [exec, execSb, execSh, execSw, execSc, hf.effAddr, hf.memWrite1, hf.memWrite2, hf.memWrite4,
      hf.reg, hf.setReg, hf.advance, orRaise_map, mapNext_orRaise, mapNext_next]
  case swl | swr =>
    simp only [exec, execSwl, execSwr, hf.effAddr, hf.memReadPart, hf.reg, hf.storeWord, hf.advance,
      mapNext_orRaise, mapNext_next]
  case j | jal | jr | jalr =>
    simp only [exec, execJ, execJal, execJr, execJalr, hf.reg, hf.pc, hf.setReg, hf.transfer,
      hf.outsideDelaySlot]
  case beq | bne | blez | bgtz | bltz | bgez | bltzal | bgezal =>
    simp only [exec, execBeq, execBne, execBlez, execBgtz, execBltz, execBgez, execBltzal, execBgezal,
      hf.reg, hf.pc, hf.setReg, hf.branchIf, hf.outsideDelaySlot]

/-! ### HI and LO (R31) -/

theorem setReg_writeHiLo (s : State) (hi lo : Word) (r : RegNum) (v : Word) :
    (s.writeHiLo hi lo).setReg r v = (s.setReg r v).writeHiLo hi lo := by
  unfold State.setReg
  split <;> rfl

theorem unread_writeHiLo (hi lo : Word) : Unread (State.writeHiLo · hi lo) where
  reg _ _ := rfl
  pc _ := rfl
  nextPc _ := rfl
  mem _ := rfl
  params _ := rfl
  setReg s r v := setReg_writeHiLo s hi lo r v
  advance _ := rfl
  transfer _ _ := rfl
  storeWord _ _ _ := rfl

theorem apply_writeHiLo (s : State) (hi lo : Word) (r : SyscallResponse) :
    (s.writeHiLo hi lo).apply r = (s.apply r).writeHiLo hi lo := by
  cases r with
  | exit code => rfl
  | ret v0 a3 e =>
    simp only [State.apply, setReg_writeHiLo]
    rfl

/-- The Syscall Layer reads neither HI nor LO. -/
theorem syscallResponse_writeHiLo (s : State) (hi lo : Word) :
    (s.writeHiLo hi lo).syscallResponse = s.syscallResponse := rfl

theorem execSyscall_writeHiLo (code : BitVec 20) (s : State) (hi lo : Word) :
    execSyscall code (s.writeHiLo hi lo) = mapNext (State.writeHiLo · hi lo) (execSyscall code s) := by
  have hbytes : (s.writeHiLo hi lo).firstUnmapped (s.writeHiLo hi lo).syscallBytes =
      s.firstUnmapped s.syscallBytes := rfl
  unfold execSyscall
  rw [hbytes, syscallResponse_writeHiLo, apply_writeHiLo]
  split <;> rfl

/-- Every instruction outside R31 passes HI and LO through. -/
theorem exec_writeHiLo {i : Instr} (hu : usesHiLo i = false) (s : State) (hi lo : Word) :
    exec i (s.writeHiLo hi lo) = mapNext (State.writeHiLo · hi lo) (exec i s) := by
  by_cases hsys : ∃ code, i = .syscall code
  · obtain ⟨code, rfl⟩ := hsys
    exact execSyscall_writeHiLo code s hi lo
  · exact exec_unread (unread_writeHiLo hi lo) s hu (not_exists.mp hsys)

/-- Passing the old HI and LO through, such an instruction keeps them. -/
theorem exec_hiLoKept {i : Instr} (hu : usesHiLo i = false) {s t : State} (h : exec i s = .next t) :
    s.HiLoKept t := by
  have hsame : exec i s = mapNext (State.writeHiLo · s.hi s.lo) (exec i s) :=
    exec_writeHiLo hu s s.hi s.lo
  rw [h, mapNext_next, Host.Outcome.next.injEq] at hsame
  exact ⟨by simpa using congrArg State.hi hsame, by simpa using congrArg State.lo hsame⟩

/-! ### The step counter and the last hint (R33, R37) -/

/-- `s` with another step counter and last hint. -/
def State.withCounterHint (s : State) (n : BitVec 64) (hint : List Byte) : State :=
  { s with stepCount := n, lastHint := hint }

theorem setReg_withCounterHint (s : State) (n : BitVec 64) (hint : List Byte) (r : RegNum) (v : Word) :
    (s.withCounterHint n hint).setReg r v = (s.setReg r v).withCounterHint n hint := by
  unfold State.setReg
  split <;> rfl

theorem unread_withCounterHint (n : BitVec 64) (hint : List Byte) :
    Unread (State.withCounterHint · n hint) where
  reg _ _ := rfl
  pc _ := rfl
  nextPc _ := rfl
  mem _ := rfl
  params _ := rfl
  setReg s r v := setReg_withCounterHint s n hint r v
  advance _ := rfl
  transfer _ _ := rfl
  storeWord _ _ _ := rfl

/-- The eight instructions of R31 read neither. -/
theorem exec_hiLo_withCounterHint {i : Instr} (hu : usesHiLo i = true) (s : State) (n : BitVec 64)
    (hint : List Byte) :
    exec i (s.withCounterHint n hint) = mapNext (State.withCounterHint · n hint) (exec i s) := by
  cases i
  case mult | multu | mthi | mtlo => rfl
  case mfhi | mflo => simp only [exec, execMfhi, execMflo, setReg_withCounterHint]; rfl
  case div | divu => simp only [exec, execDiv, execDivu, apply_ite (mapNext _)]; rfl
  all_goals cases hu

/-- The layer's answer with another last hint in its effect. -/
def SyscallResponse.withHint (hint : List Byte) : SyscallResponse → SyscallResponse
  | .exit code => .exit code
  | .ret v0 a3 e => .ret v0 a3 { e with lastHint := hint }

/-- Committing an answer with another last hint: a return writes it, an exit keeps the state's. -/
theorem apply_withCounterHint (s : State) (n : BitVec 64) (hint hint' : List Byte)
    (r : SyscallResponse) :
    ∃ hint'', (s.withCounterHint n hint).apply (r.withHint hint') =
      (s.apply r).withCounterHint n hint'' := by
  cases r with
  | exit code => exact ⟨hint, rfl⟩
  | ret v0 a3 e =>
    refine ⟨hint', ?_⟩
    simp only [SyscallResponse.withHint, State.apply, setReg_withCounterHint]
    rfl

theorem mmapService_withCounterHint (s : State) (n : BitVec 64) (hint : List Byte) (a0 a1 : Word) :
    mmapService (s.withCounterHint n hint) a0 a1 = (mmapService s a0 a1).withHint hint := by
  simp only [mmapService, apply_ite (SyscallResponse.withHint hint)]
  rfl

theorem fcntlService_withCounterHint (s : State) (n : BitVec 64) (hint : List Byte) (a0 a1 : Word) :
    fcntlService (s.withCounterHint n hint) a0 a1 = (fcntlService s a0 a1).withHint hint := by
  simp only [fcntlService, apply_ite (SyscallResponse.withHint hint)]
  rfl

/-- A service hands the last hint on, or, for a hint write, replaces it. -/
theorem respond_withCounterHint (s : State) (n : BitVec 64) (hint : List Byte) (a0 a1 a2 : Word)
    (service : Service) :
    ∃ hint', respond (s.withCounterHint n hint) a0 a1 a2 service =
      (respond s a0 a1 a2 service).withHint hint' := by
  cases service
  case mmap => exact ⟨hint, mmapService_withCounterHint s n hint a0 a1⟩
  case fcntl => exact ⟨hint, fcntlService_withCounterHint s n hint a0 a1⟩
  case writeHint => exact ⟨s.mem.readBytes a1 a2.toNat, rfl⟩
  all_goals exact ⟨hint, rfl⟩

theorem execSyscall_withCounterHint (code : BitVec 20) (s : State) (n : BitVec 64) (hint : List Byte) :
    ∃ hint', execSyscall code (s.withCounterHint n hint) =
      mapNext (State.withCounterHint · n hint') (execSyscall code s) := by
  have hbytes : (s.withCounterHint n hint).firstUnmapped (s.withCounterHint n hint).syscallBytes =
      s.firstUnmapped s.syscallBytes := rfl
  obtain ⟨hint', hresp⟩ : ∃ hint', (s.withCounterHint n hint).syscallResponse =
      s.syscallResponse.withHint hint' := respond_withCounterHint s n hint _ _ _ _
  obtain ⟨hint'', happly⟩ := apply_withCounterHint s n hint hint' s.syscallResponse
  refine ⟨hint'', ?_⟩
  unfold execSyscall
  rw [hbytes, hresp, happly]
  split <;> rfl

/-- Every instruction passes the counter through, and passes the last hint through or overwrites it. -/
theorem exec_withCounterHint (i : Instr) (s : State) (n : BitVec 64) (hint : List Byte) :
    ∃ hint', exec i (s.withCounterHint n hint) =
      mapNext (State.withCounterHint · n hint') (exec i s) := by
  by_cases hsys : ∃ code, i = .syscall code
  · obtain ⟨code, rfl⟩ := hsys
    exact execSyscall_withCounterHint code s n hint
  · refine ⟨hint, ?_⟩
    cases hu : usesHiLo i with
    | true => exact exec_hiLo_withCounterHint hu s n hint
    | false => exact exec_unread (unread_withCounterHint n hint) s hu (not_exists.mp hsys)

/-- Committing counts on from the other counter. -/
theorem commit_withCounterHint (n : BitVec 64) (hint : List Byte) (r : Result) :
    commit (mapNext (State.withCounterHint · n hint) r) =
      mapNext (State.withCounterHint · (n + 1#64) hint) (commit r) := by
  cases r <;> rfl

/-- A step from another counter and last hint is the same step, up to those two fields. -/
theorem step_withCounterHint (s : State) (n : BitVec 64) (hint : List Byte) :
    ∃ n' hint', step (s.withCounterHint n hint) =
      mapNext (State.withCounterHint · n' hint') (step s) := by
  have hexited : (s.withCounterHint n hint).exited = s.exited := rfl
  unfold step
  rw [hexited, (unread_withCounterHint n hint).fetch]
  by_cases he : s.exited = true
  · exact ⟨n, hint, by simp only [he, if_true, mapNext_next]⟩
  · simp only [he]
    cases s.fetch with
    | error cause => exact ⟨n, hint, rfl⟩
    | ok insn =>
      cases hd : decodeWord insn with
      | none => exact ⟨n, hint, by simp [hd]⟩
      | some i =>
        obtain ⟨hint', hexec⟩ := exec_withCounterHint i s n hint
        exact ⟨n + 1#64, hint', by simp [hd, hexec, commit_withCounterHint]⟩

/-! ### The obligations -/

/-- Settles O7: the other counter and hint pass through the fetch, every instruction and the commit. -/
theorem counterAndHintAreNeverRead : Obligations.CounterAndHintAreNeverRead := by
  intro s n hint
  obtain ⟨n', hint', hstep⟩ := step_withCounterHint s n hint
  refine ⟨fun t ht => ⟨n', hint', ?_⟩, fun c hc => ?_⟩
  · rw [ht] at hstep
    exact hstep
  · rw [hc] at hstep
    exact hstep

/-- Settles O50: other values of HI and LO pass through every instruction outside R31; so do the old ones,
which is why they are kept. -/
theorem otherInstructionsIgnoreHiLo : Obligations.OtherInstructionsIgnoreHiLo := by
  intro s i hi lo hmult hmultu hdiv hdivu hmfhi hmflo hmthi hmtlo
  have hu : usesHiLo i = false := by
    cases i
    case mult => exact absurd rfl (hmult _ _)
    case multu => exact absurd rfl (hmultu _ _)
    case div => exact absurd rfl (hdiv _ _)
    case divu => exact absurd rfl (hdivu _ _)
    case mfhi => exact absurd rfl (hmfhi _)
    case mflo => exact absurd rfl (hmflo _)
    case mthi => exact absurd rfl (hmthi _)
    case mtlo => exact absurd rfl (hmtlo _)
    all_goals rfl
  have hexec := exec_writeHiLo hu s hi lo
  refine ⟨fun t ht => ⟨exec_hiLoKept hu ht, ?_⟩, fun c hc => ?_⟩
  · rw [ht] at hexec
    exact hexec
  · rw [hc] at hexec
    exact hexec

/-- Settles O3, by the read-after-write law of the registers. -/
theorem registerZeroIsHardWired : Obligations.RegisterZeroIsHardWired := by
  intro s r q v
  refine ⟨s.reg_zero, s.setReg_zero v, ?_, s.setReg_regs_zero r v⟩
  rw [s.reg_setReg]
  by_cases hq : q = 0#5
  · subst hq
    simp
  · simp [hq]

end Sys2Proof.Machine
end

section
/-! SUPPORT. Memory as words and bytes (spec/20_memory.md R50 to R59, R70): the bytes of a word and of its lanes,
and what memory holds after bytes are stored. -/

namespace Sys2Proof.Machine

/-! ### Addresses -/

theorem toNat_wordBase (a : Word) : (wordBase a).toNat = a.toNat / 4 * 4 := by
  have hmask : 0xFFFFFFFC#32 = BitVec.allOnes 32 <<< 2 := by decide
  have hshift : wordBase a = (a >>> 2) <<< 2 := by
    apply BitVec.eq_of_getLsbD_eq
    intro k hk
    simp only [wordBase, hmask, BitVec.getLsbD_and, BitVec.getLsbD_shiftLeft,
      BitVec.getLsbD_allOnes, BitVec.getLsbD_ushiftRight]
    grind
  rw [hshift, BitVec.toNat_shiftLeft, BitVec.toNat_ushiftRight]
  simp only [Nat.shiftRight_eq_div_pow, Nat.shiftLeft_eq]
  omega

theorem wordBase_of_aligned {a : Word} (h : a.toNat % 4 = 0) : wordBase a = a := by
  apply BitVec.eq_of_toNat_eq
  rw [toNat_wordBase]
  omega

theorem wordBase_eq_iff (x a : Word) : wordBase x = wordBase a ↔ x.toNat / 4 = a.toNat / 4 := by
  rw [← BitVec.toNat_inj, toNat_wordBase, toNat_wordBase]
  omega

theorem byteIndex_lt (a : Word) : byteIndex a < 4 := by
  rw [State.byteIndex_eq]
  omega

theorem wordBase_add_byteIndex (a : Word) : wordBase a + BitVec.ofNat 32 (byteIndex a) = a := by
  apply BitVec.eq_of_toNat_eq
  rw [BitVec.toNat_add, toNat_wordBase, State.byteIndex_eq, BitVec.toNat_ofNat]
  omega

/-- Up to the end of the word of `a`, the bytes after `a` lie in that word. -/
theorem wordBase_of_lt_toWordEnd {x a : Word} (h : (x - a).toNat < toWordEnd a) :
    wordBase x = wordBase a := by
  rw [wordBase_eq_iff]
  rw [BitVec.toNat_sub] at h
  unfold toWordEnd at h
  omega

/-- The bytes of a whole word are those whose word it is. -/
theorem sub_wordBase_lt_iff (x a : Word) :
    (x - wordBase a).toNat < 4 ↔ wordBase x = wordBase a := by
  rw [wordBase_eq_iff, BitVec.toNat_sub, toNat_wordBase]
  omega

theorem toNat_add_ofNat_sub (a : Word) {k : Nat} (hk : k < 2 ^ 32) :
    (a + BitVec.ofNat 32 k - a).toNat = k := by
  rw [BitVec.add_comm, BitVec.add_sub_cancel, BitVec.toNat_ofNat, Nat.mod_eq_of_lt hk]

/-! ### The bytes of a word (R54, R55) -/

theorem getLsbD_byteOf (v : Word) (k i : Nat) :
    (byteOf v k).getLsbD i = (decide (i < 8) && v.getLsbD (24 - 8 * k + i)) := by
  simp [byteOf]

theorem bytesOfWord_eq (v : Word) :
    bytesOfWord v = [byteOf v 0, byteOf v 1, byteOf v 2, byteOf v 3] := rfl

theorem length_bytesOfWord (v : Word) : (bytesOfWord v).length = 4 := rfl

theorem getElem_bytesOfWord (v : Word) (k : Nat) (h : k < (bytesOfWord v).length) :
    (bytesOfWord v)[k] = byteOf v k := by
  rw [bytesOfWord_eq] at h
  have hk : k < 4 := h
  interval_cases k <;> rfl

theorem byteOf_readWord (m : Memory) (a : Word) {k : Nat} (hk : k < 4) :
    byteOf (m.readWord a) k = m.byteAt (a + BitVec.ofNat 32 k) := by
  apply BitVec.eq_of_getLsbD_eq
  intro i hi
  unfold Memory.readWord
  rw [getLsbD_byteOf]
  interval_cases k
  · rw [show a + BitVec.ofNat 32 0 = a from BitVec.add_zero a]
    grind
  all_goals grind

/-- A byte is the one its word has at its index. -/
theorem byteAt_eq_byteOf (m : Memory) (a : Word) :
    m.byteAt a = byteOf (m.readWord (wordBase a)) (byteIndex a) := by
  rw [byteOf_readWord m _ (byteIndex_lt a), wordBase_add_byteIndex]

theorem byteLane_eq (w a : Word) : byteLane w a = byteOf w (byteIndex a) := by
  ext i hi
  simp [byteLane, byteOf]

theorem byteIndex_mod_two {a : Word} (h : a.toNat % 2 = 0) : byteIndex a % 2 = 0 := by
  rw [State.byteIndex_eq]
  omega

theorem halfLane_eq (w : Word) {a : Word} (h : a.toNat % 2 = 0) :
    halfLane w a = byteOf w (byteIndex a) ++ byteOf w (byteIndex a + 1) := by
  have hb := byteIndex_lt a
  have heven := byteIndex_mod_two h
  apply BitVec.eq_of_getLsbD_eq
  intro i hi
  simp only [halfLane, BitVec.getLsbD_setWidth, BitVec.getLsbD_ushiftRight, BitVec.getLsbD_append,
    getLsbD_byteOf]
  grind

/-! ### Merging bytes into a word (R59; 41_load_store.md R162, R163) -/

/-- `v` put into `w` from bit `s` up, through a mask of `v`'s width. -/
theorem getLsbD_merge {n : Nat} (w : Word) (v : BitVec n) (s : Nat) {j : Nat} (hj : j < 32) :
    ((w &&& ~~~((BitVec.allOnes n).setWidth 32 <<< s)) ||| (v.setWidth 32 <<< s)).getLsbD j =
      if s ≤ j ∧ j < s + n then v.getLsbD (j - s) else w.getLsbD j := by
  simp only [BitVec.getLsbD_or, BitVec.getLsbD_and, BitVec.getLsbD_not, BitVec.getLsbD_shiftLeft,
    BitVec.getLsbD_setWidth, BitVec.getLsbD_allOnes]
  grind

theorem byteOf_setByteLane (w a : Word) (v : Byte) {k : Nat} (hk : k < 4) :
    byteOf (setByteLane w a v) k = if k = byteIndex a then v else byteOf w k := by
  have hb := byteIndex_lt a
  apply BitVec.eq_of_getLsbD_eq
  intro i hi
  have hbit := getLsbD_merge w v (24 - 8 * byteIndex a) (j := 24 - 8 * k + i) (by omega)
  rw [getLsbD_byteOf, show (setByteLane w a v).getLsbD _ = _ from hbit]
  grind [getLsbD_byteOf]

theorem byteOf_setHalfLane (w : Word) {a : Word} (h : a.toNat % 2 = 0) (v : BitVec 16) {k : Nat}
    (hk : k < 4) :
    byteOf (setHalfLane w a v) k =
      if byteIndex a ≤ k ∧ k < byteIndex a + 2 then v.extractLsb' (8 * (1 - (k - byteIndex a))) 8
      else byteOf w k := by
  have hb := byteIndex_lt a
  have heven := byteIndex_mod_two h
  apply BitVec.eq_of_getLsbD_eq
  intro i hi
  have hbit := getLsbD_merge w v (16 - 8 * byteIndex a) (j := 24 - 8 * k + i) (by omega)
  rw [getLsbD_byteOf, show (setHalfLane w a v).getLsbD _ = _ from hbit]
  grind [getLsbD_byteOf]

theorem byteOf_storeLeft (w r : Word) (b : Nat) {k : Nat} (hk : k < 4) :
    byteOf (storeLeft w r b) k = if b ≤ k then byteOf r (k - b) else byteOf w k := by
  have hmask : 0xFFFFFFFF#32 = BitVec.allOnes 32 := rfl
  apply BitVec.eq_of_getLsbD_eq
  intro i hi
  simp only [getLsbD_byteOf, storeLeft, hmask, BitVec.getLsbD_or, BitVec.getLsbD_and,
    BitVec.getLsbD_not, BitVec.getLsbD_ushiftRight, BitVec.getLsbD_allOnes]
  grind [getLsbD_byteOf]

theorem byteOf_storeRight (w r : Word) {b k : Nat} (hb : b < 4) (hk : k < 4) :
    byteOf (storeRight w r b) k = if k ≤ b then byteOf r (3 - b + k) else byteOf w k := by
  apply BitVec.eq_of_getLsbD_eq
  intro i hi
  have hbit := getLsbD_merge w r (8 * (3 - b)) (j := 24 - 8 * k + i) (by omega)
  simp only [BitVec.setWidth_eq] at hbit
  rw [getLsbD_byteOf, show (storeRight w r b).getLsbD _ = _ from hbit]
  grind [getLsbD_byteOf]

/-! ### Storing bytes (R70) -/

namespace Memory

theorem writeWord_eq (m : Memory) (a v : Word) : m.writeWord a v = m.writeBytes a (bytesOfWord v) := rfl

/-- A byte after bytes are stored: the one stored at its distance from `a`, or what was there. -/
theorem byteAt_writeBytes (m : Memory) (a x : Word) (bytes : List Byte)
    (hlen : bytes.length ≤ 2 ^ 32) :
    (m.writeBytes a bytes).byteAt x =
      if h : (x - a).toNat < bytes.length then bytes[(x - a).toNat] else m.byteAt x := by
  induction bytes generalizing m a with
  | nil => rfl
  | cons b rest ih =>
    rw [List.length_cons] at hlen
    rw [writeBytes, ih _ _ (by omega), byteAt_write]
    by_cases hx : x = a
    · subst hx
      have hwrap : (x - (x + 1#32)).toNat = 2 ^ 32 - 1 := by bv_omega
      rw [dif_neg (by omega), if_pos rfl]
      simp
    · have hnext : (x - a).toNat = (x - (a + 1#32)).toNat + 1 := by bv_omega
      simp [hnext, hx]

theorem byteAt_writeBytes_inside (m : Memory) (a : Word) {bytes : List Byte}
    (hlen : bytes.length ≤ 2 ^ 32) {k : Nat} (hk : k < bytes.length) :
    (m.writeBytes a bytes).byteAt (a + BitVec.ofNat 32 k) = bytes[k] := by
  rw [byteAt_writeBytes _ _ _ _ hlen]
  simp only [toNat_add_ofNat_sub a (show k < 2 ^ 32 by omega), hk, dif_pos]

theorem byteAt_writeBytes_outside (m : Memory) (a : Word) {bytes : List Byte}
    (hlen : bytes.length ≤ 2 ^ 32) {x : Word} (hx : bytes.length ≤ (x - a).toNat) :
    (m.writeBytes a bytes).byteAt x = m.byteAt x := by
  rw [byteAt_writeBytes _ _ _ _ hlen, dif_neg (by omega)]

end Memory

/-- Storing bytes puts each where it belongs and keeps every other byte. -/
theorem State.bytesStored_writeBytes {s t : State} (a : Word) {bytes : List Byte}
    (hlen : bytes.length ≤ 2 ^ 32) (hmem : t.mem = s.mem.writeBytes a bytes) :
    s.BytesStored t a bytes :=
  ⟨fun _ hk => hmem ▸ Memory.byteAt_writeBytes_inside _ _ hlen hk,
    fun _ hx => hmem ▸ Memory.byteAt_writeBytes_outside _ _ hlen hx⟩

/-- A byte after the word of `a` is replaced. -/
theorem Memory.byteAt_writeWord_wordBase (m : Memory) (a v x : Word) :
    (m.writeWord (wordBase a) v).byteAt x =
      if wordBase x = wordBase a then byteOf v (byteIndex x) else m.byteAt x := by
  rw [Memory.writeWord_eq, Memory.byteAt_writeBytes _ _ _ _ (by simp [length_bytesOfWord])]
  have hlt : (x - wordBase a).toNat < (bytesOfWord v).length ↔ wordBase x = wordBase a :=
    sub_wordBase_lt_iff x a
  by_cases hx : wordBase x = wordBase a
  · have hindex : (x - wordBase a).toNat = byteIndex x := by
      rw [← hx, State.byteIndex_eq, BitVec.toNat_sub, toNat_wordBase]
      omega
    rw [if_pos hx, dif_pos (hlt.mpr hx), getElem_bytesOfWord, hindex]
  · rw [if_neg hx, dif_neg (mt hlt.mp hx)]

/-- Replacing the word of `a` by one that differs from it in the bytes from `a` on stores those bytes. -/
theorem State.bytesStored_storeWord (s : State) {a v : Word} {bytes : List Byte}
    (hfit : byteIndex a + bytes.length ≤ 4)
    (hin : ∀ j (h : j < bytes.length), byteOf v (byteIndex a + j) = bytes[j])
    (hout : ∀ k < 4, k < byteIndex a ∨ byteIndex a + bytes.length ≤ k →
      byteOf v k = byteOf (s.mem.readWord (wordBase a)) k) :
    s.BytesStored (s.storeWord (wordBase a) v) a bytes := by
  rw [State.byteIndex_eq] at hfit hin hout
  refine ⟨fun j hj => ?_, fun x hx => ?_⟩
  · have haddr : (a + BitVec.ofNat 32 j).toNat = a.toNat + j := by
      rw [BitVec.toNat_add, BitVec.toNat_ofNat]
      omega
    rw [State.storeWord_mem, Memory.byteAt_writeWord_wordBase,
      if_pos ((wordBase_eq_iff _ _).mpr (by omega)), ← hin j hj, State.byteIndex_eq]
    congr 1
    omega
  · rw [State.storeWord_mem, Memory.byteAt_writeWord_wordBase]
    split
    · rename_i hbase
      have hsame := (wordBase_eq_iff _ _).mp hbase
      rw [BitVec.toNat_sub] at hx
      rw [byteAt_eq_byteOf s.mem x, hbase, State.byteIndex_eq]
      exact hout _ (by omega) (by omega)
    · rfl

end Sys2Proof.Machine
end

section
/-! SUPPORT. The statements about memory itself (spec/20_memory.md R50 to R59, R70). -/

namespace Sys2Proof.Machine

/-! ### Canonical memories (R50; log 6) -/

namespace Memory

theorem mem_of_read_ne_zero {m : Memory} {k : Nat} (h : m.read k ≠ 0#8) : (k, m.read k) ∈ m := by
  induction m with
  | nil => exact absurd rfl h
  | cons c rest ih =>
    obtain ⟨k', v⟩ := c
    rw [read_cons] at h ⊢
    split
    · rename_i hk
      simp [hk]
    · rename_i hk
      rw [if_neg hk] at h
      exact List.mem_cons_of_mem _ (ih h)

theorem read_of_mem {m : Memory} (hsorted : m.Pairwise (fun c d => c.1 < d.1)) {k : Nat} {v : Byte}
    (h : (k, v) ∈ m) : m.read k = v := by
  induction m with
  | nil => cases h
  | cons c rest ih =>
    obtain ⟨k', v'⟩ := c
    obtain ⟨hfirst, hrest⟩ := List.pairwise_cons.mp hsorted
    rw [read_cons]
    rcases List.mem_cons.mp h with h | h
    · cases h
      rw [if_pos rfl]
    · rw [if_neg (Nat.ne_of_lt (hfirst _ h)), ih hrest h]

/-- A canonical memory lists exactly the bytes that are not 0, each at its 32-bit address. -/
theorem mem_iff_byteAt {m : Memory} (hwf : m.wf = true) (k : Nat) (v : Byte) :
    (k, v) ∈ m ↔ k < 2 ^ 32 ∧ v ≠ 0#8 ∧ m.byteAt (BitVec.ofNat 32 k) = v := by
  obtain ⟨hsorted, hcells⟩ := (wf_iff m).mp hwf
  constructor
  · intro h
    obtain ⟨hk, hv⟩ := hcells _ h
    refine ⟨hk, hv, ?_⟩
    rw [byteAt, BitVec.toNat_ofNat, Nat.mod_eq_of_lt hk, read_of_mem hsorted h]
  · rintro ⟨hk, hv, h⟩
    rw [byteAt, BitVec.toNat_ofNat, Nat.mod_eq_of_lt hk] at h
    subst h
    exact mem_of_read_ne_zero hv

end Memory

/-- Settles O11: canonical memories with the same bytes list the same cells, in the same order. -/
theorem canonicalMemoriesAreExtensional : Obligations.CanonicalMemoriesAreExtensional := by
  intro m m' hwf hwf' hbytes
  obtain ⟨hsorted, -⟩ := (Memory.wf_iff m).mp hwf
  obtain ⟨hsorted', -⟩ := (Memory.wf_iff m').mp hwf'
  have hnodup : ∀ {l : Memory}, l.Pairwise (fun c d => c.1 < d.1) → l.Nodup :=
    fun h => h.imp fun hlt heq => absurd (congrArg Prod.fst heq) (Nat.ne_of_lt hlt)
  have hcells : ∀ c, c ∈ m ↔ c ∈ m' := by
    rintro ⟨k, v⟩
    rw [Memory.mem_iff_byteAt hwf, Memory.mem_iff_byteAt hwf', hbytes]
  exact List.Perm.eq_of_pairwise (fun c d _ _ hlt hgt => absurd hlt (Nat.lt_asymm hgt))
    hsorted hsorted' ((List.perm_ext_iff_of_nodup (hnodup hsorted) (hnodup hsorted')).mpr hcells)

/-! ### Words, lanes and the loader -/

/-- Settles O8: a word write stores the word's four bytes. -/
theorem writtenWordIsReadBack : Obligations.WrittenWordIsReadBack := by
  intro m a v _
  have hlen : (bytesOfWord v).length ≤ 2 ^ 32 := by simp [length_bytesOfWord]
  refine ⟨m.readWord_writeWord_same a v, fun k hk => ?_, fun x hx => ?_⟩
  · exact (Memory.byteAt_writeBytes_inside m a hlen hk).trans (getElem_bytesOfWord v k hk)
  · exact Memory.byteAt_writeBytes_outside _ _ hlen hx

theorem toNat_append_byte {n : Nat} (x : BitVec n) (b : Byte) :
    (x ++ b).toNat = x.toNat * 2 ^ 8 + b.toNat := by
  rw [BitVec.toNat_append, ← Nat.shiftLeft_add_eq_or_of_lt b.isLt, Nat.shiftLeft_eq]

theorem toNat_readWord (m : Memory) (a : Word) :
    (m.readWord a).toNat =
      (m.byteAt a).toNat * 2 ^ 24 + (m.byteAt (a + 1#32)).toNat * 2 ^ 16 +
      (m.byteAt (a + 2#32)).toNat * 2 ^ 8 + (m.byteAt (a + 3#32)).toNat := by
  unfold Memory.readWord
  simp only [toNat_append_byte]
  ring

/-- The halfword lane at an even address is the two bytes there. -/
theorem halfLane_readWord (m : Memory) {a : Word} (h : a.toNat % 2 = 0) :
    halfLane (m.readWord (wordBase a)) a = m.byteAt a ++ m.byteAt (a + 1#32) := by
  have hbase : wordBase (a + 1#32) = wordBase a := by
    rw [wordBase_eq_iff, BitVec.toNat_add]
    simp only [BitVec.toNat_ofNat]
    omega
  have hindex : byteIndex (a + 1#32) = byteIndex a + 1 := by
    rw [State.byteIndex_eq, State.byteIndex_eq, BitVec.toNat_add]
    simp only [BitVec.toNat_ofNat]
    omega
  rw [halfLane_eq _ h, byteAt_eq_byteOf m a, byteAt_eq_byteOf m (a + 1#32), hbase, hindex]

theorem byteLane_readWord (m : Memory) (a : Word) :
    byteLane (m.readWord (wordBase a)) a = m.byteAt a := by
  rw [byteLane_eq, ← byteAt_eq_byteOf]

/-- Settles O9: a lane is the byte of its word at the address's index. -/
theorem wordsAndLanesAreBytesInOrder : Obligations.WordsAndLanesAreBytesInOrder := fun m a =>
  ⟨fun _ => toNat_readWord m a, toNat_wordBase a, byteLane_readWord m a, halfLane_readWord m⟩

/-- Settles O12: inside the space the placement stores the bytes one by one. -/
theorem setRangePlacesEachByte : Obligations.SetRangePlacesEachByte := by
  intro s a bytes
  refine ⟨fun hpast => ?_, fun hfit => ?_⟩
  · have hset : s.mem.setRange a bytes = none := if_neg (Nat.not_le.mpr hpast)
    simp [State.place, hset]
  · have hset : s.mem.setRange a bytes = some (s.mem.writeBytes a bytes) := if_pos hfit
    refine ⟨{ s with mem := s.mem.writeBytes a bytes }, by simp [State.place, hset], rfl,
      State.bytesStored_writeBytes a (by omega) rfl, fun hwf => Memory.wf_setRange hwf hset, ?_⟩
    rintro rfl
    rfl

/-! ### The primitives (R57 to R59) -/

theorem bytesStored_setByteLane (s : State) (a : Word) (v : Byte) :
    s.BytesStored (s.storeWord (wordBase a) (setByteLane (s.mem.readWord (wordBase a)) a v)) a [v] := by
  have hb := byteIndex_lt a
  refine s.bytesStored_storeWord hb (fun j hj => ?_) (fun k hk hout => ?_)
  · obtain rfl : j = 0 := Nat.lt_one_iff.mp hj
    exact (byteOf_setByteLane _ a v hb).trans (if_pos rfl)
  · rw [byteOf_setByteLane _ _ _ hk, if_neg (by simp at hout; omega)]

theorem bytesStored_setHalfLane (s : State) {a : Word} (h : a.toNat % 2 = 0) (v : BitVec 16) :
    s.BytesStored (s.storeWord (wordBase a) (setHalfLane (s.mem.readWord (wordBase a)) a v)) a
      [v.extractLsb' 8 8, v.extractLsb' 0 8] := by
  have hb := byteIndex_lt a
  have heven := byteIndex_mod_two h
  refine s.bytesStored_storeWord (by simp; omega) (fun j hj => ?_) (fun k hk hout => ?_)
  · have hj : j = 0 ∨ j = 1 := by simp at hj; omega
    rw [byteOf_setHalfLane _ h _ (by omega), if_pos (by omega), Nat.add_sub_cancel_left]
    rcases hj with rfl | rfl <;> rfl
  · rw [byteOf_setHalfLane _ h _ hk, if_neg (by simp at hout; omega)]

theorem bytesStored_word (s : State) (a v : Word) :
    s.BytesStored (s.storeWord a v) a [byteOf v 0, byteOf v 1, byteOf v 2, byteOf v 3] :=
  State.bytesStored_writeBytes a (by simp) rfl

/-- Settles O10: the checks of each primitive in their order, then the bytes of its lane. -/
theorem memoryPrimitivesCheckThenAct : Obligations.MemoryPrimitivesCheckThenAct := by
  intro s a v1 v2 v4 unmapped
  have hword := State.wordAligned_iff a
  have hhalf := State.halfAligned_iff a
  refine ⟨fun h4 => ?_, fun h2 => ?_, fun hno => ?_, fun hyes => ?_⟩
  · have h4 : wordAligned a = false := by rwa [← Bool.not_eq_true, hword]
    exact ⟨(s.memRead4_error ..).mpr (.inl ⟨h4, rfl⟩), (s.memWrite4_error ..).mpr (.inl ⟨h4, rfl⟩)⟩
  · have h2 : halfAligned a = false := by rwa [← Bool.not_eq_true, hhalf]
    exact ⟨(s.memRead2_error ..).mpr (.inl ⟨h2, rfl⟩), (s.memWrite2_error ..).mpr (.inl ⟨h2, rfl⟩)⟩
  · refine ⟨fun h4 => ?_, fun h2 => ?_, (s.memRead1_error ..).mpr ⟨hno, rfl⟩,
      (s.memWrite1_error ..).mpr ⟨hno, rfl⟩⟩
    · have hno : s.mapped a = false := wordBase_of_aligned h4 ▸ hno
      exact ⟨(s.memRead4_error ..).mpr (.inr ⟨hword.mpr h4, hno, rfl⟩),
        (s.memWrite4_error ..).mpr (.inr ⟨hword.mpr h4, hno, rfl⟩)⟩
    · exact ⟨(s.memRead2_error ..).mpr (.inr ⟨hhalf.mpr h2, hno, rfl⟩),
        (s.memWrite2_error ..).mpr (.inr ⟨hhalf.mpr h2, hno, rfl⟩)⟩
  · have hyes : s.mapped (wordBase a) = true := Bool.eq_true_of_not_eq_false hyes
    refine ⟨fun h4 => ?_, fun h2 => ?_, (s.memRead1_ok ..).mpr ⟨hyes, (byteLane_readWord s.mem a).symm⟩,
      _, (s.memWrite1_ok ..).mpr ⟨hyes, rfl⟩, rfl, bytesStored_setByteLane s a v1⟩
    · have hyes : s.mapped a = true := wordBase_of_aligned h4 ▸ hyes
      exact ⟨(s.memRead4_ok ..).mpr ⟨hword.mpr h4, hyes, rfl⟩, _,
        (s.memWrite4_ok ..).mpr ⟨hword.mpr h4, hyes, rfl⟩, rfl, bytesStored_word s a v4⟩
    · exact ⟨(s.memRead2_ok ..).mpr ⟨hhalf.mpr h2, hyes, (halfLane_readWord s.mem h2).symm⟩, _,
        (s.memWrite2_ok ..).mpr ⟨hhalf.mpr h2, hyes, rfl⟩, rfl, bytesStored_setHalfLane s h2 v2⟩

end Sys2Proof.Machine
end

section
/-! SUPPORT. What an instruction reads and writes in memory (spec/20_memory.md R62): the words it lists, and that
with another memory it does the same where that memory agrees on the words it reads. -/

namespace Sys2Proof.Machine

/-! ### The same state with another memory -/

/-- `s` with another memory. -/
def State.withMem (s : State) (m : Memory) : State := { s with mem := m }

namespace State
variable (s : State) (m : Memory)

theorem withMem_self : s.withMem s.mem = s := rfl
@[simp] theorem withMem_mem : (s.withMem m).mem = m := rfl
@[simp] theorem withMem_pc : (s.withMem m).pc = s.pc := rfl
@[simp] theorem withMem_hi : (s.withMem m).hi = s.hi := rfl
@[simp] theorem withMem_lo : (s.withMem m).lo = s.lo := rfl
@[simp] theorem reg_withMem (r : RegNum) : (s.withMem m).reg r = s.reg r := rfl
@[simp] theorem mapped_withMem (a : Word) : (s.withMem m).mapped a = s.mapped a := rfl
@[simp] theorem effAddr_withMem (base : RegNum) (offset : BitVec 16) :
    (s.withMem m).effAddr base offset = s.effAddr base offset := rfl
@[simp] theorem advance_withMem : (s.withMem m).advance = s.advance.withMem m := rfl
@[simp] theorem transfer_withMem (g : Word) : (s.withMem m).transfer g = (s.transfer g).withMem m := rfl
@[simp] theorem writeHiLo_withMem (hi lo : Word) :
    (s.withMem m).writeHiLo hi lo = (s.writeHiLo hi lo).withMem m := rfl
@[simp] theorem storeWord_withMem (a v : Word) :
    (s.withMem m).storeWord a v = (s.storeWord a v).withMem (m.writeWord a v) := rfl

@[simp] theorem setReg_withMem (r : RegNum) (v : Word) :
    (s.withMem m).setReg r v = (s.setReg r v).withMem m := by
  unfold State.setReg
  split <;> rfl

@[simp] theorem branchIf_withMem (c : Bool) (g : Word) :
    (s.withMem m).branchIf c g = (s.branchIf c g).withMem m := by
  cases c <;> rfl

end State

@[simp] theorem writeAndAdvance_withMem (s : State) (m : Memory) (d : RegNum) (v : Word) :
    writeAndAdvance (s.withMem m) d v = mapNext (State.withMem · m) (writeAndAdvance s d v) := by
  simp [writeAndAdvance]

@[simp] theorem writeUnlessOverflow_withMem (s : State) (m : Memory) (i : Instr) (d : RegNum) (x : Int) :
    writeUnlessOverflow (s.withMem m) i d x =
      mapNext (State.withMem · m) (writeUnlessOverflow s i d x) := by
  simp [writeUnlessOverflow, apply_ite (mapNext _)]

@[simp] theorem outsideDelaySlot_withMem (s t : State) (m : Memory) :
    outsideDelaySlot (s.withMem m) (.next (t.withMem m)) =
      mapNext (State.withMem · m) (outsideDelaySlot s (.next t)) := by
  simp only [outsideDelaySlot, apply_ite (mapNext _)]
  rfl

/-! ### Reads of words on which two memories agree -/

/-- The two memories hold the same bytes in the words listed as read. -/
def SameWhereRead (accesses : List Access) (m m' : Memory) : Prop :=
  ∀ x : Word, .read (wordBase x) ∈ accesses → m.byteAt x = m'.byteAt x

theorem SameWhereRead.readWord {accesses : List Access} {m m' : Memory} {a : Word}
    (h : SameWhereRead accesses m m') (ha : .read (wordBase a) ∈ accesses) :
    m.readWord (wordBase a) = m'.readWord (wordBase a) := by
  have hbyte : ∀ k : Nat, k < 4 →
      m.byteAt (wordBase a + BitVec.ofNat 32 k) = m'.byteAt (wordBase a + BitVec.ofNat 32 k) := by
    intro k hk
    have hbase : wordBase (wordBase a + BitVec.ofNat 32 k) = wordBase a :=
      (sub_wordBase_lt_iff _ _).mp (by rw [toNat_add_ofNat_sub _ (by omega)]; exact hk)
    exact h _ (by rwa [hbase])
  have hfirst := hbyte 0 (by decide)
  rw [show wordBase a + BitVec.ofNat 32 0 = wordBase a from BitVec.add_zero _] at hfirst
  unfold Memory.readWord
  rw [hfirst, show m.byteAt (_ + 1#32) = _ from hbyte 1 (by decide),
    show m.byteAt (_ + 2#32) = _ from hbyte 2 (by decide),
    show m.byteAt (_ + 3#32) = _ from hbyte 3 (by decide)]

section
variable {s : State} {m : Memory} {a : Word}
  (h : m.readWord (wordBase a) = s.mem.readWord (wordBase a))
include h

theorem memRead1_withMem : (s.withMem m).memRead1 a = s.memRead1 a := by
  simp [State.memRead1, h]

theorem memRead2_withMem : (s.withMem m).memRead2 a = s.memRead2 a := by
  simp [State.memRead2, h]

theorem memReadPart_withMem : (s.withMem m).memReadPart a = s.memReadPart a := by
  simp [State.memReadPart, h]

theorem memRead4_withMem : (s.withMem m).memRead4 a = s.memRead4 a := by
  unfold State.memRead4
  by_cases ha : wordAligned a = true
  · rw [wordBase_of_aligned ((State.wordAligned_iff a).mp ha)] at h
    simp [h]
  · simp [ha]

end

/-! ### When a store instruction goes on (41_load_store.md R159 to R165) -/

/-- A word write, like the other writes, in terms of the word that holds the address. -/
theorem memWrite4_ok_wordBase (s : State) (a v : Word) (t : State) :
    s.memWrite4 a v = .ok t ↔
      wordAligned a = true ∧ s.mapped (wordBase a) = true ∧ t = s.storeWord (wordBase a) v := by
  rw [s.memWrite4_ok]
  refine and_congr_right fun ha => ?_
  rw [wordBase_of_aligned ((State.wordAligned_iff a).mp ha)]

section
variable (s t : State) (base rt : RegNum) (offset : BitVec 16)

theorem exec_sb_next : exec (.sb base rt offset) s = .next t ↔
    s.mapped (wordBase (s.effAddr base offset)) = true ∧
    t = (s.storeWord (wordBase (s.effAddr base offset))
      (setByteLane (s.mem.readWord (wordBase (s.effAddr base offset))) (s.effAddr base offset)
        ((s.reg rt).setWidth 8))).advance := by
  simp [exec, execSb, orRaise_next, State.memWrite1_ok, and_assoc, eq_comm (a := t)]

theorem exec_sh_next : exec (.sh base rt offset) s = .next t ↔
    halfAligned (s.effAddr base offset) = true ∧ s.mapped (wordBase (s.effAddr base offset)) = true ∧
    t = (s.storeWord (wordBase (s.effAddr base offset))
      (setHalfLane (s.mem.readWord (wordBase (s.effAddr base offset))) (s.effAddr base offset)
        ((s.reg rt).setWidth 16))).advance := by
  simp [exec, execSh, orRaise_next, State.memWrite2_ok, and_assoc, eq_comm (a := t)]

theorem exec_swl_next : exec (.swl base rt offset) s = .next t ↔
    s.mapped (wordBase (s.effAddr base offset)) = true ∧
    t = (s.storeWord (wordBase (s.effAddr base offset))
      (storeLeft (s.mem.readWord (wordBase (s.effAddr base offset))) (s.reg rt)
        (byteIndex (s.effAddr base offset)))).advance := by
  simp [exec, execSwl, orRaise_next, State.memReadPart_ok, and_assoc, eq_comm (a := t)]

theorem exec_swr_next : exec (.swr base rt offset) s = .next t ↔
    s.mapped (wordBase (s.effAddr base offset)) = true ∧
    t = (s.storeWord (wordBase (s.effAddr base offset))
      (storeRight (s.mem.readWord (wordBase (s.effAddr base offset))) (s.reg rt)
        (byteIndex (s.effAddr base offset)))).advance := by
  simp [exec, execSwr, orRaise_next, State.memReadPart_ok, and_assoc, eq_comm (a := t)]

theorem exec_sw_next : exec (.sw base rt offset) s = .next t ↔
    wordAligned (s.effAddr base offset) = true ∧ s.mapped (wordBase (s.effAddr base offset)) = true ∧
    t = (s.storeWord (wordBase (s.effAddr base offset)) (s.reg rt)).advance := by
  simp [exec, execSw, orRaise_next, memWrite4_ok_wordBase, and_assoc, eq_comm (a := t)]

theorem exec_sc_next : exec (.sc base rt offset) s = .next t ↔
    wordAligned (s.effAddr base offset) = true ∧ s.mapped (wordBase (s.effAddr base offset)) = true ∧
    t = ((s.storeWord (wordBase (s.effAddr base offset)) (s.reg rt)).setReg rt 1#32).advance := by
  simp [exec, execSc, orRaise_next, memWrite4_ok_wordBase, and_assoc, eq_comm (a := t)]

end

/-! ### What an instruction does in memory -/

/-- What a successful instruction does in memory: it stores `bytes` from `a` on, in words listed as written and all
over a word that is written only; and it runs alike with any memory that has the words listed as read. -/
structure Footprint (s : State) (i : Instr) (t : State) (a : Word) (bytes : List Byte) : Prop where
  short : bytes.length ≤ 4
  listed (x : Word) : (x - a).toNat < bytes.length → .write (wordBase x) ∈ s.dataAccesses i
  covered (x : Word) : .write (wordBase x) ∈ s.dataAccesses i →
    .read (wordBase x) ∈ s.dataAccesses i ∨ (x - a).toNat < bytes.length
  runs (m : Memory) : SameWhereRead (s.dataAccesses i) m s.mem →
    exec i (s.withMem m) = .next (t.withMem (m.writeBytes a bytes))

namespace Footprint
variable {s t : State} {i : Instr}

theorem mem {a : Word} {bytes : List Byte} (hf : Footprint s i t a bytes) (h : exec i s = .next t) :
    t.mem = s.mem.writeBytes a bytes := by
  have hself := hf.runs s.mem fun _ _ => rfl
  rw [State.withMem_self, h, Host.Outcome.next.injEq] at hself
  exact congrArg State.mem hself

/-- An instruction that stores nothing. -/
theorem of_kept (h : exec i s = .next t) (hlist : ∀ w, .write w ∉ s.dataAccesses i)
    (hruns : ∀ m, SameWhereRead (s.dataAccesses i) m s.mem →
      exec i (s.withMem m) = mapNext (State.withMem · m) (exec i s)) :
    Footprint s i t 0#32 [] where
  short := by simp
  listed x hx := absurd hx (Nat.not_lt_zero _)
  covered x hx := absurd hx (hlist _)
  runs m hm := by rw [hruns m hm, h]; rfl

/-- An instruction with no data access. -/
theorem of_noData (h : exec i s = .next t) (hlist : s.dataAccesses i = [])
    (hruns : ∀ m, exec i (s.withMem m) = mapNext (State.withMem · m) (exec i s)) :
    Footprint s i t 0#32 [] :=
  of_kept h (by simp [hlist]) fun m _ => hruns m

/-- An instruction that replaces the word of `a`, which it may have read. -/
theorem of_storeWord {a v : Word}
    (hlist : s.dataAccesses i = [.read (wordBase a), .write (wordBase a)] ∨
      s.dataAccesses i = [.write (wordBase a)])
    (hruns : ∀ m, SameWhereRead (s.dataAccesses i) m s.mem →
      exec i (s.withMem m) = .next (t.withMem (m.writeWord (wordBase a) v))) :
    Footprint s i t (wordBase a) (bytesOfWord v) where
  short := Nat.le_refl 4
  listed x hx := by
    have hbase := (sub_wordBase_lt_iff x a).mp hx
    rcases hlist with hl | hl <;> simp [hl, hbase]
  covered x hx := by
    have hbase : wordBase x = wordBase a := by
      rcases hlist with hl | hl <;> simpa [hl] using hx
    exact .inr ((sub_wordBase_lt_iff x a).mpr hbase)
  runs := hruns

/-- An instruction that reads the word of `a` and writes it back merged. -/
theorem of_merge {a : Word} (merge : Word → Word)
    (hlist : s.dataAccesses i = [.read (wordBase a), .write (wordBase a)])
    (hruns : ∀ m : Memory, exec i (s.withMem m) =
      .next (t.withMem (m.writeWord (wordBase a) (merge (m.readWord (wordBase a)))))) :
    Footprint s i t (wordBase a) (bytesOfWord (merge (s.mem.readWord (wordBase a)))) :=
  of_storeWord (.inl hlist) fun m hm => by
    rw [hruns m, hm.readWord (by simp [hlist])]

end Footprint

/-! ### The Syscall Layer's words (R62) -/

theorem mem_wordsOf (w : Word) (addrs : List Word) :
    w ∈ wordsOf addrs ↔ ∃ a ∈ addrs, wordBase a = w := by
  simp [wordsOf]

theorem mem_byteAddrs (x a : Word) (n : Nat) :
    x ∈ byteAddrs a n ↔ ∃ k < n, a + BitVec.ofNat 32 k = x := by
  simp [byteAddrs]

theorem eraseDups_replicate_succ {α : Type} [BEq α] [LawfulBEq α] (n : Nat) (a : α) :
    (List.replicate (n + 1) a).eraseDups = [a] := by
  simp [List.replicate_succ, List.eraseDups_cons]

/-- Bytes up to the end of their word lie in one word. -/
theorem wordsOf_byteAddrs (a : Word) {n : Nat} (hn : n ≤ toWordEnd a) :
    wordsOf (byteAddrs a n) = if n = 0 then [] else [wordBase a] := by
  have hend : toWordEnd a ≤ 4 := Nat.sub_le _ _
  have hone : (byteAddrs a n).map wordBase = List.replicate n (wordBase a) := by
    rw [List.eq_replicate_iff]
    refine ⟨by simp [byteAddrs], fun w hw => ?_⟩
    obtain ⟨x, hx, rfl⟩ := List.mem_map.mp hw
    obtain ⟨k, hk, rfl⟩ := (mem_byteAddrs x a n).mp hx
    exact wordBase_of_lt_toWordEnd (by rw [toNat_add_ofNat_sub a (by omega)]; omega)
  unfold wordsOf
  rw [hone]
  cases n with
  | zero => rfl
  | succ n => rw [eraseDups_replicate_succ, if_neg (Nat.succ_ne_zero n)]

namespace State
variable (s : State)

theorem preimageReadCount_le (a1 a2 : Word) : s.preimageReadCount a1 a2 ≤ toWordEnd a1 :=
  (Nat.min_le_right _ _).trans (Nat.min_le_left _ _)

theorem layerAccesses_readPreimage (h : s.service = .readPreimage) :
    s.layerAccesses =
      if s.preimageReadCount (s.reg 5#5) (s.reg 6#5) = 0 then []
      else [.read (wordBase (s.reg 5#5)), .write (wordBase (s.reg 5#5))] := by
  simp only [layerAccesses, syscallBytes, h, bufferLength,
    wordsOf_byteAddrs _ (s.preimageReadCount_le _ _)]
  split <;> rfl

theorem layerAccesses_writePreimage (h : s.service = .writePreimage) :
    s.layerAccesses =
      if preimageWriteCount (s.reg 5#5) (s.reg 6#5) = 0 then []
      else [.read (wordBase (s.reg 5#5))] := by
  simp only [layerAccesses, syscallBytes, h, bufferLength,
    wordsOf_byteAddrs (s.reg 5#5) (show preimageWriteCount _ (s.reg 6#5) ≤ _ from Nat.min_le_right _ _)]
  split <;> rfl

theorem layerAccesses_writeHint (h : s.service = .writeHint) :
    s.layerAccesses = (wordsOf (byteAddrs (s.reg 5#5) (s.reg 6#5).toNat)).map .read := by
  simp only [layerAccesses, syscallBytes, h, bufferLength]

theorem layerAccesses_other (h : s.service ∉ [.readPreimage, .writePreimage, .writeHint]) :
    s.layerAccesses = [] := by
  unfold layerAccesses
  cases hs : s.service
  case readPreimage | writePreimage | writeHint => simp [hs] at h
  all_goals rfl

theorem write_mem_layerAccesses {w : Word} (h : .write w ∈ s.layerAccesses) :
    s.service = .readPreimage := by
  unfold layerAccesses at h
  cases hs : s.service
  case readPreimage => rfl
  all_goals simp [hs] at h

/-- A service that reads its buffer lists the words of the buffer's bytes as read. -/
theorem read_mem_layerAccesses (h : s.service ∈ [.writePreimage, .writeHint]) {k : Nat}
    (hk : k < bufferLength s (s.reg 5#5) (s.reg 6#5) s.service) :
    .read (wordBase (s.reg 5#5 + BitVec.ofNat 32 k)) ∈ s.layerAccesses := by
  have hword : wordBase (s.reg 5#5 + BitVec.ofNat 32 k) ∈ wordsOf s.syscallBytes :=
    (mem_wordsOf _ _).mpr ⟨_, (mem_byteAddrs _ _ _).mpr ⟨k, hk, rfl⟩, rfl⟩
  unfold layerAccesses
  simp only [List.mem_cons, List.not_mem_nil, or_false] at h
  rcases h with hs | hs <;> simpa [hs] using hword

end State

/-! ### SYSCALL with another memory -/

/-- The layer's answer with another memory in its effect. -/
def SyscallResponse.withMem (m : Memory) : SyscallResponse → SyscallResponse
  | .exit code => .exit code
  | .ret v0 a3 e => .ret v0 a3 { e with mem := m }

theorem apply_withMem (s : State) (m : Memory) (r : SyscallResponse) :
    (s.withMem m).apply (r.withMem m) = (s.apply r).withMem m := by
  cases r with
  | exit code => rfl
  | ret v0 a3 e =>
    simp only [SyscallResponse.withMem, State.apply, State.setReg_withMem]
    rfl

/-- The bytes a preimage read moves. -/
def State.preimageReadBytes (s : State) (a1 a2 : Word) : List Byte :=
  (s.preimageData.drop s.preimageOffset.toNat).take (s.preimageReadCount a1 a2)

theorem State.length_preimageReadBytes_le (s : State) (a1 a2 : Word) :
    (s.preimageReadBytes a1 a2).length ≤ s.preimageReadCount a1 a2 :=
  List.length_take_le _ _

/-- A preimage read stores its bytes in the other memory. -/
theorem apply_preimageReadService_withMem (s : State) (m : Memory) (a1 a2 : Word) :
    (s.withMem m).apply (preimageReadService (s.withMem m) a1 a2) =
      (s.apply (preimageReadService s a1 a2)).withMem (m.writeBytes a1 (s.preimageReadBytes a1 a2)) := by
  simp only [preimageReadService, State.apply, State.setReg_withMem]
  rfl

/-- A service that stores nothing hands the other memory on, if the bytes it reads are the same. -/
theorem respond_withMem {s : State} {m : Memory} {a1 a2 : Word} {service : Service}
    (hservice : service ≠ .readPreimage)
    (hread : service ∈ [.writePreimage, .writeHint] →
      m.readBytes a1 (bufferLength s a1 a2 service) = s.mem.readBytes a1 (bufferLength s a1 a2 service))
    (a0 : Word) :
    respond (s.withMem m) a0 a1 a2 service = (respond s a0 a1 a2 service).withMem m := by
  cases service
  case readPreimage => exact absurd rfl hservice
  case mmap =>
    simp only [respond, mmapService, apply_ite (SyscallResponse.withMem m)]
    rfl
  case fcntl =>
    simp only [respond, fcntlService, apply_ite (SyscallResponse.withMem m)]
    rfl
  case writeHint =>
    have hread : m.readBytes a1 a2.toNat = _ := hread (by simp)
    simp only [respond, hintWriteService, State.withMem_mem, hread]
    rfl
  case writePreimage =>
    have hread : m.readBytes a1 (preimageWriteCount a1 a2) = _ := hread (by simp)
    simp only [respond, preimageWriteService, State.withMem_mem, hread]
    rfl
  all_goals rfl

theorem execSyscall_next {code : BitVec 20} {s t : State} (h : execSyscall code s = .next t) :
    s.firstUnmapped s.syscallBytes = none ∧ t = (s.apply s.syscallResponse).advance := by
  unfold execSyscall at h
  split at h
  · cases h
  · rename_i hnone
    cases h
    exact ⟨hnone, rfl⟩

/-- The checks of a call read no memory. -/
theorem execSyscall_withMem {code : BitVec 20} {s : State}
    (h : s.firstUnmapped s.syscallBytes = none) (m : Memory) :
    execSyscall code (s.withMem m) =
      .next ((s.withMem m).apply (s.withMem m).syscallResponse).advance := by
  have h' : (s.withMem m).firstUnmapped (s.withMem m).syscallBytes = none := h
  simp only [execSyscall, h']

theorem exec_syscall_footprint {code : BitVec 20} {s t : State} (h : exec (.syscall code) s = .next t) :
    ∃ a bytes, Footprint s (.syscall code) t a bytes := by
  obtain ⟨hmapped, rfl⟩ := execSyscall_next (code := code) h
  by_cases hs : s.service = .readPreimage
  · have hlist := s.layerAccesses_readPreimage hs
    have hcount := s.preimageReadCount_le (s.reg 5#5) (s.reg 6#5)
    have hlen := s.length_preimageReadBytes_le (s.reg 5#5) (s.reg 6#5)
    have hend : toWordEnd (s.reg 5#5) ≤ 4 := Nat.sub_le _ _
    refine ⟨s.reg 5#5, s.preimageReadBytes (s.reg 5#5) (s.reg 6#5), by omega, fun x hx => ?_,
      fun x hx => ?_, fun m _ => ?_⟩
    · have hbase : wordBase x = wordBase (s.reg 5#5) := wordBase_of_lt_toWordEnd (by omega)
      rw [State.dataAccesses, hlist, if_neg (by omega), hbase]
      simp
    · left
      rw [State.dataAccesses, hlist] at hx ⊢
      split at hx <;> simp_all
    · have hanswer : ∀ u : State, u.service = .readPreimage →
          u.syscallResponse = preimageReadService u (u.reg 5#5) (u.reg 6#5) := fun u hu => by
        rw [State.syscallResponse, hu]
        rfl
      rw [exec, execSyscall_withMem hmapped, hanswer s hs, hanswer (s.withMem m) hs,
        State.reg_withMem, State.reg_withMem, apply_preimageReadService_withMem]
      rfl
  · refine ⟨_, _, Footprint.of_kept h (fun w hw => hs (s.write_mem_layerAccesses hw)) fun m hm => ?_⟩
    have hread : s.service ∈ [.writePreimage, .writeHint] →
        m.readBytes (s.reg 5#5) (bufferLength s (s.reg 5#5) (s.reg 6#5) s.service) =
        s.mem.readBytes (s.reg 5#5) (bufferLength s (s.reg 5#5) (s.reg 6#5) s.service) := fun hbuf =>
      List.map_congr_left fun k hk =>
        hm _ (s.read_mem_layerAccesses hbuf (List.mem_range.mp hk))
    have hanswer : (s.withMem m).syscallResponse = s.syscallResponse.withMem m :=
      respond_withMem hs hread _
    rw [h, exec, execSyscall_withMem hmapped, hanswer, apply_withMem]
    rfl

/-! ### Every instruction -/

/-- Every successful instruction has a footprint in memory. -/
theorem exec_footprint {i : Instr} {s t : State} (h : exec i s = .next t) :
    ∃ a bytes, Footprint s i t a bytes := by
  cases i
  case syscall code => exact exec_syscall_footprint h
  case sb base rt offset =>
    obtain ⟨hmapped, rfl⟩ := (exec_sb_next ..).mp h
    exact ⟨_, _, .of_merge (setByteLane · (s.effAddr base offset) ((s.reg rt).setWidth 8)) rfl
      fun m => (exec_sb_next ..).mpr ⟨hmapped, rfl⟩⟩
  case sh base rt offset =>
    obtain ⟨ha, hmapped, rfl⟩ := (exec_sh_next ..).mp h
    exact ⟨_, _, .of_merge (setHalfLane · (s.effAddr base offset) ((s.reg rt).setWidth 16)) rfl
      fun m => (exec_sh_next ..).mpr ⟨ha, hmapped, rfl⟩⟩
  case swl base rt offset =>
    obtain ⟨hmapped, rfl⟩ := (exec_swl_next ..).mp h
    exact ⟨_, _, .of_merge (storeLeft · (s.reg rt) (byteIndex (s.effAddr base offset))) rfl
      fun m => (exec_swl_next ..).mpr ⟨hmapped, rfl⟩⟩
  case swr base rt offset =>
    obtain ⟨hmapped, rfl⟩ := (exec_swr_next ..).mp h
    exact ⟨_, _, .of_merge (storeRight · (s.reg rt) (byteIndex (s.effAddr base offset))) rfl
      fun m => (exec_swr_next ..).mpr ⟨hmapped, rfl⟩⟩
  case sw base rt offset =>
    obtain ⟨ha, hmapped, rfl⟩ := (exec_sw_next ..).mp h
    exact ⟨_, _, .of_storeWord (v := s.reg rt) (.inr rfl) fun m _ => (exec_sw_next ..).mpr
      ⟨ha, hmapped, rfl⟩⟩
  case sc base rt offset =>
    obtain ⟨ha, hmapped, rfl⟩ := (exec_sc_next ..).mp h
    exact ⟨_, _, .of_storeWord (v := s.reg rt) (.inr rfl) fun m _ => (exec_sc_next ..).mpr
      ⟨ha, hmapped, by simp⟩⟩
  case lb | lbu | lh | lhu | lw | ll | lwl | lwr =>
    refine ⟨_, _, .of_kept h (by simp [State.dataAccesses]) fun m hm => ?_⟩
    have hread := hm.readWord (List.mem_singleton.mpr rfl)
    simp [exec, execLb, execLbu, execLh, execLhu, execLw, execLl, execLwl, execLwr, mapNext_orRaise,
      memRead1_withMem hread, memRead2_withMem hread, memRead4_withMem hread, memReadPart_withMem hread]
  case add | addu | sub | subu | and | or | xor | nor | slt | sltu | addi | addiu | slti | sltiu
      | andi | ori | xori | lui | sll | srl | sra | sllv | srlv | srav =>
    refine ⟨_, _, .of_noData h rfl fun m => ?_⟩
    simp [exec, execAdd, execAddu, execSub, execSubu, execAnd, execOr, execXor, execNor, execSlt,
      execSltu, execAddi, execAddiu, execSlti, execSltiu, execAndi, execOri, execXori, execLui, execSll,
      execSrl, execSra, execSllv, execSrlv, execSrav]
  case movz | movn | clz | clo =>
    refine ⟨_, _, .of_noData h rfl fun m => ?_⟩
    simp [exec, execMovz, execMovn, execClz, execClo, apply_ite (mapNext _)]
  case div | divu =>
    refine ⟨_, _, .of_noData h rfl fun m => ?_⟩
    simp only [exec, execDiv, execDivu, apply_ite (mapNext _)]
    rfl
  case mult | multu | mfhi | mflo | mthi | mtlo | mul | sync =>
    refine ⟨_, _, .of_noData h rfl fun m => ?_⟩
    simp [exec, execMult, execMultu, execMfhi, execMflo, execMthi, execMtlo, execMul, execSync]
  case j | jal | jr | jalr | beq | bne | bgtz | bgez | bgezal =>
    refine ⟨_, _, .of_noData h rfl fun m => ?_⟩
    simp [exec, execJ, execJal, execJr, execJalr, execBeq, execBne, execBgtz, execBgez, execBgezal]
  case blez | bltz | bltzal =>
    refine ⟨_, _, .of_noData h rfl fun m => ?_⟩
    simp only [exec, execBlez, execBltz, execBltzal, State.setReg_withMem, State.branchIf_withMem,
      outsideDelaySlot_withMem]
    rfl

end Sys2Proof.Machine
end

section
/-! SUPPORT. The statements about the words a step touches (spec/20_memory.md R62, R66). -/

namespace Sys2Proof.Machine

/-! ### The step of a state that executes an instruction -/

theorem State.Executes.step_eq {s : State} {i : Instr} (h : s.Executes i) :
    step s = commit (exec i s) := by
  obtain ⟨hexited, insn, hfetch, hdecode⟩ := h
  simp [step, hexited, hfetch, hdecode]

theorem State.Executes.step_next {s t : State} {i : Instr} (h : s.Executes i)
    (hstep : step s = .next t) : ∃ u, exec i s = .next u ∧ t = u.tick :=
  (commit_next ..).mp (h.step_eq ▸ hstep)

theorem State.Executes.wordBase_pc {s : State} {i : Instr} (h : s.Executes i) :
    wordBase s.pc = s.pc := by
  obtain ⟨-, insn, hfetch, -⟩ := h
  obtain ⟨haligned, -, -⟩ := (s.fetch_ok insn).mp hfetch
  exact wordBase_of_aligned ((State.wordAligned_iff _).mp haligned)

/-- The word at `pc` is listed, so a memory that agrees on the listed words holds the same instruction. -/
theorem State.Executes.withMem {s : State} {i : Instr} (h : s.Executes i) {m : Memory}
    (hm : SameWhereRead (s.accesses i) m s.mem) : (s.withMem m).Executes i := by
  have hpc := h.wordBase_pc
  have hword := hm.readWord (a := s.pc) (by simp [accesses, hpc])
  obtain ⟨hexited, insn, hfetch, hdecode⟩ := h
  exact ⟨hexited, insn, (memRead4_withMem hword).trans hfetch, hdecode⟩

theorem write_mem_accesses {s : State} {i : Instr} {w : Word} :
    .write w ∈ s.accesses i ↔ .write w ∈ s.dataAccesses i := by
  simp [State.accesses]

/-- Settles O60: an instruction's footprint is among the listed words, and the fetched word is listed too. -/
theorem stepDependsOnTheListedWordsOnly : Obligations.StepDependsOnTheListedWordsOnly := by
  intro s t i m hexecutes hstep hm
  obtain ⟨u, hexec, rfl⟩ := hexecutes.step_next hstep
  obtain ⟨a, bytes, hf⟩ := exec_footprint hexec
  have hlen : bytes.length ≤ 2 ^ 32 := hf.short.trans (by decide)
  have hruns := hf.runs m fun x hx => hm x (List.mem_cons_of_mem _ hx)
  refine ⟨m.writeBytes a bytes, ?_, fun x => ?_⟩
  · calc step (s.withMem m)
      _ = commit (exec i (s.withMem m)) := (hexecutes.withMem hm).step_eq
      _ = .next (u.tick.withMem (m.writeBytes a bytes)) := by rw [hruns]; rfl
  · rw [State.tick_mem, hf.mem hexec]
    by_cases hx : (x - a).toNat < bytes.length
    · have hlisted := write_mem_accesses.mpr (hf.listed x hx)
      rw [if_pos (.inr hlisted), Memory.byteAt_writeBytes _ _ _ _ hlen,
        Memory.byteAt_writeBytes _ _ _ _ hlen, dif_pos hx, dif_pos hx]
    · have hout := Nat.not_lt.mp hx
      rw [Memory.byteAt_writeBytes_outside m a hlen hout,
        Memory.byteAt_writeBytes_outside s.mem a hlen hout]
      split
      · rename_i hlisted
        refine hm x (hlisted.elim id fun hwrite => ?_)
        have hread := (hf.covered x (write_mem_accesses.mp hwrite)).resolve_right hx
        exact List.mem_cons_of_mem _ hread
      · rfl

/-! ### The words per instruction and service -/

/-- A byte that an instruction changes lies in a word listed as written. -/
theorem write_mem_of_byteAt_ne {s u : State} {i : Instr} (hexec : exec i s = .next u) {x : Word}
    (hx : u.mem.byteAt x ≠ s.mem.byteAt x) : .write (wordBase x) ∈ s.dataAccesses i := by
  obtain ⟨a, bytes, hf⟩ := exec_footprint hexec
  refine hf.listed x (Nat.lt_of_not_le fun hout => hx ?_)
  rw [hf.mem hexec, Memory.byteAt_writeBytes_outside _ _ (hf.short.trans (by decide)) hout]

theorem nodup_eraseDups {α : Type} [BEq α] [LawfulBEq α] (l : List α) : l.eraseDups.Nodup := by
  induction hn : l.length using Nat.strong_induction_on generalizing l with
  | _ n ih =>
    cases l with
    | nil => simp
    | cons a rest =>
      have hshort := List.length_filter_le (fun b => !b == a) rest
      rw [List.eraseDups_cons, List.nodup_cons]
      exact ⟨by simp, ih _ (by simp at hn; omega) _ rfl⟩

/-- A hint write lists each word of its buffer once. -/
theorem State.layerAccesses_writeHint_words {s : State} (h : s.service = .writeHint) :
    (∀ a : Access, a ∈ s.layerAccesses ↔
      ∃ k < (s.reg 6#5).toNat, a = .read (wordBase (s.reg 5#5 + BitVec.ofNat 32 k))) ∧
    s.layerAccesses.Nodup := by
  rw [s.layerAccesses_writeHint h]
  refine ⟨fun a => ?_, (nodup_eraseDups _).map fun _ _ => Access.read.inj⟩
  simp [mem_wordsOf, mem_byteAddrs, eq_comm]

/-- The number of bytes a transfer returns is 0 exactly when it moves none. -/
theorem ofNat_eq_zero_iff {a : Word} {n : Nat} (hn : n ≤ toWordEnd a) :
    BitVec.ofNat 32 n = 0#32 ↔ n = 0 := by
  have hend : toWordEnd a ≤ 4 := Nat.sub_le _ _
  rw [← BitVec.toNat_inj, BitVec.toNat_ofNat, BitVec.toNat_ofNat]
  omega

/-- Register 2 after a service that returns. -/
theorem exec_syscall_reg_two {code : BitVec 20} {s u : State} (hexec : exec (.syscall code) s = .next u)
    {v0 a3 : Word} {e : LayerEffect} (h : s.syscallResponse = .ret v0 a3 e) : u.reg 2#5 = v0 := by
  obtain ⟨-, rfl⟩ := execSyscall_next (code := code) hexec
  rw [h]
  exact (s.returned_apply v0 a3 e).1

theorem layerAccesses_readPreimage_returned {code : BitVec 20} {s u : State}
    (hexec : exec (.syscall code) s = .next u) (hs : s.service = .readPreimage) :
    s.layerAccesses = if u.reg 2#5 = 0#32 then []
      else [.read (wordBase (s.reg 5#5)), .write (wordBase (s.reg 5#5))] := by
  have hreturned : u.reg 2#5 = BitVec.ofNat 32 (s.preimageReadCount (s.reg 5#5) (s.reg 6#5)) :=
    exec_syscall_reg_two hexec (by rw [State.syscallResponse, hs]; rfl)
  rw [s.layerAccesses_readPreimage hs, hreturned]
  simp only [ofNat_eq_zero_iff (s.preimageReadCount_le _ _)]

theorem layerAccesses_writePreimage_returned {code : BitVec 20} {s u : State}
    (hexec : exec (.syscall code) s = .next u) (hs : s.service = .writePreimage) :
    s.layerAccesses = if u.reg 2#5 = 0#32 then [] else [.read (wordBase (s.reg 5#5))] := by
  have hreturned : u.reg 2#5 = BitVec.ofNat 32 (preimageWriteCount (s.reg 5#5) (s.reg 6#5)) :=
    exec_syscall_reg_two hexec (by rw [State.syscallResponse, hs]; rfl)
  rw [s.layerAccesses_writePreimage hs, hreturned]
  simp only [ofNat_eq_zero_iff
    (show preimageWriteCount (s.reg 5#5) (s.reg 6#5) ≤ toWordEnd (s.reg 5#5) from Nat.min_le_right _ _)]

/-- Settles O13: the list per instruction is its definition's; a changed byte lies in the footprint. -/
theorem stepTouchesTheListedWords : Obligations.StepTouchesTheListedWords := by
  intro s t i hexecutes hstep loads merges wordStores
  obtain ⟨u, hexec, rfl⟩ := hexecutes.step_next hstep
  refine ⟨fun x hx => write_mem_accesses.mpr (write_mem_of_byteAt_ne hexec hx),
    fun base rt offset => ⟨fun h => ?_, fun h => ?_, fun h => ?_⟩, fun hdata hsys => ?_, fun code hi => ?_⟩
  · simp only [loads, List.mem_cons, List.not_mem_nil, or_false] at h
    rcases h with rfl | rfl | rfl | rfl | rfl | rfl | rfl | rfl <;> rfl
  · simp only [merges, List.mem_cons, List.not_mem_nil, or_false] at h
    rcases h with rfl | rfl | rfl | rfl <;> rfl
  · simp only [wordStores, List.mem_cons, List.not_mem_nil, or_false] at h
    rcases h with rfl | rfl <;> rfl
  · cases i
    case syscall code => exact absurd rfl (hsys code)
    case lb base rt offset | lbu base rt offset | lh base rt offset | lhu base rt offset
        | lw base rt offset | lwl base rt offset | lwr base rt offset | ll base rt offset
        | sb base rt offset | sh base rt offset | swl base rt offset | swr base rt offset
        | sw base rt offset | sc base rt offset =>
      exact absurd (by simp [loads, merges, wordStores]) (hdata base rt offset)
    all_goals rfl
  · subst hi
    exact ⟨rfl, layerAccesses_readPreimage_returned (u := u) hexec,
      layerAccesses_writePreimage_returned (u := u) hexec, State.layerAccesses_writeHint_words,
      s.layerAccesses_other⟩

/-! ### A store seen by the next fetch (R66) -/

/-- After a store to the word at `nextPc`, also with a register write, that word is fetched and runs. -/
theorem stored_word_is_fetched {s t : State} {i : Instr} {a v w : Word} {d : RegNum}
    (hexecutes : s.Executes i) (hstep : step s = .next t) (hnext : wordBase a = s.nextPc)
    (hstore : ∀ u, exec i s = .next u → s.mapped (wordBase a) = true ∧
      u = ((s.storeWord (wordBase a) v).setReg d w).advance)
    {stored : Nat → Byte} (hbytes : ∀ k < 4, byteOf v k = stored k) :
    ∃ w : Word, t.fetch = .ok w ∧ (∀ k < 4, byteOf w k = stored k) ∧
      (∀ j, decodeWord w = some j → t.Executes j) ∧
      (decodeWord w = none → step t = .fault (.unsupportedInstruction w)) := by
  obtain ⟨u, hexec, rfl⟩ := hexecutes.step_next hstep
  obtain ⟨hmapped, rfl⟩ := hstore u hexec
  obtain ⟨hexited, -⟩ := hexecutes
  have hrunning : ((s.storeWord (wordBase a) v).setReg d w).advance.tick.exited = false := by
    rw [State.tick_exited, State.advance_exited, State.setReg_exited]
    exact hexited
  have hfetch : ((s.storeWord (wordBase a) v).setReg d w).advance.tick.fetch = .ok v := by
    refine (State.fetch_ok _ _).mpr ⟨?_, ?_, ?_⟩
    · simp [← hnext, wordAligned_wordBase]
    · simpa [State.mapped, hnext] using hmapped
    · simp [hnext]
  refine ⟨v, hfetch, hbytes, fun j hj => ⟨hrunning, v, hfetch, hj⟩, fun hnone => ?_⟩
  simp only [step, hrunning, hfetch, hnone]
  rfl

theorem setWidth_eight_eq_byteOf (v : Word) : v.setWidth 8 = byteOf v 3 :=
  BitVec.setWidth_eq_extractLsb' (by decide)

/-- The bytes of a register's low halfword are its bytes 2 and 3. -/
theorem extractLsb'_setWidth_sixteen (v : Word) {k : Nat} (hk : k < 2) :
    (v.setWidth 16).extractLsb' (8 * (1 - k)) 8 = byteOf v (2 + k) := by
  rw [BitVec.extractLsb'_setWidth_of_le (by omega), byteOf]
  congr 1
  omega

/-- Settles O14: each store replaces the word by one with its bytes of `rt` among the old ones. -/
theorem storeIsSeenByTheNextFetch : Obligations.StoreIsSeenByTheNextFetch := by
  intro s t base rt offset b old new seen
  have hb : byteIndex (s.effAddr base offset) = b := State.byteIndex_eq _
  refine ⟨fun hi hstep hnext => ?_, fun hi hstep hnext => ?_, fun hi hstep hnext => ?_,
    fun hi hstep hnext => ?_, fun hi hstep hnext => ?_, fun hi hstep hnext => ?_⟩
  · exact stored_word_is_fetched (d := 0#5) (w := 0#32) hi hstep hnext
      (fun _ h => ((exec_sw_next ..).mp h).2) fun k hk => rfl
  · exact stored_word_is_fetched hi hstep hnext
      (fun _ h => ((exec_sc_next ..).mp h).2) fun k hk => rfl
  · refine stored_word_is_fetched (d := 0#5) (w := 0#32) hi hstep hnext
      (fun _ h => (exec_sb_next ..).mp h) fun k hk => ?_
    rw [byteOf_setByteLane _ _ _ hk, hb, hnext, setWidth_eight_eq_byteOf]
  · obtain ⟨u, hexec, -⟩ := hi.step_next hstep
    obtain ⟨hhalf, -⟩ := (exec_sh_next ..).mp hexec
    have heven := (State.halfAligned_iff _).mp hhalf
    refine stored_word_is_fetched (d := 0#5) (w := 0#32) hi hstep hnext
      (fun _ h => ((exec_sh_next ..).mp h).2) fun k hk => ?_
    rw [byteOf_setHalfLane _ heven _ hk, hb, hnext]
    split
    · exact extractLsb'_setWidth_sixteen _ (by omega)
    · rfl
  · refine stored_word_is_fetched (d := 0#5) (w := 0#32) hi hstep hnext
      (fun _ h => (exec_swl_next ..).mp h) fun k hk => ?_
    rw [byteOf_storeLeft _ _ _ hk, hb, hnext]
  · refine stored_word_is_fetched (d := 0#5) (w := 0#32) hi hstep hnext
      (fun _ h => (exec_swr_next ..).mp h) fun k hk => ?_
    rw [byteOf_storeRight _ _ (byteIndex_lt _) hk, hb, hnext]

end Sys2Proof.Machine
end

section
/-! SUPPORT. The opcode table and the encoder agree row by row (spec/30_encoding.md R80 to R93), and what follows for
every word: decoding the encoding, encoding the decoding, and the words no row admits. -/

namespace Sys2Proof

/-! ### From an instruction to its row -/

namespace Laws.RowOfEncode

theorem statement : ∀ i : Instr, Statement i
  | .add .. => add _ _ _
  | .addu .. => addu _ _ _
  | .sub .. => sub _ _ _
  | .subu .. => subu _ _ _
  | .and .. => and _ _ _
  | .or .. => or _ _ _
  | .xor .. => xor _ _ _
  | .nor .. => nor _ _ _
  | .slt .. => slt _ _ _
  | .sltu .. => sltu _ _ _
  | .addi .. => addi _ _ _
  | .addiu .. => addiu _ _ _
  | .slti .. => slti _ _ _
  | .sltiu .. => sltiu _ _ _
  | .andi .. => andi _ _ _
  | .ori .. => ori _ _ _
  | .xori .. => xori _ _ _
  | .lui .. => lui _ _
  | .sll .. => sll _ _ _
  | .srl .. => srl _ _ _
  | .sra .. => sra _ _ _
  | .sllv .. => sllv _ _ _
  | .srlv .. => srlv _ _ _
  | .srav .. => srav _ _ _
  | .movz .. => movz _ _ _
  | .movn .. => movn _ _ _
  | .clz .. => clz _ _ _
  | .clo .. => clo _ _ _
  | .lb .. => lb _ _ _
  | .lbu .. => lbu _ _ _
  | .lh .. => lh _ _ _
  | .lhu .. => lhu _ _ _
  | .lw .. => lw _ _ _
  | .lwl .. => lwl _ _ _
  | .lwr .. => lwr _ _ _
  | .sb .. => sb _ _ _
  | .sh .. => sh _ _ _
  | .sw .. => sw _ _ _
  | .swl .. => swl _ _ _
  | .swr .. => swr _ _ _
  | .ll .. => ll _ _ _
  | .sc .. => sc _ _ _
  | .j .. => j _
  | .jal .. => jal _
  | .jr .. => jr _
  | .jalr .. => jalr _ _
  | .beq .. => beq _ _ _
  | .bne .. => bne _ _ _
  | .blez .. => blez _ _
  | .bgtz .. => bgtz _ _
  | .bltz .. => bltz _ _
  | .bgez .. => bgez _ _
  | .bltzal .. => bltzal _ _
  | .bgezal .. => bgezal _ _
  | .mult .. => mult _ _
  | .multu .. => multu _ _
  | .div .. => div _ _
  | .divu .. => divu _ _
  | .mfhi .. => mfhi _
  | .mflo .. => mflo _
  | .mthi .. => mthi _
  | .mtlo .. => mtlo _
  | .mul .. => mul _ _ _
  | .syscall .. => syscall _
  | .sync .. => sync _

end Laws.RowOfEncode

theorem decodeWord_encode {i : Instr} (h : i.wellFormed = true) : decodeWord (encode i) = some i := by
  obtain ⟨r, hm, ha, hb⟩ := Laws.RowOfEncode.statement i h
  rw [decodeWord_of_row hm ha, hb]

theorem decodeWord_of_encode_eq {i : Instr} {w : Word} (h : i.wellFormed = true) (hw : encode i = w) :
    decodeWord w = some i :=
  hw ▸ decodeWord_encode h

/-- A word in memory order, with more bytes after it, decodes as the word does (R80, 20_memory.md R54). -/
theorem decodeBytes_bytesOfWord {w : Word} {i : Instr} (h : decodeWord w = some i) (rest : List Byte) :
    decodeBytes (bytesOfWord w ++ rest) = .ok (i, rest) := by
  have hword : wordOfBytes (w.extractLsb' 24 8) (w.extractLsb' 16 8) (w.extractLsb' 8 8)
      (w.extractLsb' 0 8) = w := Machine.Memory.word_of_bytes w
  simp only [bytesOfWord, List.cons_append, List.nil_append, decodeBytes, hword, h]

theorem decodeTableWord_toNat {w : Word} {i : Instr} (h : decodeWord w = some i) :
    decodeTableWord 32 w.toNat = some i := by
  have hbytes : decodeBytes (bytesOfWord w) = .ok (i, []) := by
    simpa using decodeBytes_bytesOfWord h []
  have hnumber : BitVec.ofNat 32 (w.toNat % 2 ^ 32) = w := by
    rw [Nat.mod_eq_of_lt w.isLt, BitVec.ofNat_toNat, BitVec.setWidth_eq]
  simp only [decodeTableWord, hnumber, hbytes]

/-- Settles O15: the row of the encoding makes the instruction again, and bytes are put together to the same word. -/
theorem encodedInstructionDecodesToItself : Obligations.EncodedInstructionDecodesToItself := by
  intro i rest hwf
  have hword := decodeWord_encode hwf
  exact ⟨hword, decodeBytes_bytesOfWord hword rest, decodeTableWord_toNat hword⟩

/-! ### From a row to its instruction -/

/-- The formats of R82 to R84; SYSCALL's, with bits 25:6 one field, apart. -/
inductive InstrFormat where
  | r
  | i
  | j
  | code

/-- The word in a format whose field of `len` bits from bit `start` is `field start len`. -/
def InstrFormat.assemble (field : (start len : Nat) → BitVec len) : InstrFormat → Word
  | .r => rType (field 26 6) (field 21 5) (field 16 5) (field 11 5) (field 6 5) (field 0 6)
  | .i => iType (field 26 6) (field 21 5) (field 16 5) (field 0 16)
  | .j => jType (field 26 6) (field 0 26)
  | .code => codeType (field 26 6) (field 6 20) (field 0 6)

/-- A word is its fields, whichever format they are taken in. -/
theorem InstrFormat.assemble_fields (w : Word) : ∀ f : InstrFormat, f.assemble (w.extractLsb' · ·) = w
  | .r => rType_fields w
  | .i => iType_fields w
  | .j => jType_fields w
  | .code => codeType_fields w

/-- The format of a row's words, by its opcode; SYSCALL is the row of opcode 0 with funct 0x0C. -/
def Row.format (r : Row) : InstrFormat :=
  if opField r.value = 0x00#6 ∧ functField r.value = 0x0C#6 then .code
  else if opField r.value ∈ [0x00#6, 0x1C#6] then .r
  else if opField r.value ∈ [0x02#6, 0x03#6] then .j
  else .i

/-- A field that the row's mask covers has the row's bits; any other has the word's. -/
def Row.field (r : Row) (w : Word) (start len : Nat) : BitVec len :=
  if r.mask.extractLsb' start len = BitVec.allOnes len then r.value.extractLsb' start len
  else w.extractLsb' start len

theorem Row.admits_iff {r : Row} {w : Word} :
    r.admits w = true ↔
      w &&& r.mask = r.value ∧ (!r.needsRtEqRd || rtField w == rdField w) = true := by
  rw [Row.admits, Bool.and_eq_true, beq_iff_eq]

/-- A word the row admits has the row's bits in every field the mask covers (R86). -/
theorem Row.extract_of_admits {r : Row} {w : Word} (h : r.admits w = true) {start len : Nat}
    (hmask : r.mask.extractLsb' start len = BitVec.allOnes len) :
    w.extractLsb' start len = r.value.extractLsb' start len := by
  obtain ⟨hvalue, -⟩ := Row.admits_iff.mp h
  rw [← hvalue, BitVec.extractLsb'_and, hmask, BitVec.and_allOnes]

theorem Row.field_of_admits {r : Row} {w : Word} (h : r.admits w = true) :
    r.field w = (w.extractLsb' · ·) := by
  funext start len
  unfold Row.field
  split
  · next hmask => exact (Row.extract_of_admits h hmask).symm
  · rfl

/-- What R88 says of a row: the encoder puts its instruction together from the row's fixed fields and the
word's others, and the instruction is well formed where the row's constraint holds (R93). -/
def Row.Agrees (r : Row) : Prop :=
  ∀ w : Word, encode (r.build w) = r.format.assemble (r.field w) ∧
    (r.build w).wellFormed = (!r.needsRtEqRd || rtField w == rdField w)

/-- The opcode table and the encoder, each written out from R88, are the same: row by row by computation. -/
theorem opcodeTable_agrees : ∀ r ∈ opcodeTable, r.Agrees := by
  simp only [opcodeTable, arithRows, loadStoreRows, branchRows, mulDivRows, systemRows,
    List.forall_mem_append, List.forall_mem_cons, List.not_mem_nil, false_imp_iff, implies_true,
    and_true]
  and_intros
  all_goals exact fun _ => ⟨rfl, rfl⟩

/-- Settles O16: the row that admits the word puts it together again from the fields it fixes and the others. -/
theorem decodedWordEncodesBack : Obligations.DecodedWordEncodesBack := by
  intro w i h
  obtain ⟨r, hm, ha, rfl⟩ := row_of_decodeWord h
  obtain ⟨hencode, hwf⟩ := opcodeTable_agrees r hm w
  obtain ⟨-, hconstraint⟩ := Row.admits_iff.mp ha
  refine ⟨hwf.trans hconstraint, ?_⟩
  rw [hencode, Row.field_of_admits ha, InstrFormat.assemble_fields]

/-! ### Words no row admits -/

theorem decodeWord_eq_none_iff {w : Word} :
    decodeWord w = none ↔ ∀ r ∈ opcodeTable, r.admits w = false := by
  simp only [decodeWord, Option.map_eq_none_iff, List.find?_eq_none, Bool.not_eq_true]

/-- Two rows at different places of the table admit no word in common (R86). -/
theorem index_unique_of_admits {w : Word} {i j : Fin opcodeTable.length}
    (hi : opcodeTable[i].admits w = true) (hj : opcodeTable[j].admits w = true) : i = j := by
  have hdisjoint := List.pairwise_iff_getElem.mp opcodeTable_disjoint
  rcases lt_trichotomy i j with h | h | h
  · exact absurd hj (Bool.eq_false_iff.mp (not_both_admit (hdisjoint i j i.isLt j.isLt h) w hi))
  · exact h
  · exact absurd hi (Bool.eq_false_iff.mp (not_both_admit (hdisjoint j i j.isLt i.isLt h) w hj))

/-- Settles O17: any two rows differ in a bit both fix, so the first row that admits a word is the only one. -/
theorem rowsAreDisjointAndDecide : Obligations.RowsAreDisjointAndDecide :=
  ⟨rfl, fun _ => ⟨fun _ _ => rfl, fun _ hm ha => decodeWord_of_row hm ha,
    fun _ _ => index_unique_of_admits, decodeWord_eq_none_iff⟩⟩

/-- Every row fixes the opcode (R81, R88). -/
theorem opField_of_admits {r : Row} (hm : r ∈ opcodeTable) {w : Word} (ha : r.admits w = true) :
    opField w = opField r.value := by
  have hmask : ∀ r ∈ opcodeTable, r.mask.extractLsb' 26 6 = BitVec.allOnes 6 := by decide
  exact Row.extract_of_admits ha (hmask r hm)

/-- A word is unsupported whose opcode is in `cells`, if no row's is: the shape of R89's primary map. -/
theorem decodeWord_eq_none_of_opField {cells : BitVec 6 → Prop} {w : Word}
    (hrows : ∀ r ∈ opcodeTable, ¬ cells (opField r.value)) (hop : cells (opField w)) :
    decodeWord w = none := by
  refine decodeWord_eq_none_iff.mpr fun r hm => Bool.eq_false_iff.mpr fun ha => ?_
  exact hrows r hm (opField_of_admits hm ha ▸ hop)

/-- A word is unsupported whose opcode is `op` and one further field is in `cells`, if every row of that opcode
fixes the field at a value outside `cells`: the shape of R89's maps below the primary one. -/
theorem decodeWord_eq_none_of_cell {start len : Nat} {op : BitVec 6} {cells : BitVec len → Prop} {w : Word}
    (hrows : ∀ r ∈ opcodeTable, opField r.value = op →
      r.mask.extractLsb' start len = BitVec.allOnes len ∧ ¬ cells (r.value.extractLsb' start len))
    (hop : opField w = op) (hcell : cells (w.extractLsb' start len)) : decodeWord w = none := by
  refine decodeWord_eq_none_iff.mpr fun r hm => Bool.eq_false_iff.mpr fun ha => ?_
  obtain ⟨hmask, hvalue⟩ := hrows r hm ((opField_of_admits hm ha).symm.trans hop)
  exact hvalue (Row.extract_of_admits ha hmask ▸ hcell)

/-- Settles O18: no row has an opcode, function or `rt` code among the cells, and every row fixes those fields. -/
theorem unassignedOpcodeCellsAreUnsupported : Obligations.UnassignedOpcodeCellsAreUnsupported := by
  refine fun w => ⟨fun hop => ?_, fun hop hfunct => ?_, fun hop hrt => ?_, fun hop hfunct => ?_⟩
  · exact decodeWord_eq_none_of_opField (cells := (· ∈ _)) (by decide) hop
  · exact decodeWord_eq_none_of_cell (start := 0) (cells := (· ∈ _)) (by decide) hop hfunct
  · exact decodeWord_eq_none_of_cell (start := 16) (cells := (· ∉ _)) (by decide) hop hrt
  · exact decodeWord_eq_none_of_cell (start := 0) (cells := (· ∉ _)) (by decide) hop hfunct

/-- Settles O20: each word is the encoding of its instruction; the last two meet no row, by R91 and R93. -/
theorem wordsOfTheSpecDecode : Obligations.WordsOfTheSpecDecode := by
  unfold Obligations.WordsOfTheSpecDecode
  and_intros
  iterate 15 exact decodeWord_of_encode_eq rfl rfl
  · decide
  · decide

end Sys2Proof
end

section
/-! SUPPORT. Arithmetic, logic, compare, shift, move and count (spec/40_arith_logic.md R110 to R139): the words these
instructions write, as arithmetic or bit by bit, and the words of their rows that the decoder refuses. -/

namespace Sys2Proof.Machine

/-! ### How these instructions end (R110, R111) -/

theorem isWordOf_of_encode {w : Word} {i : Instr} (hwf : i.wellFormed = true) (hw : encode i = w) :
    IsWordOf w i :=
  ⟨decodeWord_of_encode_eq hwf hw, hw⟩

section
variable {s : State} {i : Instr} {d : RegNum}

/-- An instruction that ends by writing `v` writes whatever `v` is shown to be, and nothing else. -/
theorem exec_onlyRegister {v v' : Word} (hexec : exec i s = writeAndAdvance s d v) (hv : v = v') :
    ∃ t, exec i s = .next t ∧ s.OnlyRegister t d v' :=
  ⟨_, hexec, hv ▸ s.onlyRegister_setReg d v⟩

/-- An instruction that ends by writing the truth of `c` writes 1 or 0 as `c` says. -/
theorem exec_onlyRegister_truthWord {c : Bool} {p : Prop}
    (hexec : exec i s = writeAndAdvance s d (truthWord c)) (hc : c = true ↔ p) :
    (p → ∃ t, exec i s = .next t ∧ s.OnlyRegister t d 1#32) ∧
    (¬p → ∃ t, exec i s = .next t ∧ s.OnlyRegister t d 0#32) := by
  refine ⟨fun hp => exec_onlyRegister hexec ?_, fun hp => exec_onlyRegister hexec ?_⟩
  · rw [hc.mpr hp]
    rfl
  · rw [Bool.eq_false_iff.mpr (mt hc.mp hp)]
    rfl

theorem fitsSigned_iff (x : Int) : fitsSigned x = true ↔ -2 ^ 31 ≤ x ∧ x ≤ 2 ^ 31 - 1 := by
  rw [fitsSigned, decide_eq_true_iff]

/-- An instruction that traps on overflow writes an exact result that fits, and is fatal for any other. -/
theorem exec_writeUnlessOverflow_ends {x x' : Int} (hexec : exec i s = writeUnlessOverflow s i d x)
    (hx : x = x') :
    (-2 ^ 31 ≤ x' ∧ x' ≤ 2 ^ 31 - 1 →
      ∃ t, exec i s = .next t ∧ s.OnlyRegister t d (BitVec.ofInt 32 x')) ∧
    (¬(-2 ^ 31 ≤ x' ∧ x' ≤ 2 ^ 31 - 1) → exec i s = .fault (.integerOverflow (encode i))) := by
  subst hx
  rw [hexec, ← fitsSigned_iff]
  exact ⟨fun hfits => ⟨_, (writeUnlessOverflow_next ..).mpr ⟨hfits, rfl⟩, s.onlyRegister_setReg d _⟩,
    fun hover => (writeUnlessOverflow_fault ..).mpr ⟨Bool.eq_false_iff.mpr hover, rfl⟩⟩

end

/-! ### Sums and comparisons -/

theorem toInt_sext16 (imm : BitVec 16) : (sext16 imm).toInt = imm.toInt :=
  BitVec.toInt_signExtend_of_le (by decide)

theorem toNat_sext16 (imm : BitVec 16) : ((sext16 imm).toNat : Int) = imm.toInt % 2 ^ 32 := by
  rw [sext16, BitVec.signExtend, BitVec.toNat_ofInt,
    Int.toNat_of_nonneg (Int.emod_nonneg _ (by decide))]
  rfl

theorem ofInt_toNat_sub (a b : Word) : BitVec.ofInt 32 (a.toNat - b.toNat) = a - b := by
  rw [Int.sub_eq_add_neg, BitVec.ofInt_add, BitVec.ofInt_neg]
  simp [BitVec.sub_eq_add_neg]

theorem ofInt_toNat_add_toInt (a : Word) (imm : BitVec 16) :
    BitVec.ofInt 32 (a.toNat + imm.toInt) = a + sext16 imm := by
  rw [BitVec.ofInt_add, BitVec.ofInt_natCast, BitVec.ofNat_toNat, BitVec.setWidth_eq]
  rfl

theorem lessSigned_iff (a b : Word) : lessSigned a b = true ↔ a.toInt < b.toInt := by
  rw [lessSigned, decide_eq_true_iff]

theorem lessUnsigned_iff (a b : Word) : lessUnsigned a b = true ↔ a.toNat < b.toNat := by
  rw [lessUnsigned, decide_eq_true_iff]

/-- Settles O25: the check of R111 is on the exact sum, and the sign-extended immediate has the value of the
immediate. -/
theorem signedSumsFitOrTrap : Obligations.SignedSumsFitOrTrap := by
  intro s rs rt rd imm fits ends
  refine ⟨exec_writeUnlessOverflow_ends rfl rfl, exec_writeUnlessOverflow_ends rfl rfl,
    exec_writeUnlessOverflow_ends rfl ?_⟩
  rw [signedSum, toInt_sext16]

/-- Settles O26: addition and subtraction of words are those of the integers modulo 2^32. -/
theorem unsignedSumsWrap : Obligations.UnsignedSumsWrap := fun _ _ _ _ _ =>
  ⟨⟨isWordOf_of_encode rfl rfl, exec_onlyRegister rfl (BitVec.add_def _ _)⟩,
    ⟨isWordOf_of_encode rfl rfl, exec_onlyRegister rfl (ofInt_toNat_sub _ _).symm⟩,
    ⟨isWordOf_of_encode rfl rfl, exec_onlyRegister rfl (ofInt_toNat_add_toInt _ _).symm⟩⟩

/-- Settles O29: the comparisons of words are those of their values, the immediate sign-extended for both. -/
theorem comparisonsSetOneOrZero : Obligations.ComparisonsSetOneOrZero := by
  intro s rs rt rd imm sets
  refine ⟨⟨isWordOf_of_encode rfl rfl, exec_onlyRegister_truthWord rfl (lessSigned_iff _ _)⟩,
    ⟨isWordOf_of_encode rfl rfl, exec_onlyRegister_truthWord rfl (lessUnsigned_iff _ _)⟩,
    ⟨isWordOf_of_encode rfl rfl, exec_onlyRegister_truthWord rfl ?_⟩,
    ⟨isWordOf_of_encode rfl rfl, exec_onlyRegister_truthWord rfl ?_⟩⟩
  · rw [lessSigned_iff, toInt_sext16]
  · rw [lessUnsigned_iff, ← toNat_sext16, Int.ofNat_lt]

/-! ### Logic, bit by bit -/

/-- Settles O27, by the bits of each operation on words. -/
theorem bitwiseInstructionsActOnEachBit : Obligations.BitwiseInstructionsActOnEachBit := by
  intro s rs rt rd bitwise
  refine ⟨⟨isWordOf_of_encode rfl rfl, _, _, rfl, s.onlyRegister_setReg rd _, fun k hk => ?_⟩,
    ⟨isWordOf_of_encode rfl rfl, _, _, rfl, s.onlyRegister_setReg rd _, fun k hk => ?_⟩,
    ⟨isWordOf_of_encode rfl rfl, _, _, rfl, s.onlyRegister_setReg rd _, fun k hk => ?_⟩,
    ⟨isWordOf_of_encode rfl rfl, _, _, rfl, s.onlyRegister_setReg rd _, fun k hk => ?_⟩⟩
  · exact BitVec.getLsbD_and
  · exact BitVec.getLsbD_or
  · exact BitVec.getLsbD_xor
  · rw [BitVec.getLsbD_not, BitVec.getLsbD_or, decide_eq_true hk, Bool.true_and]

theorem getLsbD_zext16_low (imm : BitVec 16) {k : Nat} (hk : k < 16) :
    (zext16 imm).getLsbD k = imm.getLsbD k := by
  rw [zext16, BitVec.getLsbD_setWidth, decide_eq_true (by omega), Bool.true_and]

theorem getLsbD_zext16_high (imm : BitVec 16) {k : Nat} (hk : 16 ≤ k) :
    (zext16 imm).getLsbD k = false := by
  rw [zext16, BitVec.getLsbD_setWidth, BitVec.getLsbD_of_ge imm k hk, Bool.and_false]

theorem upperImm_eq (imm : BitVec 16) : upperImm imm = BitVec.ofNat 32 (imm.toNat * 2 ^ 16) := by
  apply BitVec.eq_of_toNat_eq
  rw [upperImm, BitVec.toNat_append, BitVec.toNat_ofNat, BitVec.toNat_ofNat, Nat.shiftLeft_eq,
    Nat.zero_mod, Nat.or_zero]
  omega

/-- A bitwise operation with a zero-extended immediate acts on the immediate's bits and then on zeros. -/
theorem exec_onlyRegister_zext16 {s : State} {i : Instr} {d : RegNum} {a b : Word} {imm : BitVec 16}
    {f : Bool → Bool → Bool} (hexec : exec i s = writeAndAdvance s d b)
    (hbits : ∀ k, b.getLsbD k = f (a.getLsbD k) ((zext16 imm).getLsbD k)) :
    ∃ v t, exec i s = .next t ∧ s.OnlyRegister t d v ∧
      (∀ k < 16, v.getLsbD k = f (a.getLsbD k) (imm.getLsbD k)) ∧
      ∀ k, 16 ≤ k → k < 32 → v.getLsbD k = f (a.getLsbD k) false := by
  refine ⟨b, _, hexec, s.onlyRegister_setReg d b, fun k hk => ?_, fun k hk _ => ?_⟩
  · rw [hbits, getLsbD_zext16_low imm hk]
  · rw [hbits, getLsbD_zext16_high imm hk]

/-- Settles O28: the immediate is zero-extended for the logical operations, and shifted for LUI, whose row fixes
`rs`. -/
theorem logicImmediatesZeroExtend : Obligations.LogicImmediatesZeroExtend := by
  intro s rs rt imm bitwise
  refine ⟨⟨isWordOf_of_encode rfl rfl, exec_onlyRegister_zext16 rfl fun _ => BitVec.getLsbD_and⟩,
    ⟨isWordOf_of_encode rfl rfl, exec_onlyRegister_zext16 rfl fun _ => BitVec.getLsbD_or⟩,
    ⟨isWordOf_of_encode rfl rfl, exec_onlyRegister_zext16 rfl fun _ => BitVec.getLsbD_xor⟩,
    isWordOf_of_encode rfl rfl, fun op hop => ?_, exec_onlyRegister rfl (upperImm_eq imm)⟩
  exact decodeWord_eq_none_of_cell (start := 21) (op := 0x0F#6) (cells := (· ≠ 0#5)) (by decide)
    (opField_iType ..) (ne_of_eq_of_ne (rsField_iType ..) hop)

/-! ### Words refused for a field of their row (30_encoding.md R91, R93) -/

/-- Every row of opcode SPECIAL or SPECIAL2 fixes the function code (R81, R88). -/
theorem functField_of_admits {r : Row} (hm : r ∈ opcodeTable) {w : Word} (ha : r.admits w = true)
    (hop : opField w ∈ [0x00#6, 0x1C#6]) : functField w = functField r.value := by
  have hmask : ∀ r ∈ opcodeTable, opField r.value ∈ [0x00#6, 0x1C#6] →
      r.mask.extractLsb' 0 6 = BitVec.allOnes 6 := by decide
  rw [opField_of_admits hm ha] at hop
  exact Row.extract_of_admits ha (hmask r hm hop)

section
variable {w : Word} {op funct : BitVec 6} (hspecial : op ∈ [0x00#6, 0x1C#6]) (hop : opField w = op)
  (hfunct : functField w = funct)
include hspecial hop hfunct

/-- A word of opcode SPECIAL or SPECIAL2 is unsupported if the row of its opcode and function refuses it. -/
theorem decodeWord_eq_none_of_funct
    (hrows : ∀ r ∈ opcodeTable, opField r.value = op → functField r.value = funct →
      r.admits w = false) : decodeWord w = none := by
  refine decodeWord_eq_none_iff.mpr fun r hm => Bool.eq_false_iff.mpr fun ha => ?_
  have hrow : r.admits w = false :=
    hrows r hm ((opField_of_admits hm ha).symm.trans hop)
      ((functField_of_admits hm ha (hop.symm ▸ hspecial)).symm.trans hfunct)
  exact Bool.eq_false_iff.mp hrow ha

/-- Such a word is unsupported if its row fixes a field to another value (R91). -/
theorem decodeWord_eq_none_of_fixed {start len : Nat} {v : BitVec len}
    (hrows : ∀ r ∈ opcodeTable, opField r.value = op → functField r.value = funct →
      r.mask.extractLsb' start len = BitVec.allOnes len ∧ r.value.extractLsb' start len = v)
    (hne : w.extractLsb' start len ≠ v) : decodeWord w = none := by
  refine decodeWord_eq_none_of_funct hspecial hop hfunct fun r hm ho hf =>
    Bool.eq_false_iff.mpr fun ha => ?_
  obtain ⟨hmask, hvalue⟩ := hrows r hm ho hf
  exact hne ((Row.extract_of_admits ha hmask).trans hvalue)

/-- Such a word is unsupported if its row asks for `rt = rd` and they differ (R93). -/
theorem decodeWord_eq_none_of_rt_ne_rd
    (hrows : ∀ r ∈ opcodeTable, opField r.value = op → functField r.value = funct →
      r.needsRtEqRd = true)
    (hne : rtField w ≠ rdField w) : decodeWord w = none := by
  refine decodeWord_eq_none_of_funct hspecial hop hfunct fun r hm ho hf =>
    Bool.eq_false_iff.mpr fun ha => ?_
  obtain ⟨-, hconstraint⟩ := Row.admits_iff.mp ha
  exact hne (by simpa [hrows r hm ho hf] using hconstraint)

end

/-! ### Shifts as arithmetic -/

theorem shiftLeft_eq_ofNat (a : Word) (n : Nat) : a <<< n = BitVec.ofNat 32 (a.toNat * 2 ^ n) := by
  apply BitVec.eq_of_toNat_eq
  rw [BitVec.toNat_shiftLeft, BitVec.toNat_ofNat, Nat.shiftLeft_eq]

theorem ushiftRight_eq_ofNat (a : Word) (n : Nat) : a >>> n = BitVec.ofNat 32 (a.toNat / 2 ^ n) := by
  rw [← Nat.shiftRight_eq_div_pow, ← BitVec.toNat_ushiftRight, BitVec.ofNat_toNat, BitVec.setWidth_eq]

theorem sshiftRight_eq_ofInt (a : Word) (n : Nat) :
    a.sshiftRight n = BitVec.ofInt 32 (a.toInt.fdiv (2 ^ n)) := by
  rw [Int.fdiv_eq_ediv_of_nonneg _ (by positivity), BitVec.sshiftRight, Int.shiftRight_eq_div_pow,
    Nat.cast_pow]
  rfl

theorem shiftAmount_eq (v : Word) : shiftAmount v = v.toNat % 32 := by
  rw [shiftAmount, BitVec.extractLsb'_toNat, Nat.shiftRight_zero]

/-- Settles O30: a shift by the field is a product or a rounded-down quotient, and SRL's row fixes `rs`. -/
theorem constantShiftsScaleByPowersOfTwo : Obligations.ConstantShiftsScaleByPowersOfTwo := by
  intro s rt rd sa
  refine ⟨⟨isWordOf_of_encode rfl rfl, exec_onlyRegister rfl (shiftLeft_eq_ofNat _ _)⟩,
    ⟨isWordOf_of_encode rfl rfl, exec_onlyRegister rfl (ushiftRight_eq_ofNat _ _)⟩,
    ⟨isWordOf_of_encode rfl rfl, exec_onlyRegister rfl (sshiftRight_eq_ofInt _ _)⟩, fun rs hrs => ?_⟩
  exact decodeWord_eq_none_of_fixed (op := 0x00#6) (funct := 0x02#6) (start := 21) (v := 0#5)
    (by decide) (opField_rType ..) (functField_rType ..) (by decide)
    (ne_of_eq_of_ne (rsField_rType ..) hrs)

/-- Settles O31: the shifts of O30 by the low five bits of `rs`; SRLV's row fixes `sa`. -/
theorem variableShiftsUseFiveBits : Obligations.VariableShiftsUseFiveBits := by
  intro s rs rt rd n
  have hn : shiftAmount (s.reg rs) = n := shiftAmount_eq _
  refine ⟨⟨isWordOf_of_encode rfl rfl, exec_onlyRegister rfl (hn ▸ shiftLeft_eq_ofNat _ _)⟩,
    ⟨isWordOf_of_encode rfl rfl, exec_onlyRegister rfl (hn ▸ ushiftRight_eq_ofNat _ _)⟩,
    ⟨isWordOf_of_encode rfl rfl, exec_onlyRegister rfl (hn ▸ sshiftRight_eq_ofInt _ _)⟩,
    fun sa hsa => ?_⟩
  exact decodeWord_eq_none_of_fixed (op := 0x00#6) (funct := 0x06#6) (start := 6) (v := 0#5)
    (by decide) (opField_rType ..) (functField_rType ..) (by decide)
    (ne_of_eq_of_ne (saField_rType ..) hsa)

/-! ### Conditional moves -/

/-- Settles O32: where nothing is moved the destination is written with what it holds. -/
theorem conditionalMovesKeepOrMove : Obligations.ConditionalMovesKeepOrMove := by
  intro s rs rt rd
  by_cases hzero : s.reg rt = 0#32
  · rw [if_pos hzero, if_pos hzero]
    exact ⟨⟨isWordOf_of_encode rfl rfl, exec_onlyRegister (if_pos hzero) rfl⟩,
      ⟨isWordOf_of_encode rfl rfl, _, if_neg (not_not.mpr hzero), s.onlyRegister_advance rd⟩⟩
  · rw [if_neg hzero, if_neg hzero]
    exact ⟨⟨isWordOf_of_encode rfl rfl, _, if_neg hzero, s.onlyRegister_advance rd⟩,
      ⟨isWordOf_of_encode rfl rfl, exec_onlyRegister (if_pos hzero) rfl⟩⟩

/-! ### Counting (R138, R139) -/

section
variable (v : Word) (stop : Bool)

theorem leadingFrom_le (i : Nat) : leadingFrom v stop i ≤ 32 := by
  induction i with
  | zero => exact Nat.le_refl 32
  | succ i ih =>
    rw [leadingFrom]
    split
    · omega
    · exact ih

/-- The bits from `i - 1` down that the count passes are not the one it stops at. -/
theorem getLsbD_of_lt_leadingFrom {i k : Nat} (hi : i ≤ 32) (hfrom : 32 - i ≤ k)
    (hk : k < leadingFrom v stop i) : v.getLsbD (31 - k) = !stop := by
  induction i with
  | zero =>
    rw [leadingFrom] at hk
    omega
  | succ i ih =>
    rw [leadingFrom] at hk
    split at hk
    · omega
    · next hbit =>
      by_cases hfirst : k = 31 - i
      · rw [hfirst, show 31 - (31 - i) = i by omega]
        exact Bool.eq_not.mpr hbit
      · exact ih (by omega) (by omega) hk

/-- Below 32 the count has stopped at its bit. -/
theorem getLsbD_leadingFrom {i : Nat} (hi : i ≤ 32) (hlt : leadingFrom v stop i < 32) :
    v.getLsbD (31 - leadingFrom v stop i) = stop := by
  induction i with
  | zero => exact absurd hlt (Nat.lt_irrefl 32)
  | succ i ih =>
    rw [leadingFrom] at hlt ⊢
    split at hlt
    · next hbit => rwa [if_pos hbit, show 31 - (31 - i) = i by omega]
    · next hbit => rw [if_neg hbit, ih (by omega) hlt]

end

/-- An instruction that writes the count of the bits before the first one that is `stop`. -/
theorem exec_onlyRegister_leadingFrom {s : State} {i : Instr} {d : RegNum} {v : Word} {stop run : Bool}
    (hexec : exec i s = writeAndAdvance s d (BitVec.ofNat 32 (leadingFrom v stop 32)))
    (hrun : (!stop) = run) :
    ∃ n t, exec i s = .next t ∧ s.OnlyRegister t d (BitVec.ofNat 32 n) ∧ n ≤ 32 ∧
      (∀ k < n, v.getLsbD (31 - k) = run) ∧ (n < 32 → v.getLsbD (31 - n) = !run) := by
  subst hrun
  refine ⟨_, _, hexec, s.onlyRegister_setReg d _, leadingFrom_le v stop 32,
    fun k hk => getLsbD_of_lt_leadingFrom v stop (Nat.le_refl 32) (Nat.zero_le k) hk, fun hlt => ?_⟩
  rw [Bool.not_not]
  exact getLsbD_leadingFrom v stop (Nat.le_refl 32) hlt

/-- Settles O33: the loop of R138 and R139 stops at the first bit that differs; the rows of CLZ and CLO ask for
`rt = rd`. -/
theorem countsStopAtTheFirstBit : Obligations.CountsStopAtTheFirstBit := by
  intro s rs rt rd counts
  have hrefused : ∀ funct ∈ [0x20#6, 0x21#6], rt ≠ rd →
      decodeWord (rType 0x1C rs rt rd 0 funct) = none := fun funct hfunct hne =>
    decodeWord_eq_none_of_rt_ne_rd (op := 0x1C#6) (by decide) (opField_rType ..) (functField_rType ..)
      (by revert funct; decide) (by simpa using hne)
  exact ⟨⟨isWordOf_of_encode (beq_self_eq_true rd) rfl, hrefused _ (by decide),
      exec_onlyRegister_leadingFrom (if_pos rfl) rfl⟩,
    ⟨isWordOf_of_encode (beq_self_eq_true rd) rfl, hrefused _ (by decide),
      exec_onlyRegister_leadingFrom (if_pos rfl) rfl⟩⟩

end Sys2Proof.Machine
end

section
/-! SUPPORT. Loads and stores (spec/41_load_store.md R150 to R163): how an instruction with one data access ends,
the bytes partial loads and stores move, and the two halves of an access at any address. -/

namespace Sys2Proof.Machine

/-- Settles O34: a sum of words is the one of the integers modulo 2^32, and the rest is
the address's division by 4. -/
theorem effectiveAddressIsBasePlusOffset : Obligations.EffectiveAddressIsBasePlusOffset :=
  fun _ _ _ => ⟨(ofInt_toNat_add_toInt _ _).symm, toNat_wordBase _, State.byteIndex_eq _,
    State.wordAligned_iff _, State.halfAligned_iff _⟩

/-! ### How an instruction with one data access ends (R151) -/

/-- What every `MemRead` and `MemWrite` is: alignment is checked, then mapping, and past both it gives `v`
(20_memory.md R57, R58). -/
def State.checked {α : Type} (s : State) (aligned : Bool) (a : Word) (v : α) : Except Fault α :=
  if !aligned then .error (.addressMisaligned a)
  else if !s.mapped (wordBase a) then .error (.addressUnmapped a)
  else .ok v

namespace State
variable (s : State) (a : Word)

theorem memRead1_eq_checked :
    s.memRead1 a = s.checked true a (byteLane (s.mem.readWord (wordBase a)) a) := rfl

theorem memRead2_eq_checked :
    s.memRead2 a = s.checked (halfAligned a) a (halfLane (s.mem.readWord (wordBase a)) a) := rfl

theorem memRead4_eq_checked : s.memRead4 a = s.checked (wordAligned a) a (s.mem.readWord a) := by
  unfold memRead4 checked
  by_cases h : wordAligned a = true
  · rw [wordBase_of_aligned ((wordAligned_iff a).mp h)]
  · simp [h]

theorem memReadPart_eq_checked :
    s.memReadPart a = s.checked true a (s.mem.readWord (wordBase a)) := rfl

theorem memWrite1_eq_checked (v : Byte) : s.memWrite1 a v =
    s.checked true a (s.storeWord (wordBase a) (setByteLane (s.mem.readWord (wordBase a)) a v)) := rfl

theorem memWrite2_eq_checked (v : BitVec 16) : s.memWrite2 a v = s.checked (halfAligned a) a
    (s.storeWord (wordBase a) (setHalfLane (s.mem.readWord (wordBase a)) a v)) := rfl

theorem memWrite4_eq_checked (v : Word) :
    s.memWrite4 a v = s.checked (wordAligned a) a (s.storeWord a v) := by
  unfold memWrite4 checked
  by_cases h : wordAligned a = true
  · rw [wordBase_of_aligned ((wordAligned_iff a).mp h)]
  · simp [h]

end State

section
variable {s : State} {i : Instr} {a : Word} {α : Type} {access : Except Fault α} {v : α} {al : Bool}
  {aligned : Prop}

/-- An instruction that is one checked access and then a next state ends as `AccessEnds` says. -/
theorem accessEnds_of_checked {done : State → Prop} {after : α → State}
    (hexec : exec i s = orRaise access fun x => .next (after x))
    (haccess : access = s.checked al a v) (hal : al = true ↔ aligned)
    (hdone : aligned → done (after v)) : s.AccessEnds i a aligned done := by
  subst haccess
  refine ⟨fun hmis => ?_, fun h hno => ?_, fun h hyes => ⟨after v, ?_, hdone h⟩⟩
  · simp [hexec, State.checked, Bool.eq_false_iff.mpr (mt hal.mp hmis), orRaise]
  · simp [hexec, State.checked, hal.mpr h, hno, orRaise]
  · simp [hexec, State.checked, hal.mpr h, hyes, orRaise]

/-- A load ends by writing what it makes of the value it reads. -/
theorem accessEnds_load {d : RegNum} {result : α → Word} {w : Word}
    (hexec : exec i s = orRaise access fun x => .next (s.setReg d (result x)).advance)
    (haccess : access = s.checked al a v) (hal : al = true ↔ aligned)
    (hresult : aligned → result v = w) :
    s.AccessEnds i a aligned (fun t => s.OnlyRegister t d w) :=
  accessEnds_of_checked hexec haccess hal fun h => hresult h ▸ s.onlyRegister_setReg d _

/-- A partial access checks no alignment, and goes on with the word that holds the address (20_memory.md R56). -/
theorem accessEnds_part {done : State → Prop} {after : Word → State}
    (hexec : exec i s = orRaise (s.memReadPart a) fun x => .next (after x))
    (hdone : done (after (s.mem.readWord (wordBase a)))) : s.AccessEnds i a True done :=
  accessEnds_of_checked hexec (s.memReadPart_eq_checked a) (iff_of_true rfl trivial) fun _ => hdone

end

/-- A byte is aligned at any address. -/
theorem byteAligned_iff (a : Word) : true = true ↔ a.toNat % 1 = 0 := by simp [Nat.mod_one]

/-- Settles O35: a lane of the word at the address is the addressed bytes, and each extension keeps their value. -/
theorem loadsExtendTheAddressedBytes : Obligations.LoadsExtendTheAddressedBytes := by
  intro s base rt offset addr half loads
  have hbyte : byteLane (s.mem.readWord (wordBase addr)) addr = s.mem.byteAt addr :=
    byteLane_readWord s.mem addr
  have hhalf (h : addr.toNat % 2 = 0) : halfLane (s.mem.readWord (wordBase addr)) addr = half :=
    halfLane_readWord s.mem h
  refine ⟨⟨isWordOf_of_encode rfl rfl, accessEnds_load rfl (s.memRead1_eq_checked addr)
      (byteAligned_iff addr) fun _ => congrArg sext8 hbyte⟩,
    ⟨isWordOf_of_encode rfl rfl, accessEnds_load rfl (s.memRead1_eq_checked addr)
      (byteAligned_iff addr) fun _ => ?_⟩,
    ⟨isWordOf_of_encode rfl rfl, accessEnds_load rfl (s.memRead2_eq_checked addr)
      (State.halfAligned_iff addr) fun h => congrArg sext16 (hhalf h)⟩,
    ⟨isWordOf_of_encode rfl rfl, accessEnds_load rfl (s.memRead2_eq_checked addr)
      (State.halfAligned_iff addr) fun h => ?_⟩,
    ⟨isWordOf_of_encode rfl rfl, accessEnds_load rfl (s.memRead4_eq_checked addr)
      (State.wordAligned_iff addr) fun _ => rfl⟩⟩
  · rw [hbyte, BitVec.ofNat_toNat, zext8]
  · rw [hhalf h, BitVec.ofNat_toNat, zext16]

/-- Settles O37: each store replaces its lane of the word by the low bytes of `rt`. -/
theorem storesWriteOnlyTheirBytes : Obligations.StoresWriteOnlyTheirBytes := by
  intro s base rt offset addr v stores
  refine ⟨⟨isWordOf_of_encode rfl rfl, accessEnds_of_checked rfl (s.memWrite1_eq_checked addr _)
      (byteAligned_iff addr) fun _ => s.onlyStore_storeWord ?_⟩,
    ⟨isWordOf_of_encode rfl rfl, accessEnds_of_checked rfl (s.memWrite2_eq_checked addr _)
      (State.halfAligned_iff addr) fun h => s.onlyStore_storeWord ?_⟩,
    ⟨isWordOf_of_encode rfl rfl, accessEnds_of_checked rfl (s.memWrite4_eq_checked addr _)
      (State.wordAligned_iff addr) fun _ => s.onlyStore_storeWord (bytesStored_word s addr v)⟩⟩
  · rw [← setWidth_eight_eq_byteOf]
    exact bytesStored_setByteLane s addr _
  · rw [← extractLsb'_setWidth_sixteen v (k := 0) (by decide),
      ← extractLsb'_setWidth_sixteen v (k := 1) (by decide)]
    exact bytesStored_setHalfLane s h _

/-! ### Partial words (R157, R158, R162, R163) -/

/-- Words with the same four bytes are one word. -/
theorem word_ext_byteOf {v w : Word} (h : ∀ k < 4, byteOf v k = byteOf w k) : v = w := by
  rw [← Memory.word_of_bytes v, ← Memory.word_of_bytes w]
  have h0 : v.extractLsb' 24 8 = w.extractLsb' 24 8 := h 0 (by decide)
  have h1 : v.extractLsb' 16 8 = w.extractLsb' 16 8 := h 1 (by decide)
  have h2 : v.extractLsb' 8 8 = w.extractLsb' 8 8 := h 2 (by decide)
  have h3 : v.extractLsb' 0 8 = w.extractLsb' 0 8 := h 3 (by decide)
  rw [h0, h1, h2, h3]

theorem getLsbD_lowMask (n : Nat) {j : Nat} (hj : j < 32) :
    (BitVec.ofNat 32 (2 ^ n - 1)).getLsbD j = decide (j < n) := by
  rw [BitVec.getLsbD_ofNat, Nat.testBit_two_pow_sub_one]
  simp [hj]

theorem byteOf_loadLeft (w r : Word) (b : Nat) {k : Nat} (hk : k < 4) :
    byteOf (loadLeft w r b) k = if b + k < 4 then byteOf w (b + k) else byteOf r k := by
  apply BitVec.eq_of_getLsbD_eq
  intro i hi
  rw [getLsbD_byteOf, loadLeft, BitVec.getLsbD_or, BitVec.getLsbD_and, BitVec.getLsbD_shiftLeft,
    getLsbD_lowMask _ (by omega)]
  grind [getLsbD_byteOf]

theorem byteOf_loadRight (w r : Word) {b k : Nat} (hb : b < 4) (hk : k < 4) :
    byteOf (loadRight w r b) k = if 3 ≤ b + k then byteOf w (b + k - 3) else byteOf r k := by
  have hmask : 0xFFFFFFFF#32 = BitVec.allOnes 32 := rfl
  apply BitVec.eq_of_getLsbD_eq
  intro i hi
  simp only [getLsbD_byteOf, loadRight, hmask, BitVec.getLsbD_or, BitVec.getLsbD_and,
    BitVec.getLsbD_not, BitVec.getLsbD_ushiftRight, BitVec.getLsbD_allOnes]
  grind [getLsbD_byteOf]

/-- The bytes of the word of `a`, counted from its base. -/
theorem byteOf_readWord_wordBase (m : Memory) {a x : Word} {k : Nat} (hk : k < 4)
    (hx : x.toNat = a.toNat / 4 * 4 + k) : byteOf (m.readWord (wordBase a)) k = m.byteAt x := by
  have hbase : wordBase x = wordBase a := (wordBase_eq_iff x a).mpr (by omega)
  have hindex : byteIndex x = k := by
    rw [State.byteIndex_eq]
    omega
  rw [byteAt_eq_byteOf m x, hbase, hindex]

theorem byteOf_loadLeft_readWord (m : Memory) (a r : Word) {k : Nat} (hk : k < 4) :
    byteOf (loadLeft (m.readWord (wordBase a)) r (byteIndex a)) k =
      if a.toNat % 4 + k < 4 then m.byteAt (a + BitVec.ofNat 32 k) else byteOf r k := by
  rw [byteOf_loadLeft _ _ _ hk, State.byteIndex_eq]
  split
  · refine byteOf_readWord_wordBase m ‹_› ?_
    rw [BitVec.toNat_add, BitVec.toNat_ofNat]
    omega
  · rfl

theorem byteOf_loadRight_readWord (m : Memory) (a r : Word) {k : Nat} (hk : k < 4) :
    byteOf (loadRight (m.readWord (wordBase a)) r (byteIndex a)) k =
      if 3 ≤ a.toNat % 4 + k then m.byteAt (a - BitVec.ofNat 32 (3 - k)) else byteOf r k := by
  rw [byteOf_loadRight _ _ (byteIndex_lt a) hk, State.byteIndex_eq]
  split
  · refine byteOf_readWord_wordBase m (by omega) ?_
    rw [BitVec.toNat_sub, BitVec.toNat_ofNat]
    omega
  · rfl

/-- Settles O36: the merges of R157 and R158, byte by byte. -/
theorem partialLoadsMergeBytes : Obligations.PartialLoadsMergeBytes := by
  intro s base rt offset addr b loads
  exact ⟨⟨isWordOf_of_encode rfl rfl, accessEnds_part rfl
      ⟨_, s.onlyRegister_setReg rt _, fun _ hk => byteOf_loadLeft_readWord s.mem addr _ hk⟩⟩,
    ⟨isWordOf_of_encode rfl rfl, accessEnds_part rfl
      ⟨_, s.onlyRegister_setReg rt _, fun _ hk => byteOf_loadRight_readWord s.mem addr _ hk⟩⟩⟩

theorem wordBase_wordBase (a : Word) : wordBase (wordBase a) = wordBase a :=
  wordBase_of_aligned ((State.wordAligned_iff _).mp (wordAligned_wordBase a))

theorem byteIndex_wordBase (a : Word) : byteIndex (wordBase a) = 0 := by
  rw [State.byteIndex_eq, toNat_wordBase]
  omega

theorem bytesStored_storeLeft (s : State) (a r : Word) :
    s.BytesStored
      (s.storeWord (wordBase a) (storeLeft (s.mem.readWord (wordBase a)) r (byteIndex a))) a
      (((List.range 4).map (byteOf r)).take (4 - byteIndex a)) := by
  have hb := byteIndex_lt a
  refine s.bytesStored_storeWord (by simp; omega) (fun j hj => ?_) (fun k hk hout => ?_)
  · have hj : byteIndex a + j < 4 := by simp at hj; omega
    rw [byteOf_storeLeft _ _ _ hj, if_pos (by omega)]
    simp
  · rw [byteOf_storeLeft _ _ _ hk, if_neg (by simp at hout; omega)]

theorem bytesStored_storeRight (s : State) (a r : Word) :
    s.BytesStored
      (s.storeWord (wordBase a) (storeRight (s.mem.readWord (wordBase a)) r (byteIndex a)))
      (wordBase a) (((List.range 4).map (byteOf r)).drop (3 - byteIndex a)) := by
  have hb := byteIndex_lt a
  have hstored := s.bytesStored_storeWord (a := wordBase a)
    (v := storeRight (s.mem.readWord (wordBase a)) r (byteIndex a))
    (bytes := ((List.range 4).map (byteOf r)).drop (3 - byteIndex a))
  rw [wordBase_wordBase, byteIndex_wordBase] at hstored
  refine hstored (by simp) (fun j hj => ?_) (fun k hk hout => ?_)
  · have hj : j < 4 - (3 - byteIndex a) := by simpa using hj
    rw [Nat.zero_add, byteOf_storeRight _ _ hb (by omega), if_pos (by omega)]
    simp
  · rw [byteOf_storeRight _ _ hb hk, if_neg (by simp at hout; omega)]

/-- Settles O38: the merges of R162 and R163 replace the addressed part of the word. -/
theorem partialStoresWriteOnlyTheirBytes : Obligations.PartialStoresWriteOnlyTheirBytes := by
  intro s base rt offset addr b bytes stores
  have hindex : b = byteIndex addr := (State.byteIndex_eq addr).symm
  rw [hindex]
  exact ⟨⟨isWordOf_of_encode rfl rfl, accessEnds_part rfl
      (s.onlyStore_storeWord (bytesStored_storeLeft s addr _))⟩,
    ⟨isWordOf_of_encode rfl rfl, accessEnds_part rfl
      (s.onlyStore_storeWord (bytesStored_storeRight s addr _))⟩⟩

/-! ### Two accesses, one after the other -/

namespace State
variable {s t u : State} {d : RegNum} {v w : Word}

/-- Of two writes to one register the second stays. -/
theorem RegWritten.trans (h : s.RegWritten t d v) (h' : t.RegWritten u d w) : s.RegWritten u d w := by
  obtain ⟨hregs, hzero⟩ := h
  obtain ⟨hregs', hzero'⟩ := h'
  refine ⟨fun r => ?_, hzero'.trans hzero⟩
  rw [hregs', hregs]
  split <;> rfl

/-- What is written to register 0 is no matter. -/
theorem RegWritten.of_eq (h : s.RegWritten t d v) (hv : d ≠ 0#5 → v = w) : s.RegWritten t d w := by
  by_cases hd : d = 0#5
  · simpa [RegWritten, hd] using h
  · exact hv hd ▸ h

theorem RegsKept.trans (h : s.RegsKept t) (h' : t.RegsKept u) : s.RegsKept u := by
  obtain ⟨hregs, hzero⟩ := h
  obtain ⟨hregs', hzero'⟩ := h'
  exact ⟨fun r => (hregs' r).trans (hregs r), hzero'.trans hzero⟩

theorem RegWritten.effAddr {base : RegNum} (h : s.RegWritten t d v) (hne : d ≠ base)
    (offset : BitVec 16) : t.effAddr base offset = s.effAddr base offset := by
  obtain ⟨hregs, -⟩ := h
  rw [State.effAddr, hregs, if_neg fun hd => hne hd.1.symm, State.effAddr]

theorem RegsKept.effAddr (h : s.RegsKept t) (base : RegNum) (offset : BitVec 16) :
    t.effAddr base offset = s.effAddr base offset := by
  obtain ⟨hregs, -⟩ := h
  rw [State.effAddr, hregs, State.effAddr]

theorem SystemKept.mapped (h : s.SystemKept t) (a : Word) : t.mapped a = s.mapped a := by
  obtain ⟨-, -, -, -, -, -, hparams⟩ := h
  rw [State.mapped, hparams, State.mapped]

/-- Storing the first `n` bytes of a list, and then those from the `m`th on, stores the list when `m ≤ n`. -/
theorem BytesStored.take_drop {a : Word} {bytes : List Byte} {m n : Nat}
    (hfirst : s.BytesStored t a (bytes.take n))
    (hsecond : t.BytesStored u (a + BitVec.ofNat 32 m) (bytes.drop m))
    (hmn : m ≤ n) (hlen : bytes.length ≤ 2 ^ 32) : s.BytesStored u a bytes := by
  obtain ⟨hin, hout⟩ := hfirst
  obtain ⟨hin', hout'⟩ := hsecond
  rw [List.length_take] at hout
  rw [List.length_drop] at hout'
  simp only [List.length_take, List.length_drop, List.getElem_take, List.getElem_drop] at hin hin'
  refine ⟨fun k hk => ?_, fun x hx => ?_⟩
  · by_cases hmk : m ≤ k
    · have haddr : a + BitVec.ofNat 32 m + BitVec.ofNat 32 (k - m) = a + BitVec.ofNat 32 k := by
        rw [BitVec.add_assoc, ← BitVec.ofNat_add, Nat.add_sub_cancel' hmk]
      rw [← haddr, hin' (k - m) (by omega)]
      congr 1
      omega
    · rw [hout', hin k (by omega)]
      bv_omega
  · rw [hout', hout x (by omega)]
    bv_omega

end State

/-- The bytes that LWL at `a` and LWR at `a + 3` load, one after the other, are those of the word at `a`. -/
theorem eq_readWord_of_partial_bytes {m : Memory} {a r x y : Word}
    (hleft : ∀ k < 4, byteOf x k =
      if a.toNat % 4 + k < 4 then m.byteAt (a + BitVec.ofNat 32 k) else byteOf r k)
    (hright : ∀ k < 4, byteOf y k =
      if 3 ≤ (a + 3#32).toNat % 4 + k then m.byteAt (a + 3#32 - BitVec.ofNat 32 (3 - k))
      else byteOf x k) : y = m.readWord a := by
  refine word_ext_byteOf fun k hk => ?_
  rw [hright k hk, byteOf_readWord m a hk]
  have haddr : a + 3#32 - BitVec.ofNat 32 (3 - k) = a + BitVec.ofNat 32 k := by bv_omega
  rw [haddr, hleft k hk]
  split
  · rfl
  · exact if_pos (by bv_omega)

/-- Settles O40: the partial accesses on either side of the word boundary cover the four bytes. -/
theorem unalignedPairsMoveTheWholeWord : Obligations.UnalignedPairsMoveTheWholeWord := by
  intro s base rt first last a v hlast hmapped hmappedLast
  refine ⟨fun hne => ?_, ?_⟩
  · obtain ⟨⟨-, -, -, hlwl⟩, -⟩ := partialLoadsMergeBytes s base rt first
    obtain ⟨t, ht, x, ⟨hregs, -, hmem, hsystem, -⟩, hx⟩ := hlwl trivial hmapped
    have haddr : t.effAddr base last = a + 3#32 := (hregs.effAddr hne last).trans hlast
    obtain ⟨-, ⟨-, -, -, hlwr⟩⟩ := partialLoadsMergeBytes t base rt last
    rw [haddr, hsystem.mapped] at hlwr
    obtain ⟨u, hu, y, ⟨hregs', -, hmem', -, -⟩, hy⟩ := hlwr trivial hmappedLast
    refine ⟨t, u, ht, hu, (hregs.trans hregs').of_eq fun hrt => ?_,
      fun z => (hmem' z).trans (hmem z)⟩
    have hreg : t.reg rt = x := by
      obtain ⟨hread, -⟩ := hregs
      rw [hread, if_pos ⟨rfl, hrt⟩]
    simp only [hreg, hmem _] at hy
    exact eq_readWord_of_partial_bytes hx hy
  · obtain ⟨⟨-, -, -, hswl⟩, -⟩ := partialStoresWriteOnlyTheirBytes s base rt first
    obtain ⟨t, ht, hstored, hregs, -, hsystem, -⟩ := hswl trivial hmapped
    have haddr : t.effAddr base last = a + 3#32 := (hregs.effAddr base last).trans hlast
    obtain ⟨-, ⟨-, -, -, hswr⟩⟩ := partialStoresWriteOnlyTheirBytes t base rt last
    rw [haddr, hsystem.mapped] at hswr
    obtain ⟨u, hu, hstored', hregs', -, -, -⟩ := hswr trivial hmappedLast
    have hbase : wordBase (a + 3#32) = a + BitVec.ofNat 32 (3 - (a + 3#32).toNat % 4) := by
      apply BitVec.eq_of_toNat_eq
      rw [toNat_wordBase]
      bv_omega
    rw [hbase, hregs.1 rt] at hstored'
    have hmeet : 3 - (a + 3#32).toNat % 4 ≤ 4 - a.toNat % 4 := by bv_omega
    exact ⟨t, u, ht, hu, hstored.take_drop hstored' hmeet (by simp), hregs.trans hregs'⟩

end Sys2Proof.Machine
end

section
/-! SUPPORT. Jumps and branches (spec/42_branch_jump.md R180 to R194): their targets as arithmetic, how a transfer
ends, and the delay slot between it and its target. -/

namespace Sys2Proof.Machine

/-! ### Targets (R182) -/

theorem branchTarget_eq (pc : Word) (offset : BitVec 16) :
    branchTarget pc offset = branchAddress pc offset := by
  have hoffset : BitVec.ofInt 32 (4 * offset.toInt) = sext16 offset <<< 2 := by
    rw [BitVec.ofInt_mul, BitVec.shiftLeft_eq_mul_twoPow, BitVec.mul_comm]
    rfl
  rw [branchAddress, BitVec.ofInt_add, hoffset, BitVec.ofInt_add, BitVec.ofInt_natCast,
    BitVec.ofNat_toNat, BitVec.setWidth_eq]
  rfl

theorem toNat_and_regionMask (a : Word) :
    (a &&& 0xF0000000#32).toNat = a.toNat / 2 ^ 28 * 2 ^ 28 := by
  have hmask : 0xF0000000#32 = BitVec.allOnes 32 <<< 28 := by decide
  rw [hmask, ← BitVec.shiftLeft_ushiftRight, BitVec.toNat_shiftLeft, BitVec.toNat_ushiftRight,
    Nat.shiftRight_eq_div_pow, Nat.shiftLeft_eq]
  omega

theorem toNat_index_shiftLeft (index : BitVec 26) :
    (index.setWidth 32 <<< 2).toNat = 4 * index.toNat := by
  rw [BitVec.toNat_shiftLeft, BitVec.toNat_setWidth, Nat.shiftLeft_eq]
  omega

/-- The region and the index in words have no bit in common, so their `or` is their sum. -/
theorem jumpTarget_eq (pc : Word) (index : BitVec 26) :
    jumpTarget pc index = jumpAddress pc index := by
  apply BitVec.eq_of_toNat_eq
  have hindex : 4 * index.toNat < 2 ^ 28 := by omega
  rw [jumpTarget, jumpAddress, BitVec.toNat_or, toNat_and_regionMask, toNat_index_shiftLeft,
    BitVec.toNat_ofNat, Nat.mul_comm, ← Nat.two_pow_add_eq_or_of_lt hindex]
  omega

/-! ### How a transfer ends (R181) -/

section
variable {s : State} {i : Instr}

/-- An instruction that is the delay-slot check and then `u` ends as `TransferEnds` says. -/
theorem transferEnds_of_outsideDelaySlot {u : State} {done : State → Prop}
    (hexec : exec i s = outsideDelaySlot s (.next u)) (hdone : s.nextPc = s.pc + 4#32 → done u) :
    s.TransferEnds i done :=
  ⟨fun hslot => hexec.trans ((outsideDelaySlot_fault ..).mpr ⟨hslot, rfl⟩),
    fun hseq => ⟨u, hexec.trans ((outsideDelaySlot_next ..).mpr ⟨hseq, rfl⟩), hdone hseq⟩⟩

/-- Outside a delay slot a branch goes to its target or to the word after its own delay slot. -/
theorem branchIf_address {c : Bool} {p : Prop} [Decidable p] (hc : c = true ↔ p) (offset : BitVec 16)
    (hseq : s.nextPc = s.pc + 4#32) :
    (if c then branchTarget s.pc offset else s.nextPc + 4#32) =
      if p then branchAddress s.pc offset else s.pc + 8#32 := by
  rw [hseq, BitVec.add_assoc, branchTarget_eq]
  exact if_congr hc rfl rfl

section
variable {c : Bool} {offset : BitVec 16} {p : Prop} [Decidable p]

/-- A branch on `c` is taken as `c` says, and moves nothing but the program counters. -/
theorem transferEnds_branchIf
    (hexec : exec i s = outsideDelaySlot s (.next (s.branchIf c (branchTarget s.pc offset))))
    (hc : c = true ↔ p) : s.TransferEnds i (fun t =>
      s.OnlyTransfer t (if p then branchAddress s.pc offset else s.pc + 8#32)) :=
  transferEnds_of_outsideDelaySlot hexec fun hseq =>
    branchIf_address hc offset hseq ▸ s.onlyTransfer_branchIf c _

/-- A branch on `c` that links does so whatever `c` says. -/
theorem transferEnds_link_branchIf {d : RegNum}
    (hexec : exec i s = outsideDelaySlot s
      (.next ((s.setReg d (linkAddr s.pc)).branchIf c (branchTarget s.pc offset))))
    (hc : c = true ↔ p) : s.TransferEnds i (fun t =>
      s.OnlyLink t d (if p then branchAddress s.pc offset else s.pc + 8#32)) :=
  transferEnds_of_outsideDelaySlot hexec fun hseq =>
    branchIf_address hc offset hseq ▸ s.onlyLink_branchIf c d _

end

end

/-! ### Each transfer -/

/-- Settles O41: the `or` of region and index is their sum. -/
theorem jumpsTransferWithinTheRegion : Obligations.JumpsTransferWithinTheRegion := by
  intro s index
  rw [← jumpTarget_eq]
  exact ⟨⟨isWordOf_of_encode rfl rfl,
      transferEnds_of_outsideDelaySlot rfl fun _ => s.onlyTransfer_transfer _⟩,
    ⟨isWordOf_of_encode rfl rfl,
      transferEnds_of_outsideDelaySlot rfl fun _ => s.onlyLink_transfer _ _⟩⟩

/-- Settles O42: the target is read from the state before the link is written. -/
theorem registerJumpsUseTheOldValue : Obligations.RegisterJumpsUseTheOldValue := fun s _ rd =>
  ⟨⟨isWordOf_of_encode rfl rfl,
      transferEnds_of_outsideDelaySlot rfl fun _ => s.onlyTransfer_transfer _⟩,
    ⟨isWordOf_of_encode rfl rfl,
      transferEnds_of_outsideDelaySlot rfl fun _ => s.onlyLink_transfer rd _⟩⟩

/-- Settles O43: BNE is the branch on the negation of BEQ's condition. -/
theorem equalityBranchesTakeOrFallThrough : Obligations.EqualityBranchesTakeOrFallThrough := by
  intro s rs rt offset
  refine ⟨⟨isWordOf_of_encode rfl rfl, transferEnds_branchIf rfl beq_iff_eq⟩,
    ⟨isWordOf_of_encode rfl rfl, ?_⟩⟩
  simp only [← ite_not (s.reg rs = s.reg rt) (branchAddress s.pc offset)]
  exact transferEnds_branchIf rfl bne_iff_ne

/-- The sign bit of a word is set exactly where its signed value is below zero (00_scope.md R12). -/
theorem getLsbD_31_iff (v : Word) : v.getLsbD 31 = true ↔ v.toInt < 0 := by
  rw [← decide_eq_true_iff (p := v.toInt < 0), ← BitVec.msb_eq_toInt, BitVec.msb_eq_getLsbD_last]

/-- Settles O44: the conditions are on the signed value, for BLTZ and BGEZ seen in the sign bit; the rows of BLEZ and
BGTZ fix `rt`. -/
theorem zeroBranchesCompareSigned : Obligations.ZeroBranchesCompareSigned := by
  intro s rs other offset x goes
  refine ⟨⟨isWordOf_of_encode rfl rfl, transferEnds_branchIf rfl Iff.rfl⟩,
    ⟨isWordOf_of_encode rfl rfl, transferEnds_branchIf rfl Iff.rfl⟩,
    ⟨isWordOf_of_encode rfl rfl, transferEnds_branchIf rfl ?_⟩,
    ⟨isWordOf_of_encode rfl rfl, transferEnds_branchIf rfl ?_⟩, fun hother => ⟨?_, ?_⟩⟩
  · rw [decide_eq_true_iff, getLsbD_31_iff]
  · rw [decide_eq_true_iff, Bool.not_eq_true', Bool.eq_false_iff, Ne, getLsbD_31_iff, Int.not_lt]
  · exact decodeWord_eq_none_of_cell (start := 16) (op := 0x06#6) (cells := (· ≠ 0#5)) (by decide)
      (opField_iType ..) (ne_of_eq_of_ne (rtField_iType ..) hother)
  · exact decodeWord_eq_none_of_cell (start := 16) (op := 0x07#6) (cells := (· ≠ 0#5)) (by decide)
      (opField_iType ..) (ne_of_eq_of_ne (rtField_iType ..) hother)

/-- Settles O45: the condition is read from the state before the link is written. -/
theorem linkBranchesLinkAlways : Obligations.LinkBranchesLinkAlways := fun _ _ _ =>
  ⟨⟨isWordOf_of_encode rfl rfl, transferEnds_link_branchIf rfl decide_eq_true_iff⟩,
    ⟨isWordOf_of_encode rfl rfl, transferEnds_link_branchIf rfl decide_eq_true_iff⟩⟩

/-! ### The delay slot (R180) -/

section
variable {s u : State} {i : Instr}

/-- Every instruction leaves control where the one before it said. -/
theorem exec_next_pc (h : exec i s = .next u) : u.pc = s.nextPc := by
  cases exec_shape h <;> (subst u; simp)

/-- Every instruction but a branch or jump goes on sequentially (10_state.md R27). -/
theorem exec_next_nextPc (h : exec i s = .next u) (hi : i.isBranch = false) :
    u.nextPc = s.nextPc + 4#32 := by
  cases exec_shape h with
  | transfer d v target hb => exact absurd hb (Bool.eq_false_iff.mp hi)
  | plain h | register d v h | hiLo hi lo h | store a v ha h | storeRegister a v d w ha h
  | layer code hi h => subst h; simp

/-- A branch or jump is the delay-slot check and then some state. -/
theorem exec_eq_outsideDelaySlot (s : State) (hi : i.isBranch = true) :
    ∃ u, exec i s = outsideDelaySlot s (.next u) := by
  cases i
  case j | jal | jr | jalr | beq | bne | blez | bgtz | bltz | bgez | bltzal | bgezal => exact ⟨_, rfl⟩
  all_goals cases hi

end

/-- Settles O24: a branch that goes on stands outside a delay slot, so the word at `B + 4` is next; the
instruction there leaves control at the target, or is a branch and meets the check. -/
theorem delaySlotRunsBeforeTheTarget : Obligations.DelaySlotRunsBeforeTheTarget := by
  intro s t i j hexecutes hbranch hstep
  obtain ⟨t, hexec, rfl⟩ := hexecutes.step_next hstep
  obtain ⟨_, hcheck⟩ := exec_eq_outsideDelaySlot s hbranch
  obtain ⟨hseq, -⟩ := (outsideDelaySlot_next ..).mp (hcheck.symm.trans hexec)
  have hpc : t.tick.pc = s.pc + 4#32 := (exec_next_pc hexec).trans hseq
  refine ⟨hpc, fun hslot => ⟨fun hj u hu => ?_, fun hj hne => ?_⟩⟩
  · obtain ⟨u, hexecSlot, rfl⟩ := hslot.step_next hu
    rw [u.tick_pc, u.tick_nextPc]
    exact ⟨exec_next_pc hexecSlot, exec_next_nextPc hexecSlot hj⟩
  · obtain ⟨_, hcheckSlot⟩ := exec_eq_outsideDelaySlot t.tick hj
    rw [hslot.step_eq, hcheckSlot, commit_fault, outsideDelaySlot_fault, hpc]
    exact ⟨hpc ▸ hne, rfl⟩

end Sys2Proof.Machine
end

section
/-! SUPPORT. Multiply and the moves of HI and LO (spec/43_muldiv.md R210 to R218): how an instruction that writes the
pair ends, and the two words of a product put together again. -/

namespace Sys2Proof.Machine

/-! ### How these instructions end (R210) -/

/-- An instruction that ends by writing HI and LO writes them and nothing else. -/
theorem exec_onlyHiLo {s : State} {i : Instr} {hi lo : Word}
    (hexec : exec i s = .next (s.writeHiLo hi lo).advance) :
    ∃ t, exec i s = .next t ∧ s.OnlyHiLo t hi lo :=
  ⟨_, hexec, s.onlyHiLo_writeHiLo hi lo⟩

/-- Settles O48: each move writes one register, or the pair with the old value in the other half. -/
theorem hiLoMovesTouchOneRegister : Obligations.HiLoMovesTouchOneRegister := fun _ _ =>
  ⟨⟨isWordOf_of_encode rfl rfl, exec_onlyRegister rfl rfl⟩,
    ⟨isWordOf_of_encode rfl rfl, exec_onlyRegister rfl rfl⟩,
    ⟨isWordOf_of_encode rfl rfl, exec_onlyHiLo rfl⟩,
    ⟨isWordOf_of_encode rfl rfl, exec_onlyHiLo rfl⟩⟩

/-! ### The two words of a product (R211, R212) -/

/-- The upper word, signed, and the lower word of an integer that fits in 64 bits are that integer. -/
theorem toInt_upper_append_lower {p : Int} (hmin : -2 ^ 63 ≤ p) (hmax : p < 2 ^ 63) :
    (BitVec.ofInt 32 (p.fdiv (2 ^ 32)) ++ BitVec.ofInt 32 p).toInt = p := by
  have hupper : (BitVec.ofInt 32 (p.fdiv (2 ^ 32))).toInt = p / 2 ^ 32 := by
    rw [Int.fdiv_eq_ediv_of_nonneg _ (by decide)]
    exact BitVec.toInt_ofInt_eq_self (by decide) (by omega) (by omega)
  have hlower : ((BitVec.ofInt 32 p).toNat : Int) = p % 2 ^ 32 := by
    rw [BitVec.toNat_ofInt]
    exact Int.toNat_of_nonneg (Int.emod_nonneg _ (by decide))
  rw [BitVec.toInt_append, hupper, hlower]
  exact Int.mul_ediv_add_emod p (2 ^ 32)

/-- The upper and lower word of a number below `2 ^ 64` are that number. -/
theorem toNat_upper_append_lower {p : Nat} (hmax : p < 2 ^ 64) :
    (BitVec.ofNat 32 (p / 2 ^ 32) ++ BitVec.ofNat 32 p).toNat = p := by
  have hupper : (BitVec.ofNat 32 (p / 2 ^ 32)).toNat = p / 2 ^ 32 :=
    (BitVec.toNat_ofNat ..).trans (Nat.mod_eq_of_lt (by omega))
  rw [BitVec.toNat_append, ← Nat.shiftLeft_add_eq_or_of_lt (BitVec.isLt _), Nat.shiftLeft_eq, hupper,
    BitVec.toNat_ofNat]
  exact Nat.div_add_mod' p (2 ^ 32)

/-- Settles O46: a product of two words, signed or unsigned, fits in 64 bits, so its two words lose nothing. -/
theorem multiplyGivesTheExactProduct : Obligations.MultiplyGivesTheExactProduct := by
  intro s rs rt
  refine ⟨⟨isWordOf_of_encode rfl rfl, _, _, _, rfl, s.onlyHiLo_writeHiLo _ _, ?_⟩,
    ⟨isWordOf_of_encode rfl rfl, _, _, _, rfl, s.onlyHiLo_writeHiLo _ _, ?_⟩⟩
  · have hmin : -2 ^ 62 ≤ (s.reg rs).toInt * (s.reg rt).toInt := BitVec.le_toInt_mul_toInt
    have hmax : (s.reg rs).toInt * (s.reg rt).toInt ≤ 2 ^ 62 := BitVec.toInt_mul_toInt_le
    exact toInt_upper_append_lower (by omega) (by omega)
  · exact toNat_upper_append_lower BitVec.toNat_mul_toNat_lt

end Sys2Proof.Machine
end

section
/-! SUPPORT. Fatal errors and the step (spec/60_exceptions.md R240 to R256, R282): which answers are fatal, with which
cause, for each shared check, each instruction and the whole step. -/

namespace Sys2Proof.Machine

/-! ### Answers that are fatal with exactly the listed causes -/

/-- The answer `r` is fatal with exactly the causes that `raises` lists, and is never a refusal. -/
structure FatalExactly (r : Result) (raises : Fault → Prop) : Prop where
  fault_iff : ∀ f, r = .fault f ↔ raises f
  not_refused : ∀ why, r ≠ .refused why

section
variable {r : Result} {p : Prop} {cause : Fault} {raises raises' : Fault → Prop}

theorem fatalExactly_of_next {t : State} (h : r = .next t) : FatalExactly r fun _ => False := by
  subst h
  exact ⟨fun _ => iff_of_false nofun id, nofun⟩

theorem fatalExactly_of_fault (h : r = .fault cause) : FatalExactly r fun f => f = cause := by
  subst h
  exact ⟨fun _ => by rw [Host.Outcome.fault.injEq, eq_comm], nofun⟩

theorem FatalExactly.congr (h : FatalExactly r raises) (hiff : ∀ f, raises f ↔ raises' f) :
    FatalExactly r raises' :=
  ⟨fun f => (h.fault_iff f).trans (hiff f), h.not_refused⟩

/-- One check `p`: past it a next state, and before it one cause. -/
theorem fatalExactly_of_check (hpass : p → ∃ t, r = .next t) (hfail : ¬p → r = .fault cause) :
    FatalExactly r fun f => ¬p ∧ f = cause := by
  by_cases h : p
  · obtain ⟨t, ht⟩ := hpass h
    exact (fatalExactly_of_next ht).congr fun f => by simp [h]
  · exact (fatalExactly_of_fault (hfail h)).congr fun f => by simp [h]

/-- Committing raises nothing and hides nothing (R241 (5)). -/
theorem FatalExactly.commit (h : FatalExactly r raises) : FatalExactly (commit r) raises :=
  ⟨fun f => (commit_fault r f).trans (h.fault_iff f),
    fun why hr => h.not_refused why ((commit_refused r why).mp hr)⟩

/-- An answer that is neither fatal nor refused is a next state. -/
theorem FatalExactly.next (h : FatalExactly r raises) (hno : ∀ f, ¬raises f) : ∃ t, r = .next t := by
  cases hr : r with
  | next t => exact ⟨t, rfl⟩
  | fault f => exact absurd ((h.fault_iff f).mp hr) (hno f)
  | refused why => exact absurd hr (h.not_refused why)

end

/-! ### The shared checks -/

section
variable {s : State} {i : Instr} {a : Word} {aligned : Prop} {done : State → Prop}

/-- One data access: alignment is checked before mapping (R248, R254). -/
theorem State.AccessEnds.fatalExactly (h : s.AccessEnds i a aligned done) :
    FatalExactly (exec i s) fun f =>
      (¬aligned ∧ f = .addressMisaligned a) ∨
      (aligned ∧ s.mapped (wordBase a) = false ∧ f = .addressUnmapped a) := by
  obtain ⟨hmisaligned, hunmapped, hdone⟩ := h
  by_cases hal : aligned
  · cases hmap : s.mapped (wordBase a) with
    | false => exact (fatalExactly_of_fault (hunmapped hal hmap)).congr fun f => by simp [hal]
    | true =>
      obtain ⟨t, ht, -⟩ := hdone hal hmap
      exact (fatalExactly_of_next ht).congr fun f => by simp [hal]
  · exact (fatalExactly_of_fault (hmisaligned hal)).congr fun f => by simp [hal]

/-- A data access at any address can only meet an unmapped word (20_memory.md R56). -/
theorem State.AccessEnds.fatalExactly_unmapped (h : s.AccessEnds i a True done) :
    FatalExactly (exec i s) fun f => s.mapped (wordBase a) = false ∧ f = .addressUnmapped a :=
  h.fatalExactly.congr fun f => by simp

/-- A jump or branch raises nothing but the delay-slot error (R249). -/
theorem fatalExactly_of_isBranch (s : State) (hi : i.isBranch = true) :
    FatalExactly (exec i s) fun f => s.nextPc ≠ s.pc + 4#32 ∧ f = .branchInDelaySlot s.pc := by
  obtain ⟨u, hu⟩ := exec_eq_outsideDelaySlot s hi
  rw [hu]
  exact ⟨outsideDelaySlot_fault s u, outsideDelaySlot_refused s u⟩

/-- An instruction that checks its exact result raises nothing but the overflow (R251). -/
theorem fatalExactly_of_writeUnlessOverflow {d : RegNum} {x x' : Int}
    (hexec : exec i s = writeUnlessOverflow s i d x) (hx : x = x') :
    FatalExactly (exec i s) fun f =>
      ¬(-2 ^ 31 ≤ x' ∧ x' < 2 ^ 31) ∧ f = .integerOverflow (encode i) := by
  obtain ⟨hfits, hover⟩ := exec_writeUnlessOverflow_ends hexec hx
  refine fatalExactly_of_check (fun h => ?_) fun h => hover (by omega)
  obtain ⟨t, ht, -⟩ := hfits (by omega)
  exact ⟨t, ht⟩

/-- A division raises nothing but the zero divisor (R252). -/
theorem fatalExactly_of_zeroCheck {v : Word} {cause : Fault} {t : State}
    (hexec : exec i s = if v = 0#32 then raise cause else .next t) :
    FatalExactly (exec i s) fun f => v = 0#32 ∧ f = cause :=
  (fatalExactly_of_check (p := v ≠ 0#32) (fun h => ⟨t, hexec.trans (if_neg h)⟩)
    fun h => hexec.trans (if_pos (not_not.mp h))).congr fun f => by rw [not_not]

end

/-! ### The words a call needs (R282) -/

/-- The shortcut for a platform with no unmapped stretch finds what the search would: nothing (log 3). -/
theorem State.firstUnmapped_eq_find (s : State) (addrs : List Word) :
    s.firstUnmapped addrs = addrs.find? fun a => !s.mapped (wordBase a) := by
  unfold State.firstUnmapped
  split
  · rename_i hempty
    exact (List.find?_eq_none.mpr fun a _ => by
      simp [s.mapped_default _ (List.isEmpty_iff.mp hempty)]).symm
  · rfl

theorem State.firstUnmapped_byteAddrs (s : State) (a x : Word) (n : Nat) :
    s.firstUnmapped (byteAddrs a n) = some x ↔
      ∃ k < n, (∀ j < k, s.mapped (wordBase (a + BitVec.ofNat 32 j)) = true) ∧
        s.mapped (wordBase (a + BitVec.ofNat 32 k)) = false ∧ x = a + BitVec.ofNat 32 k := by
  rw [s.firstUnmapped_eq_find, byteAddrs, List.find?_map, Option.map_eq_some_iff]
  refine exists_congr fun k => ?_
  simp only [List.find?_range_eq_some, Function.comp_apply, List.mem_range, Bool.not_not,
    Bool.not_eq_true', eq_comm (a := x)]
  tauto

section
variable {s : State} (code : BitVec 20)

theorem exec_syscall_of_firstUnmapped_none (h : s.firstUnmapped s.syscallBytes = none) :
    exec (.syscall code) s = .next (s.apply s.syscallResponse).advance := by
  simp only [exec, execSyscall, h]

theorem exec_syscall_of_firstUnmapped_some {x : Word} (h : s.firstUnmapped s.syscallBytes = some x) :
    exec (.syscall code) s = .fault (.addressUnmapped x) := by
  simp only [exec, execSyscall, h, raise_eq]

/-- A call all of whose bytes are mapped commits the layer's answer (44_system.md R230). -/
theorem exec_syscall_of_mapped
    (h : ∀ k < bufferLength s (s.reg 5#5) (s.reg 6#5) s.service,
      s.mapped (wordBase (s.reg 5#5 + BitVec.ofNat 32 k)) = true) :
    exec (.syscall code) s = .next (s.apply s.syscallResponse).advance := by
  refine exec_syscall_of_firstUnmapped_none code ((s.firstUnmapped_none _).mpr fun x hx => ?_)
  obtain ⟨k, hk, rfl⟩ := (mem_byteAddrs ..).mp hx
  exact h k hk

end

/-- A call is fatal exactly at the first of its bytes whose word is not mapped. -/
theorem fatalExactly_syscall (code : BitVec 20) (s : State) :
    FatalExactly (exec (.syscall code) s) fun f => s.Raises (encode (.syscall code)) f (.syscall code) := by
  have hfirst : FatalExactly (exec (.syscall code) s) fun f =>
      ∃ x, s.firstUnmapped s.syscallBytes = some x ∧ f = .addressUnmapped x := by
    cases h : s.firstUnmapped s.syscallBytes with
    | none =>
      exact (fatalExactly_of_next (exec_syscall_of_firstUnmapped_none code h)).congr fun f => by simp
    | some x =>
      exact (fatalExactly_of_fault (exec_syscall_of_firstUnmapped_some code h)).congr fun f => by simp
  refine hfirst.congr fun f => ?_
  simp only [State.syscallBytes, s.firstUnmapped_byteAddrs]
  constructor
  · rintro ⟨_, ⟨k, hk, hbefore, hunmapped, rfl⟩, rfl⟩
    exact ⟨k, hk, hbefore, hunmapped, rfl⟩
  · rintro ⟨k, hk, hbefore, hunmapped, rfl⟩
    exact ⟨_, ⟨k, hk, hbefore, hunmapped, rfl⟩, rfl⟩

/-! ### Every instruction -/

/-- The raises of each instruction are those of R254 (5), with the word of the instruction as their `info`. -/
theorem exec_fatalExactly (s : State) {i : Instr} (hwf : i.wellFormed = true) :
    FatalExactly (exec i s) fun f => s.Raises (encode i) f i := by
  cases i
  case add | sub => exact fatalExactly_of_writeUnlessOverflow rfl rfl
  case addi =>
    refine fatalExactly_of_writeUnlessOverflow rfl ?_
    rw [signedSum, toInt_sext16]
  case div | divu => exact fatalExactly_of_zeroCheck rfl
  case lw | ll =>
    exact (accessEnds_of_checked (done := fun _ => True) rfl (s.memRead4_eq_checked _)
      (State.wordAligned_iff _) fun _ => trivial).fatalExactly
  case sw | sc =>
    exact (accessEnds_of_checked (done := fun _ => True) rfl (s.memWrite4_eq_checked _ _)
      (State.wordAligned_iff _) fun _ => trivial).fatalExactly
  case lh | lhu =>
    exact (accessEnds_of_checked (done := fun _ => True) rfl (s.memRead2_eq_checked _)
      (State.halfAligned_iff _) fun _ => trivial).fatalExactly
  case sh =>
    exact (accessEnds_of_checked (done := fun _ => True) rfl (s.memWrite2_eq_checked _ _)
      (State.halfAligned_iff _) fun _ => trivial).fatalExactly
  case lb | lbu =>
    exact (accessEnds_of_checked (done := fun _ => True) rfl (s.memRead1_eq_checked _)
      (iff_of_true rfl trivial) fun _ => trivial).fatalExactly_unmapped
  case sb =>
    exact (accessEnds_of_checked (done := fun _ => True) rfl (s.memWrite1_eq_checked _ _)
      (iff_of_true rfl trivial) fun _ => trivial).fatalExactly_unmapped
  case lwl | lwr | swl | swr =>
    exact (accessEnds_part (done := fun _ => True) rfl trivial).fatalExactly_unmapped
  case j | jal | jr | jalr | beq | bne | blez | bgtz | bltz | bgez | bltzal | bgezal =>
    exact fatalExactly_of_isBranch s rfl
  case syscall code => exact fatalExactly_syscall code s
  case clz | clo => exact fatalExactly_of_next (if_pos (beq_iff_eq.mp hwf))
  case movz rs rt rd =>
    by_cases hzero : s.reg rt = 0#32
    · exact fatalExactly_of_next (if_pos hzero)
    · exact fatalExactly_of_next (if_neg hzero)
  case movn rs rt rd =>
    by_cases hzero : s.reg rt = 0#32
    · exact fatalExactly_of_next (if_neg (not_not.mpr hzero))
    · exact fatalExactly_of_next (if_pos hzero)
  case addu | subu | and | or | xor | nor | slt | sltu | addiu | slti | sltiu | andi | ori | xori | lui
      | sll | srl | sra | sllv | srlv | srav | mult | multu | mfhi | mflo | mthi | mtlo | mul | sync =>
    exact fatalExactly_of_next rfl

/-! ### The step -/

section
variable {s : State}

/-- An exited machine answers itself (R242). -/
theorem step_of_exited (h : s.exited = true) : step s = .next s := if_pos h

theorem step_of_fetch_error {f : Fault} (hrunning : s.exited = false) (hfetch : s.fetch = .error f) :
    step s = .fault f := by
  simp [step, hrunning, hfetch]

theorem step_of_unsupported {insn : Word} (hrunning : s.exited = false) (hfetch : s.fetch = .ok insn)
    (hdecode : decodeWord insn = none) : step s = .fault (.unsupportedInstruction insn) := by
  simp [step, hrunning, hfetch, hdecode]

end

/-- The table of R253 in the order of R254: fetch, decode, execute. -/
theorem step_fatalExactly (s : State) : FatalExactly (step s) s.StepRaises := by
  by_cases hexited : s.exited = true
  · exact (fatalExactly_of_next (step_of_exited hexited)).congr fun f => by
      simp [State.StepRaises, hexited]
  have hrunning : s.exited = false := Bool.eq_false_iff.mpr hexited
  have haligned := State.wordAligned_iff s.pc
  by_cases hal : s.pc.toNat % 4 = 0
  · cases hmap : s.mapped s.pc with
    | false =>
      have hfetch := (s.fetch_error _).mpr (.inr ⟨haligned.mpr hal, hmap, rfl⟩)
      exact (fatalExactly_of_fault (step_of_fetch_error hrunning hfetch)).congr fun f => by
        simp [State.StepRaises, hrunning, hal, hmap]
    | true =>
      have hfetch := (s.fetch_ok _).mpr ⟨haligned.mpr hal, hmap, rfl⟩
      cases hdecode : decodeWord (s.mem.readWord s.pc) with
      | none =>
        exact (fatalExactly_of_fault (step_of_unsupported hrunning hfetch hdecode)).congr fun f => by
          simp [State.StepRaises, hrunning, hal, hmap, hdecode]
      | some i =>
        obtain ⟨hwf, hencode⟩ := decodedWordEncodesBack _ _ hdecode
        have hexecutes : s.Executes i := ⟨hrunning, _, hfetch, hdecode⟩
        rw [hexecutes.step_eq]
        exact (exec_fatalExactly s hwf).commit.congr fun f => by
          simp [State.StepRaises, hrunning, hal, hmap, hdecode, hencode]
  · have hmisaligned : wordAligned s.pc = false := Bool.eq_false_iff.mpr (mt haligned.mp hal)
    have hfetch := (s.fetch_error _).mpr (.inl ⟨hmisaligned, rfl⟩)
    exact (fatalExactly_of_fault (step_of_fetch_error hrunning hfetch)).congr fun f => by
      simp [State.StepRaises, hrunning, hal]

/-- Settles O23: a step is fatal exactly with the table's causes and is never refused, so any other step answers a
state. -/
theorem fatalErrorsAreExactlyTheTable : Obligations.FatalErrorsAreExactlyTheTable := by
  intro s
  have hfatal := step_fatalExactly s
  exact ⟨hfatal.fault_iff, hfatal.next, hfatal.not_refused⟩

/-- The bytes at `pc` are put together to the word that is fetched (30_encoding.md R80). -/
theorem decodeWord_of_decodeBytes {b0 b1 b2 b3 : Byte} {rest rest' : List Byte} {i : Instr}
    (h : decodeBytes (b0 :: b1 :: b2 :: b3 :: rest) = .ok (i, rest')) :
    decodeWord (wordOfBytes b0 b1 b2 b3) = some i := by
  simp only [decodeBytes] at h
  split at h
  · rename_i i' hdecode
    cases h
    exact hdecode
  · cases h

/-- No instruction moves the step counter; the commit does (R241 (5)). -/
theorem exec_next_stepCount {i : Instr} {s t : State} (h : exec i s = .next t) :
    t.stepCount = s.stepCount := by
  cases exec_shape h <;> (subst t; simp)

/-- Settles O21: the four bytes at `pc` are the fetched word, and the step commits what `exec` answers. -/
theorem stepRunsTheDecodedInstruction : Obligations.StepRunsTheDecodedInstruction := by
  intro s i hrunning haligned hmapped hbytes
  have hfetch := (s.fetch_ok _).mpr ⟨(State.wordAligned_iff _).mpr haligned, hmapped, rfl⟩
  have hexecutes : s.Executes i := ⟨hrunning, _, hfetch, decodeWord_of_decodeBytes hbytes⟩
  refine ⟨hexecutes, fun t ht => ?_, fun f hf => ?_⟩
  · rw [hexecutes.step_eq, ht, ← exec_next_stepCount ht]
    rfl
  · rw [hexecutes.step_eq, hf]
    rfl

/-- Settles O22: the state after a fault is the state before, whose step is the same. -/
theorem exitedAndFatalStepsChangeNothing : Obligations.ExitedAndFatalStepsChangeNothing := by
  refine fun s => ⟨step_of_exited, fun f hf => ?_⟩
  have hafter : s.after = s := by
    unfold State.after
    rw [hf]
  exact ⟨hafter, hafter.symm ▸ hf⟩

end Sys2Proof.Machine
end

section
/-! SUPPORT. The Syscall Layer (spec/60_exceptions.md R270 to R283): the service a call gets on a platform that meets
R9, and what the services that move no byte of memory, and the hint write, leave. -/

namespace Sys2Proof.Machine

/-! ### Dispatch (R270, R275, R276) -/

section
variable {p : Params} (a0 : Word)

theorem serviceOf_sysBrk : serviceOf p p.sysBrk a0 = .brk := if_pos rfl

theorem serviceOf_unrecognized {n : Word} (h : n ∉ p.syscallNumbers) :
    serviceOf p n a0 = .unrecognized := by
  simp only [Params.syscallNumbers, List.mem_cons, List.not_mem_nil, or_false, not_or] at h
  simp [serviceOf, h]

/-- With the numbers pairwise distinct (R9) each of them gets its own service. -/
theorem serviceOf_of_nodup (h : p.syscallNumbers.Nodup) :
    serviceOf p p.sysExit a0 = .exit ∧ serviceOf p p.sysFcntl a0 = .fcntl ∧
    serviceOf p p.sysRead a0 = readService p a0 ∧ serviceOf p p.sysWrite a0 = writeService p a0 := by
  simp only [Params.syscallNumbers, List.nodup_cons, List.mem_cons, List.not_mem_nil, or_false,
    not_or] at h
  simp [serviceOf, h, eq_comm]

end

/-- The service of a call on a platform that meets R9. -/
theorem State.service_of_valid {s : State} (h : s.params.Valid) :
    (s.reg 2#5 = s.params.sysExit → s.service = .exit) ∧
    (s.reg 2#5 = s.params.sysFcntl → s.service = .fcntl) ∧
    (s.reg 2#5 = s.params.sysRead → s.service = readService s.params (s.reg 4#5)) ∧
    (s.reg 2#5 = s.params.sysWrite → s.service = writeService s.params (s.reg 4#5)) := by
  obtain ⟨-, -, hnodup, -, -⟩ := h
  obtain ⟨hexit, hfcntl, hread, hwrite⟩ := serviceOf_of_nodup (s.reg 4#5) hnodup
  rw [State.service]
  exact ⟨fun hn => hn ▸ hexit, fun hn => hn ▸ hfcntl, fun hn => hn ▸ hread, fun hn => hn ▸ hwrite⟩

section
variable {p : Params} {fd : Word}

theorem readService_fdStdin (h : p.descriptors.Nodup) : readService p p.fdStdin = .readStdin := by
  have hfirst : p.fdStdin ≠ p.fdHintRead ∧ p.fdStdin ≠ p.fdPreimageRead := by
    grind [Params.descriptors]
  rw [readService, if_neg hfirst.1, if_neg hfirst.2, if_pos rfl]

theorem readService_other (h : fd ∉ [p.fdHintRead, p.fdPreimageRead, p.fdStdin]) :
    readService p fd = .readOther := by
  simp only [List.mem_cons, List.not_mem_nil, or_false, not_or] at h
  simp [readService, h]

theorem writeService_std (h : p.descriptors.Nodup) (hfd : fd ∈ [p.fdStdout, p.fdStderr]) :
    writeService p fd = .writeStd := by
  have hfirst : fd ≠ p.fdHintWrite ∧ fd ≠ p.fdPreimageWrite := by grind [Params.descriptors]
  rw [writeService, if_neg hfirst.1, if_neg hfirst.2, if_pos (by simpa using hfd)]

theorem writeService_other
    (h : fd ∉ [p.fdHintWrite, p.fdPreimageWrite, p.fdStdout, p.fdStderr]) :
    writeService p fd = .writeOther := by
  simp only [List.mem_cons, List.not_mem_nil, or_false, not_or] at h
  simp [writeService, h]

end

/-! ### Descriptor control (R274) -/

section
variable {s : State} {fd cmd : Word}

theorem fcntlService_badCommand (h : cmd ≠ s.params.fGetfl) :
    fcntlService s fd cmd = .ret 0xFFFFFFFF#32 s.params.einval s.noEffect := if_pos h

theorem fcntlService_readable
    (h : fd ∈ [s.params.fdStdin, s.params.fdPreimageRead, s.params.fdHintRead]) :
    fcntlService s fd s.params.fGetfl = .ret 0#32 0#32 s.noEffect := by
  simp only [List.mem_cons, List.not_mem_nil, or_false] at h
  simp [fcntlService, h, succeedWith]

/-- A descriptor that can be written is none that can be read (R9), which the service tests first. -/
theorem fcntlService_writable (hnodup : s.params.descriptors.Nodup)
    (h : fd ∈ [s.params.fdStdout, s.params.fdStderr, s.params.fdPreimageWrite, s.params.fdHintWrite]) :
    fcntlService s fd s.params.fGetfl = .ret 1#32 0#32 s.noEffect := by
  have hread : fd ∉ [s.params.fdStdin, s.params.fdPreimageRead, s.params.fdHintRead] := by
    grind [Params.descriptors]
  simp only [List.mem_cons, List.not_mem_nil, or_false] at h hread
  simp [fcntlService, h, hread, succeedWith]

theorem fcntlService_badDescriptor (h : fd ∉ s.params.descriptors) :
    fcntlService s fd s.params.fGetfl = .ret 0xFFFFFFFF#32 s.params.ebadf s.noEffect := by
  simp only [Params.descriptors, List.mem_cons, List.not_mem_nil, or_false, not_or] at h
  simp [fcntlService, h, failWith]

end

/-! ### Calls that need no byte of memory -/

/-- Such a call is not fatal, and commits what its service answers (R230). -/
theorem exec_syscall_of_noBytes {s : State} {service : Service} (hservice : s.service = service)
    (hbytes : bufferLength s (s.reg 5#5) (s.reg 6#5) service = 0) (code : BitVec 20) :
    exec (.syscall code) s =
      .next (s.apply (respond s (s.reg 4#5) (s.reg 5#5) (s.reg 6#5) service)).advance := by
  subst hservice
  exact exec_syscall_of_mapped code fun k hk => absurd hk (by omega)

/-- Such a call whose answer has no further effect only returns. -/
theorem exec_syscall_onlyReturned {s : State} {service : Service} {v0 a3 : Word}
    (hservice : s.service = service)
    (hbytes : bufferLength s (s.reg 5#5) (s.reg 6#5) service = 0)
    (hanswer : respond s (s.reg 4#5) (s.reg 5#5) (s.reg 6#5) service = .ret v0 a3 s.noEffect)
    (code : BitVec 20) :
    ∃ t, exec (.syscall code) s = .next t ∧ s.OnlyReturned t v0 a3 :=
  ⟨_, exec_syscall_of_noBytes hservice hbytes code, hanswer ▸ s.onlyReturned_apply v0 a3⟩

/-- Settles O52: both services answer without a further effect. -/
theorem breakAndUnrecognizedCallsOnlyReturn : Obligations.BreakAndUnrecognizedCallsOnlyReturn := by
  refine fun s code => ⟨fun hn => ?_, fun hn => ?_⟩
  · have hservice : s.service = .brk := by rw [State.service, hn, serviceOf_sysBrk]
    exact exec_syscall_onlyReturned hservice rfl rfl code
  · exact exec_syscall_onlyReturned (serviceOf_unrecognized _ hn) rfl rfl code

/-- Settles O54: the layer's exit answer writes `exited` and `exitCode` only, and the instruction advances. -/
theorem exitRecordsTheStatus : Obligations.ExitRecordsTheStatus := by
  intro s code hvalid hn
  obtain ⟨hexit, -⟩ := State.service_of_valid hvalid
  exact ⟨_, exec_syscall_of_noBytes (hexit hn) rfl code, rfl, BitVec.toNat_setWidth .., ⟨fun _ => rfl, rfl⟩,
    ⟨rfl, rfl⟩, fun _ => rfl, rfl, ⟨rfl, rfl⟩, rfl, rfl, rfl, ⟨rfl, rfl⟩⟩

/-- Settles O55: each clause is a branch of the service, apart from the others by R9. -/
theorem descriptorControlReportsAccess : Obligations.DescriptorControlReportsAccess := by
  intro s code hvalid hn p fd returns
  obtain ⟨-, hfcntl, -⟩ := State.service_of_valid hvalid
  obtain ⟨-, -, -, hnodup, -⟩ := hvalid
  have hreturns {v0 a3 : Word} (h : fcntlService s fd (s.reg 5#5) = .ret v0 a3 s.noEffect) :
      returns v0 a3 := exec_syscall_onlyReturned (hfcntl hn) rfl h code
  refine ⟨fun hcmd => hreturns (fcntlService_badCommand hcmd), fun hcmd => ?_⟩
  rw [hcmd] at hreturns
  exact ⟨fun hfd => hreturns (fcntlService_readable hfd),
    fun hfd => hreturns (fcntlService_writable hnodup hfd),
    fun hfd => hreturns (fcntlService_badDescriptor hfd)⟩

/-- Settles O56: R9 gives each descriptor its own service, and these answer without a further effect. -/
theorem readsAndWritesThatMoveNoMemory : Obligations.ReadsAndWritesThatMoveNoMemory := by
  intro s code hvalid p fd returns
  obtain ⟨-, -, hread, hwrite⟩ := State.service_of_valid hvalid
  obtain ⟨-, -, -, hnodup, -⟩ := hvalid
  refine ⟨fun hn => ⟨fun hfd => ?_, fun hfd => ?_, fun hfd => ?_⟩,
    fun hn => ⟨fun hfd => ?_, fun hfd => ?_⟩⟩
  · exact exec_syscall_onlyReturned ((hread hn).trans (if_pos hfd)) rfl rfl code
  · have hservice : readService p fd = .readStdin := hfd ▸ readService_fdStdin hnodup
    exact exec_syscall_onlyReturned ((hread hn).trans hservice) rfl rfl code
  · exact exec_syscall_onlyReturned ((hread hn).trans (readService_other hfd)) rfl rfl code
  · exact exec_syscall_onlyReturned ((hwrite hn).trans (writeService_std hnodup hfd)) rfl rfl code
  · exact exec_syscall_onlyReturned ((hwrite hn).trans (writeService_other hfd)) rfl rfl code

/-! ### The hint write (R278) -/

theorem Memory.length_readBytes (m : Memory) (a : Word) (n : Nat) : (m.readBytes a n).length = n := by
  rw [Memory.readBytes, List.length_map, List.length_range]

theorem Memory.getElem_readBytes (m : Memory) (a : Word) {n k : Nat}
    (hk : k < (m.readBytes a n).length) : (m.readBytes a n)[k] = m.byteAt (a + BitVec.ofNat 32 k) := by
  simp only [Memory.readBytes, List.getElem_map, List.getElem_range]

/-- Settles O59: the layer's answer has the buffer's bytes as the last hint, and nothing else of its own. -/
theorem hintWriteRecordsTheHint : Obligations.HintWriteRecordsTheHint := by
  intro s code hvalid hn hfd hmapped
  obtain ⟨-, -, -, hwrite⟩ := State.service_of_valid hvalid
  have hservice : s.service = .writeHint := (hwrite hn).trans (if_pos hfd)
  have hexec := exec_syscall_of_mapped (s := s) code (by rwa [hservice])
  rw [State.syscallResponse, hservice] at hexec
  exact ⟨_, hexec, s.returned_apply _ _ _, s.mem.length_readBytes _ _,
    fun _ hk => s.mem.getElem_readBytes _ hk, fun _ => rfl, rfl, ⟨rfl, rfl⟩⟩

end Sys2Proof.Machine
end

section
/-! SUPPORT. What no step can do otherwise (spec/70_reset_and_hazards.md R297, R298): each fact about one
instruction from the shapes of its next state, then about a step and about any number of steps. -/

namespace Sys2Proof.Machine

/-! ### One instruction -/

section
variable {s u : State} {i : Instr}

/-- No instruction writes `registers[0]` (R297 (a)). -/
theorem exec_next_regs_zero (h : exec i s = .next u) : u.regs[0] = s.regs[0] := by
  cases exec_shape h <;> (subst u; simp)

/-- No instruction writes the parameters (R298). -/
theorem exec_next_params (h : exec i s = .next u) : u.params = s.params := by
  cases exec_shape h <;> (subst u; simp)

/-- Memory changes by word writes and by the layer's answer alone, and both keep its canonical form (log 6). -/
theorem exec_next_mem_wf (h : exec i s = .next u) (hwf : s.mem.wf = true) : u.mem.wf = true := by
  cases exec_shape h with
  | store a v ha h | storeRegister a v d w ha h => subst h; simpa using Memory.wf_writeWord hwf a v
  | layer code hi h => subst h; exact apply_mem_wf hwf
  | plain h | register d v h | hiLo hi lo h | transfer d v target hb h => subst h; simpa using hwf

/-- Only SYSCALL commits an answer of the layer, which alone changes the system fields (R297 (e)). -/
theorem exec_next_systemKept (h : exec i s = .next u) (hi : ∀ code, i ≠ .syscall code) :
    s.SystemKept u := by
  cases exec_shape h with
  | layer code hcode => exact absurd hcode (hi code)
  | plain h | register d v h | hiLo hi lo h | store a v ha h | storeRegister a v d w ha h
  | transfer d v target hb h =>
    subst h; simp [State.SystemKept, State.CursorKept, State.RunKept]

end

/-! ### One step -/

section
variable {s t : State}

/-- The state after a step that answers one (R240). -/
theorem after_of_next (h : step s = .next t) : s.after = t := by rw [State.after, h]

/-- The state after a fatal error is the state before it (R243). -/
theorem after_of_fault {f : Fault} (h : step s = .fault f) : s.after = s := by rw [State.after, h]

/-- What the host sees after a step: nothing changed, or one instruction and one count. -/
theorem after_cases (s : State) :
    s.after = s ∨ ∃ i u, s.Executes i ∧ exec i s = .next u ∧ s.after = u.tick := by
  unfold State.after
  cases h : step s with
  | next t =>
    obtain ⟨-, rfl⟩ | hrun := step_next h
    · exact .inl rfl
    · exact .inr hrun
  | fault f | refused r => exact .inl rfl

/-- No step writes `registers[0]` (R297 (a)). -/
theorem after_regs_zero (s : State) : s.after.regs[0] = s.regs[0] := by
  obtain h | ⟨i, u, -, hexec, h⟩ := after_cases s
  · rw [h]
  · rw [h, u.tick_regs, exec_next_regs_zero hexec]

/-- No step writes the parameters (R298). -/
theorem after_params (s : State) : s.after.params = s.params := by
  obtain h | ⟨i, u, -, hexec, h⟩ := after_cases s
  · rw [h]
  · rw [h, u.tick_params, exec_next_params hexec]

/-- An exited machine stays as it is (R297 (b)). -/
theorem after_of_exited (h : s.exited = true) : s.after = s := after_of_next (step_of_exited h)

/-- A machine that has not exited counts each step that answers a state (R297 (c)). -/
theorem step_next_stepCount (h : step s = .next t) (hrunning : s.exited = false) :
    t.stepCount = s.stepCount + 1#64 := by
  obtain ⟨hexited, -⟩ | ⟨i, u, -, hexec, rfl⟩ := step_next h
  · exact absurd hexited (Bool.eq_false_iff.mp hrunning)
  · rw [u.tick_stepCount, exec_next_stepCount hexec]

/-- A step that executes no SYSCALL changes no system field (R297 (e)). -/
theorem after_system (h : ∀ code, ¬s.Executes (.syscall code)) :
    s.after.preimageKey = s.preimageKey ∧ s.after.preimageOffset = s.preimageOffset ∧
    s.after.heap = s.heap ∧ s.after.exitCode = s.exitCode ∧ s.after.exited = s.exited ∧
    s.after.lastHint = s.lastHint := by
  obtain heq | ⟨i, u, hi, hexec, heq⟩ := after_cases s <;> rw [heq]
  · exact ⟨rfl, rfl, rfl, rfl, rfl, rfl⟩
  · obtain ⟨hheap, hhint, ⟨hkey, hoffset⟩, hexited, hcode, -⟩ :=
      exec_next_systemKept hexec fun code hcode => h code (hcode ▸ hi)
    exact ⟨hkey, hoffset, hheap, hcode, hexited, hhint⟩

end

/-! ### The obligations -/

/-- Settles O4: what is no instruction changes nothing, and every instruction keeps both parts of the invariant. -/
theorem stepKeepsInvariant : Obligations.StepKeepsInvariant := by
  intro s t ⟨hwf, hzero⟩ hstep
  obtain ⟨-, rfl⟩ | ⟨i, u, -, hexec, rfl⟩ := step_next hstep
  · exact ⟨hwf, hzero⟩
  · have hinv : u.Inv := ⟨exec_next_mem_wf hexec hwf, (exec_next_regs_zero hexec).trans hzero⟩
    exact hinv

/-- Settles O5: each clause is the fact about one step above it; an exited machine is a fixed point, so it is the
same after any number of steps. -/
theorem stepRelationOverTime : Obligations.StepRelationOverTime := by
  intro s
  refine ⟨(after_regs_zero s).trans, fun h => Function.iterate_fixed (after_of_exited h), ?_,
    fun t hstep hrunning => ?_, fun i t hi hbranch hstep => ?_, fun i t hi hstep => ?_, after_system⟩
  · rintro (⟨f, hf⟩ | hexited)
    · rw [after_of_fault hf]
    · rw [after_of_exited hexited]
  · rw [step_next_stepCount hstep hrunning]
    exact BitVec.toNat_add ..
  · obtain ⟨u, hexec, rfl⟩ := hi.step_next hstep
    rw [u.tick_pc, u.tick_nextPc, exec_next_pc hexec, exec_next_nextPc hexec hbranch]
  · obtain ⟨u, hexec, rfl⟩ := hi.step_next hstep
    rw [u.tick_pc, exec_next_pc hexec]

/-- Settles O6, by induction on the number of steps. -/
theorem parametersAreFixedForARun : Obligations.ParametersAreFixedForARun := by
  intro s n
  induction n with
  | zero => rfl
  | succ n ih => rw [Function.iterate_succ_apply', after_params, ih]

end Sys2Proof.Machine
end

section
/-! SUPPORT. Fields of a word that must be zero (spec/30_encoding.md R91, R93), and the words of SYNC and SYSCALL, whose
one field is free (R85). -/

namespace Sys2Proof.Machine

/-! ### Words refused for a reserved field -/

/-- A word whose opcode is among `ops` is unsupported if every row of those opcodes fixes a field to another
value. -/
theorem decodeWord_eq_none_of_fixed_ops {w : Word} {ops : List (BitVec 6)} {start len : Nat} {v : BitVec len}
    (hop : opField w ∈ ops)
    (hrows : ∀ r ∈ opcodeTable, opField r.value ∈ ops →
      r.mask.extractLsb' start len = BitVec.allOnes len ∧ r.value.extractLsb' start len = v)
    (hne : w.extractLsb' start len ≠ v) : decodeWord w = none :=
  decodeWord_eq_none_of_cell (cells := (· ≠ v))
    (fun r hm ho => (hrows r hm (ho ▸ hop)).imp_right not_not_intro) rfl hne

/-- A word of opcode SPECIAL whose function is among `functs` is unsupported if the rows of those functions fix a
field to another value. -/
theorem decodeWord_eq_none_of_fixed_functs {w : Word} {functs : List (BitVec 6)} {start len : Nat}
    {v : BitVec len} (hop : opField w = 0x00#6) (hfunct : functField w ∈ functs)
    (hrows : ∀ r ∈ opcodeTable, opField r.value = 0x00#6 → functField r.value ∈ functs →
      r.mask.extractLsb' start len = BitVec.allOnes len ∧ r.value.extractLsb' start len = v)
    (hne : w.extractLsb' start len ≠ v) : decodeWord w = none :=
  decodeWord_eq_none_of_fixed (by decide) hop rfl
    (fun r hm ho hf => hrows r hm ho (hf ▸ hfunct)) hne

/-! ### Words whose one field is free (R85) -/

/-- SYNC's word is its 15 zero bits and any `stype`. -/
theorem rType_sync_eq {w : Word} (hop : opField w = 0x00#6) (hfunct : functField w = 0x0F#6)
    (hzero : w.extractLsb' 11 15 = 0#15) : rType 0x00 0 0 0 (saField w) 0x0F = w := by
  have hfield {k : Nat} (hk : k + 5 ≤ 15) : w.extractLsb' (11 + k) 5 = 0#5 := by
    apply BitVec.eq_of_getLsbD_eq
    intro j hj
    have hbit := congrArg (·.getLsbD (k + j)) hzero
    have hlt : k + j < 15 := by omega
    simpa [hj, hlt, Nat.add_assoc] using hbit
  have hrs : rsField w = 0#5 := hfield (k := 10) (by decide)
  have hrt : rtField w = 0#5 := hfield (k := 5) (by decide)
  have hrd : rdField w = 0#5 := hfield (k := 0) (by decide)
  have hw := rType_fields w
  rwa [hop, hrs, hrt, hrd, hfunct] at hw

theorem codeType_syscall_eq {w : Word} (hop : opField w = 0x00#6) (hfunct : functField w = 0x0C#6) :
    codeType 0x00 (codeField w) 0x0C = w := by
  have hw := codeType_fields w
  rwa [hop, hfunct] at hw

/-- Settles O19: every row of these opcodes and functions fixes the reserved field at 0, or asks for `rt = rd`; a
SYNC or SYSCALL word is the encoding of its free field. -/
theorem reservedFieldsMustBeZero : Obligations.ReservedFieldsMustBeZero := by
  refine ⟨fun w hop => ⟨fun hf => ?_, fun hf => ?_, fun hf => ?_, fun hf hne => ?_, fun hf hne => ?_,
    fun hf => ?_, fun hf => ?_, fun hf hzero => ?_, fun hf => ?_⟩,
    fun w => ⟨fun hop => ?_, fun hop => ?_, fun hop => ?_, fun hop hf => ?_⟩⟩
  · exact decodeWord_eq_none_of_fixed_functs (start := 21) hop hf (by decide)
  · exact decodeWord_eq_none_of_fixed_functs (start := 6) hop hf (by decide)
  · exact decodeWord_eq_none_of_fixed_functs hop hf (by decide)
  · have hf : functField w ∈ [0x09#6] := List.mem_singleton.mpr hf
    rcases hne with hrt | hsa
    · exact decodeWord_eq_none_of_fixed_functs (start := 16) hop hf (by decide) hrt
    · exact decodeWord_eq_none_of_fixed_functs (start := 6) hop hf (by decide) hsa
  · rcases hne with hrsrt | hsa
    · exact decodeWord_eq_none_of_fixed_functs hop hf (by decide) hrsrt
    · exact decodeWord_eq_none_of_fixed_functs (start := 6) hop hf (by decide) hsa
  · exact decodeWord_eq_none_of_fixed_functs hop hf (by decide)
  · exact decodeWord_eq_none_of_fixed_functs hop (List.mem_singleton.mpr hf) (by decide)
  · exact decodeWord_of_encode_eq rfl (rType_sync_eq hop hf hzero)
  · exact decodeWord_of_encode_eq rfl (codeType_syscall_eq hop hf)
  · exact decodeWord_eq_none_of_fixed_ops (start := 21) (List.mem_singleton.mpr hop) (by decide)
  · exact decodeWord_eq_none_of_fixed_ops (start := 16) hop (by decide)
  · exact decodeWord_eq_none_of_fixed_ops (start := 6) (List.mem_singleton.mpr hop) (by decide)
  · have hrows : ∀ r ∈ opcodeTable, opField r.value = 0x1C#6 →
        functField r.value ∈ [0x20#6, 0x21#6] → r.needsRtEqRd = true := by decide
    exact decodeWord_eq_none_of_rt_ne_rd (by decide) hop rfl
      fun r hm ho hfr => hrows r hm ho (hfr ▸ hf)

end Sys2Proof.Machine
end

section
/-! SUPPORT. Load linked and store conditional, division, MUL and SYNC (spec/41_load_store.md R164, R165;
43_muldiv.md R213, R214, R219; 44_system.md R231). -/

namespace Sys2Proof.Machine

/-! ### Load linked and store conditional (R164, R165) -/

/-- Settles O39: LL writes the word it reads; SC stores the old `rt` and then writes 1, which keeps memory. -/
theorem linkedLoadsAndStoresAlwaysSucceed : Obligations.LinkedLoadsAndStoresAlwaysSucceed := by
  intro s base rt offset addr v
  refine ⟨⟨isWordOf_of_encode rfl rfl, accessEnds_load rfl (s.memRead4_eq_checked addr)
      (State.wordAligned_iff addr) fun _ => rfl⟩,
    ⟨isWordOf_of_encode rfl rfl, accessEnds_of_checked rfl
      (s.memWrite4_eq_checked addr v) (State.wordAligned_iff addr) fun _ => ?_⟩⟩
  obtain ⟨hreg, hhilo, -, hsystem, hadvanced⟩ := (s.storeWord addr v).onlyRegister_setReg rt 1#32
  exact ⟨State.bytesStored_writeBytes addr (by simp) (by simp [Memory.writeWord_eq, bytesOfWord_eq]),
    hreg, hhilo, hsystem, hadvanced⟩

/-! ### Division (R213, R214) -/

section
variable {s : State} {rs rt : RegNum}

theorem exec_div_of_ne_zero (h : s.reg rt ≠ 0#32) :
    exec (.div rs rt) s = .next (s.writeHiLo
      (BitVec.ofInt 32 ((s.reg rs).toInt.tmod (s.reg rt).toInt))
      (BitVec.ofInt 32 ((s.reg rs).toInt.tdiv (s.reg rt).toInt))).advance := by
  rw [Int.tmod_def, Int.mul_comm]
  exact if_neg h

theorem exec_divu_of_ne_zero (h : s.reg rt ≠ 0#32) :
    exec (.divu rs rt) s =
      .next (s.writeHiLo (s.reg rs % s.reg rt) (s.reg rs / s.reg rt)).advance := by
  rw [BitVec.umod_def, BitVec.udiv_def]
  exact if_neg h

end

/-- A remainder that is not 0 has the dividend's sign. -/
theorem pos_of_tmod_pos {a b : Int} (h : 0 < a.tmod b) : 0 < a := by
  by_contra hle
  have hneg : 0 ≤ (-a).tmod b := Int.tmod_nonneg b (by omega)
  rw [Int.neg_tmod] at hneg
  omega

theorem neg_of_tmod_neg {a b : Int} (h : a.tmod b < 0) : a < 0 := by
  by_contra hge
  exact absurd (Int.tmod_nonneg b (not_lt.mp hge)) (not_le.mpr h)

/-- Settles O47: the divisor decides the branch, and quotient and remainder are those of the integers, truncated
toward zero for DIV. -/
theorem divideGivesQuotientAndRemainder : Obligations.DivideGivesQuotientAndRemainder := by
  intro s rs rt a b
  refine ⟨isWordOf_of_encode rfl rfl, isWordOf_of_encode rfl rfl, fun hb => ⟨if_pos hb, if_pos hb⟩,
    fun hb => ⟨?_, ?_⟩⟩
  · have hb' : b.toInt ≠ 0 := BitVec.toInt_ne.mpr hb
    refine ⟨a.toInt.tdiv b.toInt, a.toInt.tmod b.toInt, _, exec_div_of_ne_zero hb,
      s.onlyHiLo_writeHiLo _ _, (Int.tdiv_mul_add_tmod _ _).symm, ?_, pos_of_tmod_pos, neg_of_tmod_neg⟩
    rw [Int.natAbs_tmod]
    exact Nat.mod_lt _ (Int.natAbs_pos.mpr hb')
  · have hb' : 0 < b.toNat := Nat.pos_of_ne_zero (BitVec.toNat_ne.mp hb)
    refine ⟨a % b, a / b, _, exec_divu_of_ne_zero hb, s.onlyHiLo_writeHiLo _ _, ?_, ?_⟩
    · rw [BitVec.toNat_udiv, BitVec.toNat_umod, Nat.div_add_mod']
    · rw [BitVec.toNat_umod]
      exact Nat.mod_lt _ hb'

/-! ### MUL (R219) -/

/-- Settles O49: multiplication of words is that of the numbers modulo 2^32, in both readings. -/
theorem mulKeepsHiLo : Obligations.MulKeepsHiLo := by
  intro s rs rt rd
  refine ⟨isWordOf_of_encode rfl rfl, _, _, rfl, s.onlyRegister_setReg rd _, ?_, ?_⟩
  · rw [BitVec.ofNat_mul, BitVec.ofNat_toNat, BitVec.ofNat_toNat, BitVec.setWidth_eq, BitVec.setWidth_eq]
  · rw [BitVec.ofInt_mul, BitVec.ofInt_toInt, BitVec.ofInt_toInt]

/-! ### SYNC (R231) -/

/-- Settles O51: SYNC's next state is the advanced one. -/
theorem syncOnlyAdvances : Obligations.SyncOnlyAdvances := fun s _ =>
  ⟨isWordOf_of_encode rfl rfl, s.advance, rfl, s.regsKept_refl, ⟨rfl, rfl⟩, fun _ => rfl,
    ⟨rfl, rfl, ⟨rfl, rfl⟩, ⟨rfl, rfl, rfl, rfl⟩⟩, ⟨rfl, rfl⟩⟩

end Sys2Proof.Machine
end

section
/-! SUPPORT. Anonymous mapping and the preimage channel (spec/60_exceptions.md R271, R277, R279): rounding to pages,
the eight bytes of the length, and calls whose bytes lie in one word. -/

namespace Sys2Proof.Machine

/-! ### Anonymous mapping (R271) -/

theorem serviceOf_sysMmap {p : Params} (a0 : Word) (h : p.syscallNumbers.Nodup) :
    serviceOf p p.sysMmap a0 = .mmap := by
  have hfirst : p.sysMmap ≠ p.sysBrk := by grind [Params.syscallNumbers]
  rw [serviceOf, if_neg hfirst, if_pos rfl]

/-- The multiple of the page size that is at least `n` and less than one page above it is `alignUp`'s (D34). -/
theorem alignUp_eq {pageSize n size : Nat} (hpage : size % pageSize = 0) (hle : n ≤ size)
    (hlt : size < n + pageSize) : alignUp pageSize n = size := by
  obtain ⟨k, rfl⟩ := Nat.dvd_of_mod_eq_zero hpage
  have hk : (n + (pageSize - 1)) / pageSize = k := by
    refine Nat.div_eq_of_lt_le ?_ ?_
    · rw [Nat.mul_comm]
      omega
    · rw [Nat.add_mul, Nat.mul_comm]
      omega
  rw [alignUp, hk, Nat.mul_comm]

section
variable {s : State} {a0 a1 : Word} {size : Nat}

theorem mmapService_verbatim (h : a0 ≠ 0#32) : mmapService s a0 a1 = .ret a0 0#32 s.noEffect := if_pos h

theorem mmapService_fails (hsize : alignUp s.params.pageSize a1.toNat = size)
    (h : 2 ^ 32 ≤ size ∨ 2 ^ 32 ≤ s.heap.toNat + size ∨
      s.params.heapLimit.toNat < s.heap.toNat + size) :
    mmapService s 0#32 a1 = .ret 0xFFFFFFFF#32 s.params.einval s.noEffect := by
  subst hsize
  exact if_pos h

theorem mmapService_fits (hsize : alignUp s.params.pageSize a1.toNat = size)
    (h : ¬(2 ^ 32 ≤ size ∨ 2 ^ 32 ≤ s.heap.toNat + size ∨
      s.params.heapLimit.toNat < s.heap.toNat + size)) :
    mmapService s 0#32 a1 =
      .ret s.heap 0#32 { s.noEffect with heap := BitVec.ofNat 32 (s.heap.toNat + size) } := by
  subst hsize
  exact if_neg h

end

/-- Settles O53: the service has these three branches, and `size` is the size it rounds to. -/
theorem mappingMovesTheHeapOrFails : Obligations.MappingMovesTheHeapOrFails := by
  intro s code size hvalid hn hpage hle hlt fails
  obtain ⟨-, -, hnodup, -⟩ := hvalid
  have hservice : s.service = .mmap := by rw [State.service, hn, serviceOf_sysMmap _ hnodup]
  have hsize := alignUp_eq hpage hle hlt
  refine ⟨fun haddr => ?_, fun haddr hfails => ?_, fun haddr hfits => ?_⟩
  · exact exec_syscall_onlyReturned hservice rfl (mmapService_verbatim haddr) code
  · have hanswer := mmapService_fails hsize hfails
    exact exec_syscall_onlyReturned hservice rfl (haddr ▸ hanswer) code
  · have hexec := exec_syscall_of_noBytes hservice rfl code
    rw [haddr, respond, mmapService_fits hsize hfits] at hexec
    refine ⟨_, hexec, s.returned_apply _ _ _, ?_, fun _ => rfl, ⟨rfl, rfl⟩, rfl⟩
    exact (BitVec.toNat_ofNat ..).trans (Nat.mod_eq_of_lt (by omega))

/-! ### Calls whose bytes lie in one word -/

/-- Such a call commits the layer's answer if it has no byte or the word is mapped. -/
theorem exec_syscall_of_oneWord {s : State} {service : Service} (hservice : s.service = service)
    (hend : bufferLength s (s.reg 5#5) (s.reg 6#5) service ≤ toWordEnd (s.reg 5#5))
    (hmapped : 0 < bufferLength s (s.reg 5#5) (s.reg 6#5) service →
      s.mapped (wordBase (s.reg 5#5)) = true) (code : BitVec 20) :
    exec (.syscall code) s =
      .next (s.apply (respond s (s.reg 4#5) (s.reg 5#5) (s.reg 6#5) service)).advance := by
  subst hservice
  refine exec_syscall_of_mapped code fun k hk => ?_
  have hfour : toWordEnd (s.reg 5#5) ≤ 4 := Nat.sub_le _ _
  have hword : wordBase (s.reg 5#5 + BitVec.ofNat 32 k) = wordBase (s.reg 5#5) :=
    wordBase_of_lt_toWordEnd (by rw [toNat_add_ofNat_sub _ (by omega)]; omega)
  rw [hword]
  exact hmapped (by omega)

/-! ### The preimage read (R279) -/

theorem length_lengthBytes (n : Nat) : (lengthBytes n).length = 8 := by
  unfold lengthBytes
  split
  · rfl
  · exact Vector.length_toList

/-- A length below 2^64 is read back from its eight bytes: each byte takes the quotient by one power of 256 to that by
the next lower one. -/
theorem foldl_lengthBytes {n : Nat} (h : n < 2 ^ 64) :
    (lengthBytes n).foldl (fun n b => n * 256 + b.toNat) 0 = n := by
  have hbyte (i : Nat) : n / 2 ^ (i + 8) * 256 + n / 2 ^ i % 2 ^ 8 = n / 2 ^ i := by
    rw [Nat.pow_add, ← Nat.div_div_eq_div_mul]
    exact Nat.div_add_mod' _ _
  have hfirst : 0 * 256 + n / 2 ^ 56 % 2 ^ 8 = n / 2 ^ 56 := Nat.div_eq_of_lt h ▸ hbyte 56
  simp only [lengthBytes, if_pos h, List.foldl_cons, List.foldl_nil, BitVec.extractLsb'_toNat,
    BitVec.toNat_ofNat, Nat.mod_eq_of_lt h, Nat.shiftRight_eq_div_pow]
  rw [hfirst, hbyte 48, hbyte 40, hbyte 32, hbyte 24, hbyte 16, hbyte 8, hbyte 0, Nat.pow_zero, Nat.div_one]

theorem State.length_preimageData (s : State) :
    s.preimageData.length = (s.params.oracle s.preimageKey).length + 8 := by
  simp only [State.preimageData, List.length_append, length_lengthBytes, Nat.add_comm]

theorem State.length_preimageReadBytes (s : State) (a1 a2 : Word) :
    (s.preimageReadBytes a1 a2).length = s.preimageReadCount a1 a2 := by
  have hremain : s.preimageReadCount a1 a2 ≤ s.preimageData.length - s.preimageOffset.toNat :=
    (Nat.min_le_right _ _).trans (Nat.min_le_right _ _)
  rw [State.preimageReadBytes, List.length_take_of_le (by rwa [List.length_drop])]

theorem readService_fdPreimageRead {p : Params} (h : p.descriptors.Nodup) :
    readService p p.fdPreimageRead = .readPreimage := by
  have hfirst : p.fdPreimageRead ≠ p.fdHintRead := by grind [Params.descriptors]
  rw [readService, if_neg hfirst, if_pos rfl]

theorem toNat_add_ofNat (a : Word) (n : Nat) :
    (a + BitVec.ofNat 32 n).toNat = (a.toNat + n) % 2 ^ 32 := by
  rw [BitVec.toNat_add, BitVec.toNat_ofNat, Nat.add_mod_mod]

/-- Settles O57: the service stores the bytes it counts, which are there, and moves the cursor by them. -/
theorem preimageReadStreamsTheData : Obligations.PreimageReadStreamsTheData := by
  intro s code hvalid hn hfd content a o c hmapped
  obtain ⟨-, -, hread, -⟩ := State.service_of_valid hvalid
  obtain ⟨-, -, -, hnodup, -⟩ := hvalid
  have hservice : s.service = .readPreimage := by
    rw [hread hn, hfd, readService_fdPreimageRead hnodup]
  have hcount : s.preimageReadCount a (s.reg 6#5) = c := by
    rw [State.preimageReadCount, s.length_preimageData]
    rfl
  have hbytes : s.preimageReadBytes a (s.reg 6#5) =
      ((lengthBytes content.length ++ content).drop o).take c := by
    rw [State.preimageReadBytes, hcount]
    rfl
  have hlen := s.length_preimageReadBytes a (s.reg 6#5)
  have hexec := exec_syscall_of_oneWord hservice (s.preimageReadCount_le ..)
    (fun h => hmapped (hcount ▸ h)) code
  refine ⟨lengthBytes content.length, _, length_lengthBytes _, foldl_lengthBytes, hexec, ?_⟩
  rw [← hbytes, hlen, ← hcount]
  exact ⟨s.returned_apply _ _ _, State.bytesStored_writeBytes a (by omega) rfl, rfl, toNat_add_ofNat _ _,
    rfl, rfl, rfl⟩

/-! ### The preimage write (R277) -/

theorem writeService_fdPreimageWrite {p : Params} (h : p.descriptors.Nodup) :
    writeService p p.fdPreimageWrite = .writePreimage := by
  have hfirst : p.fdPreimageWrite ≠ p.fdHintWrite := by grind [Params.descriptors]
  rw [writeService, if_neg hfirst, if_pos rfl]

theorem keyUpdate_of_length_zero (p : Params) (k : Key) {bytes : List Byte} (h : bytes.length = 0) :
    p.keyUpdate k bytes = k := if_pos (List.length_eq_zero_iff.mp h)

/-- Settles O58: the service reads the bytes it counts, makes the key from them and sets the cursor to 0. -/
theorem preimageWriteSelectsTheKey : Obligations.PreimageWriteSelectsTheKey := by
  intro s code hvalid hn hfd a c hmapped
  obtain ⟨-, -, -, hwrite⟩ := State.service_of_valid hvalid
  obtain ⟨-, -, -, hnodup, -⟩ := hvalid
  have hservice : s.service = .writePreimage := by
    rw [hwrite hn, hfd, writeService_fdPreimageWrite hnodup]
  have hlen := s.mem.length_readBytes a c
  exact ⟨s.mem.readBytes a c, _, hlen, fun _ hk => s.mem.getElem_readBytes a hk,
    exec_syscall_of_oneWord hservice (Nat.min_le_right _ _) hmapped code, s.returned_apply _ _ _, rfl,
    fun hzero => keyUpdate_of_length_zero _ _ (hlen.trans hzero), rfl, fun _ => rfl, rfl, rfl⟩

end Sys2Proof.Machine
end

section
/-! SUPPORT. The state after reset (spec/10_state.md R42; 70_reset_and_hazards.md R290, R296). -/

namespace Sys2Proof.Machine

/-! ### The parameters after reset (00_scope.md R9; log 2) -/

theorem someValid_valid : Params.someValid.Valid := by decide

/-- R9 says nothing of the platform's tables, which `Config.params` empties. -/
theorem config_params_valid : Config.params.Valid := by
  have hnumbers : (if Config.freeParams.Valid then Config.freeParams else Params.someValid).Valid := by
    split
    · assumption
    · exact someValid_valid
  exact hnumbers

/-! ### The fields -/

theorem reset_reg (r : RegNum) : State.reset.reg r = 0#32 := by
  unfold State.reg
  split
  · rfl
  · exact Vector.getElem_replicate r.isLt

/-- Settles O1: the fields are as R290 writes them, with no word unmapped and parameters that meet R9. -/
theorem resetLeavesEveryFieldDefined : Obligations.ResetLeavesEveryFieldDefined :=
  ⟨reset_reg, rfl, rfl, rfl, rfl, rfl, rfl, rfl, rfl, rfl, fun i => Vector.getElem_replicate i.isLt, rfl, rfl,
    Memory.byteAt_nil, fun a => State.reset.mapped_default a rfl, config_params_valid⟩

/-- Settles O2: the empty memory is canonical, and `nextPc` follows `pc`. -/
theorem resetMeetsInvariantAndLaunchPremises : Obligations.ResetMeetsInvariantAndLaunchPremises :=
  ⟨⟨Memory.wf_nil, rfl⟩, rfl, rfl, .inl rfl, rfl, config_params_valid⟩

end Sys2Proof.Machine
end
